-- ==== Sys2Proof/Word.lean ====
section
/-! DEFINITION. The widths of RMATH-FPE's words (00_scope.md R5, R6; 40_fp_numerics.md R70, R71; 30_encoding.md R50). -/

namespace Sys2Proof

/-- A 32-bit word, `W_S` of R5: an operand, a result, a binary32 bit pattern. -/
abbrev Word := BitVec 32

/-- A 64-bit word, `W_D` of R5: a binary64 bit pattern, used inside ExpEngine only. -/
abbrev DWord := BitVec 64

/-- The 8-bit command word of format `C` (R50). -/
abbrev CommandWord := BitVec 8

end Sys2Proof
end

