-- ==== Sys2Proof/Machine/Operands.lean ====
section
/-! DEFINITION. How a word is read: the bit-cast and the field extractor (40_fp_numerics.md R74, R75), the classes
(R72), the formats (R70, R71) and the exact value of a finite word as an integer times a power of two (R73). The
bit-cast is the identity (R74), so a floating-point value is carried as its word. -/

namespace Sys2Proof.Machine

/-! ### The field extractor, binary32 and binary64 (R75) -/

/-- `sign32(w) = w[31]`. -/
def sign32 (w : Word) : Bool := w.getLsbD 31

/-- `exp32(w) = w[30:23]`. -/
def exp32 (w : Word) : BitVec 8 := w.extractLsb' 23 8

/-- `frac32(w) = w[22:0]`. -/
def frac32 (w : Word) : BitVec 23 := w.extractLsb' 0 23

/-- `mag32(w)`, the magnitude bits. -/
def mag32 (w : Word) : Word := w &&& 0x7FFFFFFF#32

/-- `signword32(w)`. -/
def signword32 (w : Word) : Word := w &&& 0x80000000#32

/-- The word with its sign bit inverted: `w ^ signbit` of R77, R147. -/
def flipSign32 (w : Word) : Word := w ^^^ 0x80000000#32

/-- `pack32(S, E, F) = {S, E, F}`. -/
def pack32 (s : Bool) (e : BitVec 8) (f : BitVec 23) : Word := BitVec.ofBool s ++ e ++ f

/-- `sign64(d) = d[63]`. -/
def sign64 (d : DWord) : Bool := d.getLsbD 63

/-- `exp64(d) = d[62:52]`. -/
def exp64 (d : DWord) : BitVec 11 := d.extractLsb' 52 11

/-- `frac64(d) = d[51:0]`. -/
def frac64 (d : DWord) : BitVec 52 := d.extractLsb' 0 52

/-- `d ^ signbit` of R77 at binary64. -/
def flipSign64 (d : DWord) : DWord := d ^^^ 0x8000000000000000#64

/-- `pack64(S, E, F) = {S, E, F}`. -/
def pack64 (s : Bool) (e : BitVec 11) (f : BitVec 52) : DWord := BitVec.ofBool s ++ e ++ f

/-! ### Classes (R72) -/

def isZero32 (w : Word) : Bool := exp32 w == 0 && frac32 w == 0
def isSubnormal32 (w : Word) : Bool := exp32 w == 0 && frac32 w != 0
def isNormal32 (w : Word) : Bool := exp32 w != 0 && exp32 w != 255#8
def isInf32 (w : Word) : Bool := exp32 w == 255#8 && frac32 w == 0
def isNaN32 (w : Word) : Bool := exp32 w == 255#8 && frac32 w != 0
def isFinite32 (w : Word) : Bool := exp32 w != 255#8

def isZero64 (d : DWord) : Bool := exp64 d == 0 && frac64 d == 0
def isSubnormal64 (d : DWord) : Bool := exp64 d == 0 && frac64 d != 0
def isNormal64 (d : DWord) : Bool := exp64 d != 0 && exp64 d != 2047#11
def isInf64 (d : DWord) : Bool := exp64 d == 2047#11 && frac64 d == 0
def isNaN64 (d : DWord) : Bool := exp64 d == 2047#11 && frac64 d != 0
def isFinite64 (d : DWord) : Bool := exp64 d != 2047#11

/-! ### Formats and values (R70, R71, R73) -/

/-- A binary format: precision `p`, exponent bias (which is also `emax`) and the biased exponent `Emax` of infinities
and NaNs. -/
structure Fmt where
  p : Nat
  bias : Nat
  expMax : Nat
  deriving DecidableEq, Repr

/-- `emin = 1 - bias`. -/
def Fmt.emin (f : Fmt) : Int := 1 - (f.bias : Int)

/-- `emax = bias`. -/
def Fmt.emax (f : Fmt) : Int := f.bias

/-- binary32: `p = 24`, bias 127, `Emax = 255` (R70). -/
def binary32 : Fmt := { p := 24, bias := 127, expMax := 255 }

/-- binary64: `p = 53`, bias 1023, `Emax = 2047` (R71). -/
def binary64 : Fmt := { p := 53, bias := 1023, expMax := 2047 }

/-- What a word of either format stands for: a NaN, an infinity of sign `s`, or the real `(-1)^s * m * 2^x`
(`s` is set for a negative sign; a zero has `m = 0` and keeps its sign). -/
inductive Datum where
  | nan
  | inf (s : Bool)
  | fin (s : Bool) (m : Nat) (x : Int)
  deriving DecidableEq, Repr

/-- R72 and R73 on fields: `F * 2^(emin - (p-1))` when `E = 0`, `(2^(p-1) + F) * 2^(E - bias - (p-1))` when
`0 < E < Emax`. -/
def datumOf (f : Fmt) (s : Bool) (e m : Nat) : Datum :=
  if e = f.expMax then (if m = 0 then .inf s else .nan)
  else if e = 0 then .fin s m (f.emin - (f.p - 1 : Nat))
  else .fin s (2 ^ (f.p - 1) + m) ((e : Int) - f.bias - (f.p - 1 : Nat))

/-- What a binary32 word stands for. -/
def datum32 (w : Word) : Datum := datumOf binary32 (sign32 w) (exp32 w).toNat (frac32 w).toNat

/-- What a binary64 word stands for. -/
def datum64 (d : DWord) : Datum := datumOf binary64 (sign64 d) (exp64 d).toNat (frac64 d).toNat

/-- An integer magnitude with a sign. -/
def signedInt (s : Bool) (m : Nat) : Int := if s then -(m : Int) else m

/-- The real a datum stands for, R73's `val`; 0 for a NaN or an infinity, where R73 gives no value and no rule
reads one. -/
def Datum.val : Datum → ℚ
  | .fin s m x => (signedInt s m : ℚ) * 2 ^ x
  | _ => 0

/-- `val32(w)` of a finite word (R73). -/
def val32 (w : Word) : ℚ := (datum32 w).val

/-- `val64(d)` of a finite word (R73). -/
def val64 (d : DWord) : ℚ := (datum64 d).val

end Sys2Proof.Machine
end

