-- ==== Sys2Proof/Machine/Draw.lean ====
section
/-! DEFINITION. The draw of a transaction: the values the spec does not fix, `UNSPEC32` (40_fp_numerics.md R92) and
`ANYNAN32`, `ANYNAN64` (R86), as an argument of `EXEC` (10_state.md R18). -/

namespace Sys2Proof.Machine

/-- One draw. Every record is a possible draw: `nanBits32` and `nanBits64` are shaped into NaNs where they are
used, and every NaN of the format is the shape of some word (itself). -/
structure Draw where
  unspec32 : Word
  nanBits32 : Word
  nanBits64 : DWord
  deriving DecidableEq, Repr

/-- The binary32 NaN with the sign and fraction of `w`; a zero fraction, which no NaN has, becomes 1. -/
def shapeNaN32 (w : Word) : Word :=
  pack32 (sign32 w) 255#8 (if frac32 w = 0 then 1#23 else frac32 w)

/-- The binary64 NaN with the sign and fraction of `d`; a zero fraction becomes 1. -/
def shapeNaN64 (d : DWord) : DWord :=
  pack64 (sign64 d) 2047#11 (if frac64 d = 0 then 1#52 else frac64 d)

/-- `ANYNAN32` (R86). -/
def Draw.anyNaN32 (d : Draw) : Word := shapeNaN32 d.nanBits32

/-- `ANYNAN64` (R86). -/
def Draw.anyNaN64 (d : Draw) : DWord := shapeNaN64 d.nanBits64

end Sys2Proof.Machine
end

