-- ==== Sys2Proof/Machine/Round.lean ====
section
/-! DEFINITION. The rounding function `RN_fmt`, roundTiesToEven (40_fp_numerics.md R76), on exact positive rationals
`num / den * 2^x` and on square roots, and the packing of its result into a word. -/

namespace Sys2Proof.Machine

/-- A result before packing: some NaN (R86), or a word with the given fields. -/
inductive Enc where
  | anyNaN
  | fields (s : Bool) (e m : Nat)
  deriving DecidableEq, Repr

/-- The infinity of sign `s` of the format. -/
def Enc.inf (f : Fmt) (s : Bool) : Enc := .fields s f.expMax 0

/-- The zero of sign `s`. -/
def Enc.zero (s : Bool) : Enc := .fields s 0 0

/-- The binary32 word of a result. -/
def Enc.word32 (d : Draw) : Enc → Word
  | .anyNaN => d.anyNaN32
  | .fields s e m => pack32 s (BitVec.ofNat 8 e) (BitVec.ofNat 23 m)

/-- The binary64 word of a result. -/
def Enc.word64 (d : Draw) : Enc → DWord
  | .anyNaN => d.anyNaN64
  | .fields s e m => pack64 s (BitVec.ofNat 11 e) (BitVec.ofNat 52 m)

/-- The integer nearest to `num / den`, the even one when it is exactly halfway (`den > 0`). -/
def nearestEven (num den : Nat) : Nat :=
  let q := num / den
  let rem := num % den
  if den < 2 * rem ∨ (2 * rem = den ∧ q % 2 = 1) then q + 1 else q

/-- `floor(log2(num / den))` for positive `num`, `den`. -/
def floorLog2 (num den : Nat) : Int :=
  let l : Int := (Nat.log2 num : Int) - (Nat.log2 den : Int)
  if num * 2 ^ (-l).toNat < den * 2 ^ l.toNat then l - 1 else l

/-- The last lines of R76: from the rounded significand `i` at exponent `e`, the carry into the next binade, overflow
to the infinity of the sign, a subnormal or zero, or a normal. -/
def finishRound (f : Fmt) (s : Bool) (i : Nat) (e : Int) : Enc :=
  let c := if i = 2 ^ f.p then (2 ^ (f.p - 1), e + 1) else (i, e)
  if f.emax < c.2 then .inf f s
  else if c.1 < 2 ^ (f.p - 1) then .fields s 0 c.1
  else .fields s (c.2 + f.bias).toNat (c.1 - 2 ^ (f.p - 1))

/-- `RN_fmt(v)` for the real `v = (-1)^s * num / den * 2^x` with positive `num`, `den` (R76): `e` is the exponent of the
binade, clamped at `emin`, `num / den * 2^j` is R76's `n = m / u`. -/
def roundRat (f : Fmt) (s : Bool) (num den : Nat) (x : Int) : Enc :=
  let e := max (floorLog2 num den + x) f.emin
  let j := x - (e - (f.p - 1 : Nat))
  finishRound f s (nearestEven (num * 2 ^ j.toNat) (den * 2 ^ (-j).toNat)) e

/-- The bits of the integer square root of `v` below bit `k`, found from the top, added to the root `r` so far. -/
def isqrtFrom (v : Nat) : Nat → Nat → Nat
  | 0, r => r
  | k + 1, r => if (r + 2 ^ k) * (r + 2 ^ k) ≤ v then isqrtFrom v k (r + 2 ^ k) else isqrtFrom v k r

/-- The integer square root of `v < 2^(2k)`. -/
def isqrt (k v : Nat) : Nat := isqrtFrom v k 0

/-- `RN_fmt(sqrt(m * 2^x))` for positive `m < 2^p` (R76, R80): `e = floor(log2(sqrt(m * 2^x)))`, R76's `n` is the square
root of the integer `v = m * 2^(x - 2(e - (p-1)))`, and it is never halfway between two integers. -/
def roundSqrt (f : Fmt) (m : Nat) (x : Int) : Enc :=
  let e := (((Nat.log2 m : Int) + x) / 2)
  let v := m * 2 ^ (x - 2 * (e - (f.p - 1 : Nat))).toNat
  let r := isqrt f.p v
  finishRound f false (if r < v - r * r then r + 1 else r) e

end Sys2Proof.Machine
end

