-- ==== Sys2Proof/Machine/Arith.lean ====
section
/-! DEFINITION. The arithmetic primitives, one rounding each (40_fp_numerics.md R77 to R85), and the Horner evaluator
(R90). No primitive sets a flag or traps (R87), none is fused with another (R88). Every NaN a primitive returns is
the NaN of the step's draw (R86). -/

namespace Sys2Proof.Machine

/-- `(-1)^s * m * 2^(x - z)` as an integer, for `z ≤ x`. -/
def alignedInt (s : Bool) (m : Nat) (x z : Int) : Int := signedInt s (m * 2 ^ (x - z).toNat)

/-- The sum of two finite values (R77): for two zeros the zero of their common sign or `+0`; an exact zero sum of other
values is `+0`; else `RN_fmt` of the exact sum. -/
def addFinite (f : Fmt) (s : Bool) (m : Nat) (x : Int) (t : Bool) (n : Nat) (y : Int) : Enc :=
  let z := min x y
  let v := alignedInt s m x z + alignedInt t n y z
  if m = 0 ∧ n = 0 then .zero (s && t)
  else if v = 0 then .zero false
  else roundRat f (decide (v < 0)) v.natAbs 1 z

/-- Addition (R77). -/
def addDatum (f : Fmt) : Datum → Datum → Enc
  | .nan, _ => .anyNaN
  | _, .nan => .anyNaN
  | .inf s, .inf t => if s = t then .inf f s else .anyNaN
  | .inf s, .fin _ _ _ => .inf f s
  | .fin _ _ _, .inf t => .inf f t
  | .fin s m x, .fin t n y => addFinite f s m x t n y

/-- Multiplication (R78). -/
def mulDatum (f : Fmt) : Datum → Datum → Enc
  | .nan, _ => .anyNaN
  | _, .nan => .anyNaN
  | .inf s, .inf t => .inf f (s ^^ t)
  | .inf s, .fin t n _ => if n = 0 then .anyNaN else .inf f (s ^^ t)
  | .fin s m _, .inf t => if m = 0 then .anyNaN else .inf f (s ^^ t)
  | .fin s m x, .fin t n y =>
    if m = 0 ∨ n = 0 then .zero (s ^^ t) else roundRat f (s ^^ t) (m * n) 1 (x + y)

/-- Division (R79). -/
def divDatum (f : Fmt) : Datum → Datum → Enc
  | .nan, _ => .anyNaN
  | _, .nan => .anyNaN
  | .inf _, .inf _ => .anyNaN
  | .inf s, .fin t _ _ => .inf f (s ^^ t)
  | .fin s _ _, .inf t => .zero (s ^^ t)
  | .fin s m x, .fin t n y =>
    if n = 0 then (if m = 0 then .anyNaN else .inf f (s ^^ t))
    else if m = 0 then .zero (s ^^ t)
    else roundRat f (s ^^ t) m n (x - y)

/-- Square root (R80): a zero keeps its sign, any other negative value and `-inf` give a NaN. -/
def sqrtDatum (f : Fmt) : Datum → Enc
  | .nan => .anyNaN
  | .inf s => if s then .anyNaN else .inf f false
  | .fin s m x => if m = 0 then .zero s else if s then .anyNaN else roundSqrt f m x

/-- `a < b` on the extended reals, false when either is a NaN, zeros equal (R81). -/
def ltDatum : Datum → Datum → Bool
  | .nan, _ => false
  | _, .nan => false
  | .inf s, .inf t => s && !t
  | .inf s, .fin _ _ _ => s
  | .fin _ _ _, .inf t => !t
  | .fin s m x, .fin t n y => decide (alignedInt s m x (min x y) < alignedInt t n y (min x y))

/-- Conversion to the format `f`: NaN to a NaN, infinities and zeros keep their sign, any other value is rounded once
(R82, R83). -/
def convertDatum (f : Fmt) : Datum → Enc
  | .nan => .anyNaN
  | .inf s => .inf f s
  | .fin s m x => if m = 0 then .zero s else roundRat f s m 1 x

/-- The value `(-1)^s * m * 2^x` with its fractional part discarded (R84). -/
def truncInt (s : Bool) (m : Nat) (x : Int) : Int :=
  signedInt s (if 0 ≤ x then m * 2 ^ x.toNat else m / 2 ^ (-x).toNat)

/-! ### binary32 -/

/-- `fadd32` (R77). -/
def fadd32 (d : Draw) (a b : Word) : Word := (addDatum binary32 (datum32 a) (datum32 b)).word32 d

/-- `fsub32(a, b) = fadd32(a, b ^ signbit)` (R77). -/
def fsub32 (d : Draw) (a b : Word) : Word := fadd32 d a (flipSign32 b)

/-- `fmul32` (R78). -/
def fmul32 (d : Draw) (a b : Word) : Word := (mulDatum binary32 (datum32 a) (datum32 b)).word32 d

/-- `fdiv32` (R79). -/
def fdiv32 (d : Draw) (a b : Word) : Word := (divDatum binary32 (datum32 a) (datum32 b)).word32 d

/-- `fsqrt32` (R80). -/
def fsqrt32 (d : Draw) (a : Word) : Word := (sqrtDatum binary32 (datum32 a)).word32 d

/-- `flt32` (R81). -/
def flt32 (a b : Word) : Bool := ltDatum (datum32 a) (datum32 b)

/-- `fgt32(a, b) = flt32(b, a)` (R81). -/
def fgt32 (a b : Word) : Bool := flt32 b a

/-- `f2i` (R84): truncation to a signed 32-bit integer; `none` outside the conversion's domain. -/
def f2i (a : Word) : Option Int :=
  match datum32 a with
  | .fin s m x =>
    let t := truncInt s m x
    if -(2 ^ 31) ≤ t ∧ t ≤ 2 ^ 31 - 1 then some t else none
  | _ => none

/-- `i2f` (R85): `+0` for 0, else the rounded integer. -/
def i2f (d : Draw) (t : Int) : Word :=
  (if t = 0 then Enc.zero false else roundRat binary32 (decide (t < 0)) t.natAbs 1 0).word32 d

/-! ### binary64 -/

/-- `fadd64` (R77). -/
def fadd64 (d : Draw) (a b : DWord) : DWord := (addDatum binary64 (datum64 a) (datum64 b)).word64 d

/-- `fsub64` (R77). -/
def fsub64 (d : Draw) (a b : DWord) : DWord := fadd64 d a (flipSign64 b)

/-- `fmul64` (R78). -/
def fmul64 (d : Draw) (a b : DWord) : DWord := (mulDatum binary64 (datum64 a) (datum64 b)).word64 d

/-- The integer `val64(k)` of a word that holds one (R174). -/
def int64 (k : DWord) : Int :=
  match datum64 k with
  | .fin s m x => truncInt s m x
  | _ => 0

/-! ### Conversions between the formats -/

/-- `widen` (R82). -/
def widen (d : Draw) (a : Word) : DWord := (convertDatum binary64 (datum32 a)).word64 d

/-- `narrow` (R83). -/
def narrow (d : Draw) (y : DWord) : Word := (convertDatum binary32 (datum64 y)).word32 d

/-! ### The Horner evaluator (R90): the coefficients are consumed from the leading one down to the constant term, each
stage one multiplication and one addition. -/

/-- `HORNER32` with leading coefficient `lead` and the others in `rest`, highest degree first (R141). -/
def horner32 (d : Draw) (lead : Word) (rest : List Word) (u : Word) : Word :=
  rest.foldl (fun acc c => fadd32 d (fmul32 d acc u) c) lead

/-- `HORNER64`. -/
def horner64 (d : Draw) (lead : DWord) (rest : List DWord) (u : DWord) : DWord :=
  rest.foldl (fun acc c => fadd64 d (fmul64 d acc u) c) lead

end Sys2Proof.Machine
end

