-- ==== Sys2Proof/Machine/Rom.lean ====
section
/-! DEFINITION. The constant ROMs and scalar constants (00_scope.md R5, 20_memory.md R31): they are configuration and no
step changes them (10_state.md R20). `TBL` and the scalars are fixed; the four coefficient vectors are OPEN
(43_poly_kernels.md R141), so they are an argument of the commands that read them. -/

namespace Sys2Proof.Machine

/-! ### Scalar constants -/

/-- `ONE` (R112, R145). -/
def one32 : Word := 0x3F800000#32

/-- `HALF` (R130). -/
def half32 : Word := 0x3F000000#32

/-- `INV_2PI` (R130). -/
def inv2Pi : Word := 0x3E22F983#32

/-- `TWO_PI` (R130). -/
def twoPi : Word := 0x40C90FDB#32

/-- `THR` (R171). -/
def threshold : Word := 0x42B17216#32

/-- `INVLN2N` (R172). -/
def invLn2N : DWord := 0x40471547652B82FE#64

/-- `SHIFT` = 1.5 * 2^52 (R172). -/
def shiftConst : DWord := 0x4338000000000000#64

/-! ### The exponential table -/

/-- The 32 words of R170: entry `i` is the binary64 word nearest to `2^(i/32)`. -/
def tblWords : Vector DWord 32 :=
  #v[
    0x3FF0000000000000#64, 0x3FF059B0D3158574#64, 0x3FF0B5586CF9890F#64, 0x3FF11301D0125B51#64,
    0x3FF172B83C7D517B#64, 0x3FF1D4873168B9AA#64, 0x3FF2387A6E756238#64, 0x3FF29E9DF51FDEE1#64,
    0x3FF306FE0A31B715#64, 0x3FF371A7373AA9CB#64, 0x3FF3DEA64C123422#64, 0x3FF44E086061892D#64,
    0x3FF4BFDAD5362A27#64, 0x3FF5342B569D4F82#64, 0x3FF5AB07DD485429#64, 0x3FF6247EB03A5585#64,
    0x3FF6A09E667F3BCD#64, 0x3FF71F75E8EC5F74#64, 0x3FF7A11473EB0187#64, 0x3FF82589994CCE13#64,
    0x3FF8ACE5422AA0DB#64, 0x3FF93737B0CDC5E5#64, 0x3FF9C49182A3F090#64, 0x3FFA5503B23E255D#64,
    0x3FFAE89F995AD3AD#64, 0x3FFB7F76F2FB5E47#64, 0x3FFC199BDD85529C#64, 0x3FFCB720DCEF9069#64,
    0x3FFD5818DCFBA487#64, 0x3FFDFC97337B9B5F#64, 0x3FFEA4AFA2A490DA#64, 0x3FFF50765B6E4540#64]

/-- `TBL[i]`: a whole 64-bit entry, read by its 5-bit index (R31, R43). -/
def tbl (i : Fin 32) : DWord := tblWords[i]

/-! ### The coefficient vectors: `cj` is the coefficient of the `j`-th power, `c0` the constant term (R141) -/

/-- Six binary32 coefficients, degree 5: `SIN_C`, `COS_C` (R140). -/
structure Coeff6 where
  c0 : Word
  c1 : Word
  c2 : Word
  c3 : Word
  c4 : Word
  c5 : Word
  deriving DecidableEq, Repr

/-- Seven binary32 coefficients, degree 6: `ERF_C` (R140). -/
structure Coeff7 where
  c0 : Word
  c1 : Word
  c2 : Word
  c3 : Word
  c4 : Word
  c5 : Word
  c6 : Word
  deriving DecidableEq, Repr

/-- Four binary64 coefficients, degree 3: `EXP_C` (R140, R176). -/
structure Coeff4 where
  c0 : DWord
  c1 : DWord
  c2 : DWord
  c3 : DWord
  deriving DecidableEq, Repr

/-- The contents of the four coefficient ROMs. -/
structure Coeffs where
  sinC : Coeff6
  cosC : Coeff6
  erfC : Coeff7
  expC : Coeff4
  deriving DecidableEq, Repr

/-- The reference set REF (R152, R182), the spec's own: it shows that the constraints on the vectors can be met, and
tests run the rules with it. The machine's vectors are Config.roms, which is not this set. -/
def referenceCoeffs : Coeffs :=
  { sinC := { c0 := 0x3F7FFFFB#32, c1 := 0xBE2AAA68#32, c2 := 0x3C0884F3#32
              c3 := 0xB94FB9C4#32, c4 := 0x3635479C#32, c5 := 0xB2AF62BF#32 }
    cosC := { c0 := 0x3F800000#32, c1 := 0xBEFFFF84#32, c2 := 0x3D2AA4D6#32
              c3 := 0xBAB5B170#32, c4 := 0x37CB527B#32, c5 := 0xB46D5CAF#32 }
    erfC := { c0 := 0x3F800000#32, c1 := 0x3E106B9A#32, c2 := 0x3DB7B06E#32, c3 := 0x3CC30A25#32
              c4 := 0x3B9B6B85#32, c5 := 0x3925FE41#32, c6 := 0x3A3127D3#32 }
    expC := { c0 := 0x3FF0000000000000#64, c1 := 0x3F962E42FEFA39EF#64
              c2 := 0x3F2EBFBDFF82C58F#64, c3 := 0x3EBC6B08D704A0C0#64 } }

end Sys2Proof.Machine
end

