-- ==== Sys2Proof/Machine/BitOps.lean ====
section
/-! DEFINITION. The BitOps block (41_bitops.md): the functions of `ABS`, `CSGN`, `FLOOR`, `SQRT`, `HYPOT`, `SQ`, each from
operand words and the draw to the result word. -/

namespace Sys2Proof.Machine

/-- `ABS a` (R110): the sign bit cleared, on every word. -/
def absOp (a : Word) : Word := mag32 a

/-- `CSGN a, b` (R111): the magnitude bits of `a`, the sign bit of `b`. -/
def csgnOp (a b : Word) : Word := mag32 a ||| signword32 b

/-- `FLOORF` (R112, R130): truncate, convert back, subtract 1 exactly when the truncated value is greater than the
operand (90_conflicts.md C1); `none` outside the domain of `f2i`. -/
def floorFn (d : Draw) (a : Word) : Option Word :=
  match f2i a with
  | none => none
  | some t =>
    let tf := i2f d t
    some (if fgt32 tf a then fsub32 d tf one32 else tf)

/-- `FLOOR a` (R112); outside the domain `UNSPEC32` (R113). -/
def floorOp (d : Draw) (a : Word) : Word := (floorFn d a).getD d.unspec32

/-- `SQRT a` (R114). -/
def sqrtOp (d : Draw) (a : Word) : Word := fsqrt32 d a

/-- `HYPOT a, b` (R115): four binary32 roundings, no scaling guard. -/
def hypotOp (d : Draw) (a b : Word) : Word :=
  let xx := fmul32 d a a
  let yy := fmul32 d b b
  let ss := fadd32 d xx yy
  fsqrt32 d ss

/-- `SQ a` (R116). -/
def sqOp (d : Draw) (a : Word) : Word := fmul32 d a a

end Sys2Proof.Machine
end

