-- ==== Sys2Proof/Machine/ExpEngine.lean ====
section
/-! DEFINITION. The ExpEngine block (44_exp_engine.md): `EXP`, table lookup plus polynomial remainder, in binary64
inside and narrowed to binary32 on output. -/

namespace Sys2Proof.Machine

/-- Step 2: `z = x * (32 / ln 2)` in binary64 (R172). -/
def expScaled (d : Draw) (a : Word) : DWord := fmul64 d (widen d a) invLn2N

/-- Step 3: the sum whose rounding snaps `z` to the nearest integer (R172). -/
def expShifted (d : Draw) (z : DWord) : DWord := fadd64 d z shiftConst

/-- `k = kd - SHIFT` (R172). -/
def expRounded (d : Draw) (kd : DWord) : DWord := fsub64 d kd shiftConst

/-- The index `K mod 32` (R174): the non-negative remainder, the low 5 bits of `K`. -/
def expIndex (k : Int) : Fin 32 := ⟨(k % 32).toNat, by omega⟩

/-- The quotient `K div 32` (R174): the floor quotient. -/
def expQuotient (k : Int) : Int := k / 32

/-- Step 4b: the exponent injection, an addition modulo 2^64 on the table word (R177). -/
def expScale (k : Int) : DWord := tbl (expIndex k) + (BitVec.ofInt 64 (expQuotient k) <<< 52)

/-- Step 5a: the remainder polynomial (R176). -/
def expPoly (c : Coeff4) (d : Draw) (r : DWord) : DWord := horner64 d c.c3 [c.c2, c.c1, c.c0] r

/-- Steps 2 to 5 on an operand that is not saturated (R172 to R178). -/
def expTable (c : Coeff4) (d : Draw) (a : Word) : Word :=
  let z := expScaled d a
  let kd := expShifted d z
  if isNaN64 kd then d.anyNaN32
  else
    let k := expRounded d kd
    let r := fsub64 d z k
    narrow d (fmul64 d (expPoly c d r) (expScale (int64 k)))

/-- `EXP a` (R178): saturation against the threshold with both signs, strictly (R171), else the table path. -/
def expOp (k : Coeffs) (d : Draw) (a : Word) : Word :=
  if flt32 a (flipSign32 threshold) then 0x00000000#32
  else if fgt32 a threshold then 0x7F800000#32
  else expTable k.expC d a

/-- `idx` read from the word `kd` (R175): its low 5 bits. -/
def expIndexBits (kd : DWord) : Fin 32 := (kd.extractLsb' 0 5).toFin

/-- `sbits` computed from bits of the word `kd` (R175). -/
def expScaleBits (kd : DWord) : DWord :=
  tbl (expIndexBits kd) + ((kd.extractLsb' 5 12).zeroExtend 64 <<< 52)

end Sys2Proof.Machine
end

