-- ==== Sys2Proof/Machine/RangeReducer.lean ====
section
/-! DEFINITION. The RangeReducer block: `REDUCE` (42_range_reducer.md R130, R131), the first stage of `SIN` and `COS`. -/

namespace Sys2Proof.Machine

/-- The argument `t2` of `REDUCE`'s floor: `x * (1/2π) + 0.5`, two binary32 roundings (R130). -/
def reduceQuotient (d : Draw) (x : Word) : Word := fadd32 d (fmul32 d x inv2Pi) half32

/-- `REDUCE(x)` (R130), binary32 throughout; `none` outside its domain (R131). There is no second, more precise
reduction step (R132). -/
def reduce (d : Draw) (x : Word) : Option Word :=
  match floorFn d (reduceQuotient d x) with
  | none => none
  | some n => some (fsub32 d x (fmul32 d n twoPi))

end Sys2Proof.Machine
end

