-- ==== Sys2Proof/Machine/PolyKernels.lean ====
section
/-! DEFINITION. The PolynomialKernels block (43_poly_kernels.md): the functions of `SIN`, `COS`, `ERF.U`, `ERF.S`, from the
coefficient vectors, the draw and the operand word to the result word. -/

namespace Sys2Proof.Machine

/-- The sine kernel at `s = x'*x'` (R140, R142). -/
def sinPoly (k : Coeff6) (d : Draw) (s : Word) : Word := horner32 d k.c5 [k.c4, k.c3, k.c2, k.c1, k.c0] s

/-- The cosine kernel at `s = x'*x'` (R140, R143). -/
def cosPoly (k : Coeff6) (d : Draw) (s : Word) : Word := horner32 d k.c5 [k.c4, k.c3, k.c2, k.c1, k.c0] s

/-- `SIN` on the reduced argument: the polynomial in `x'*x'`, the multiplication by `x'` last (R142). -/
def sinReduced (k : Coeff6) (d : Draw) (x : Word) : Word := fmul32 d (sinPoly k d (fmul32 d x x)) x

/-- `COS` on the reduced argument (R143). -/
def cosReduced (k : Coeff6) (d : Draw) (x : Word) : Word := cosPoly k d (fmul32 d x x)

/-- `SIN a` (R142); outside `REDUCE`'s domain `UNSPEC32`, for a NaN operand too. -/
def sinOp (k : Coeffs) (d : Draw) (a : Word) : Word :=
  match reduce d a with
  | none => d.unspec32
  | some x => sinReduced k.sinC d x

/-- `COS a` (R143). -/
def cosOp (k : Coeffs) (d : Draw) (a : Word) : Word :=
  match reduce d a with
  | none => d.unspec32
  | some x => cosReduced k.cosC d x

/-- `ERFPOLY(u)` (R144). -/
def erfPoly (k : Coeff7) (d : Draw) (u : Word) : Word :=
  horner32 d k.c6 [k.c5, k.c4, k.c3, k.c2, k.c1, k.c0] u

/-- `y8` of R145: three squarings of `y` (90_conflicts.md C3). -/
def eighthPower (d : Draw) (y : Word) : Word :=
  let y2 := fmul32 d y y
  let y4 := fmul32 d y2 y2
  fmul32 d y4 y4

/-- `1 - 1/y8` of R145. -/
def oneMinusReciprocal (d : Draw) (y8 : Word) : Word := fsub32 d one32 (fdiv32 d one32 y8)

/-- `ERFMAG(u)` (R145). -/
def erfMag (k : Coeff7) (d : Draw) (u : Word) : Word := oneMinusReciprocal d (eighthPower d (erfPoly k d u))

/-- `ERF.U a` (R146): the magnitude of `|a|` with the sign of `a`. -/
def erfUOp (k : Coeffs) (d : Draw) (a : Word) : Word := csgnOp (erfMag k.erfC d (absOp a)) a

/-- `ERF.S a` (R147): zeros and NaNs take the second arm. -/
def erfSOp (k : Coeffs) (d : Draw) (a : Word) : Word :=
  if fgt32 a 0 then erfMag k.erfC d a else flipSign32 (erfMag k.erfC d (flipSign32 a))

/-! ### Constraints on the OPEN vectors -/

def Coeff6.finite (k : Coeff6) : Bool :=
  isFinite32 k.c0 && isFinite32 k.c1 && isFinite32 k.c2 && isFinite32 k.c3 && isFinite32 k.c4 && isFinite32 k.c5

def Coeff7.finite (k : Coeff7) : Bool :=
  isFinite32 k.c0 && isFinite32 k.c1 && isFinite32 k.c2 && isFinite32 k.c3 && isFinite32 k.c4 && isFinite32 k.c5
    && isFinite32 k.c6

def Coeff4.finite (k : Coeff4) : Bool :=
  isFinite64 k.c0 && isFinite64 k.c1 && isFinite64 k.c2 && isFinite64 k.c3

/-- A fixed draw on which R151 (d), (e), (f) are tested: the tested results are no NaN, and a result that is no NaN does not
depend on the draw (Laws/Draws.lean), so a configuration passes with one draw when it passes with all. -/
def trialDraw : Draw := { unspec32 := 0, nanBits32 := 0, nanBits64 := 0 }

/-- R151 (a), (c) for the sine and cosine vectors and (b): finite, `SIN_C[0]` non-zero, `COS_C[0] = 1`. -/
def Coeffs.trigAdmissible (k : Coeffs) : Bool :=
  k.sinC.finite && k.cosC.finite && !isZero32 k.sinC.c0 && k.cosC.c0 == one32

/-- R151 (a), (d), (e) for the error-function vector: finite, `ERFMAG(+0) = +0`, `ERFMAG(10) = 1`. -/
def Coeffs.erfAdmissible (k : Coeffs) : Bool :=
  k.erfC.finite && erfMag k.erfC trialDraw 0#32 == 0#32 && erfMag k.erfC trialDraw 0x41200000#32 == one32

/-- 44_exp_engine.md R181: finite, `EXP_C[0]` non-zero. -/
def Coeffs.expAdmissible (k : Coeffs) : Bool := k.expC.finite && !isZero64 k.expC.c0

/-- The constraints that name their words: R151 (a) to (e) and R181. -/
def Coeffs.fixedConstraints (k : Coeffs) : Bool := k.trigAdmissible && k.erfAdmissible && k.expAdmissible

/-- R151 (f) at one word: for `u` with sign bit 0 that is no NaN, `ERFMAG(u)` has sign bit 0 with every draw. It is then no
NaN either, since the sign of a NaN is a draw (40_fp_numerics.md R86). For a NaN `u` R148 claims nothing. -/
def Coeffs.modesAgreeAt (k : Coeffs) (u : Word) : Bool :=
  isNaN32 u || sign32 u ||
    (!isNaN32 (erfMag k.erfC trialDraw u) && !sign32 (erfMag k.erfC trialDraw u))

/-- R151 (f) for a configuration used on the given magnitude words. -/
def Coeffs.modesAgreeOn (k : Coeffs) (used : List Word) : Bool := used.all k.modesAgreeAt

/-- The magnitude words on which 00_scope.md R8 runs every configuration in both modes: those of "`erf(0) = 0`" and
"`erf(10) = 1`; `erf(-10) = -1`". -/
def sourceErfWords : List Word := [0x00000000#32, 0x41200000#32]

/-- An admissible configuration (00_scope.md R8) used on the magnitude words `used` by the error function: R151 (a) to (f) and
44_exp_engine.md R181. -/
def Coeffs.admissible (k : Coeffs) (used : List Word) : Bool := k.fixedConstraints && k.modesAgreeOn used

end Sys2Proof.Machine
end

