-- ==== Sys2Proof/Config.lean ====
section
/-! DEFINITION. What the spec leaves OPEN or unfixed (00_scope.md R5), as constants with no body: no proof can see what
they are, so a claim is true whatever they are. -/

namespace Sys2Proof

open Sys2Proof.Machine

/-- The coefficient ROMs of a unit and the magnitude words its error function is used on, beside those of the source's
properties, together with the fact that they meet the constraints of 43_poly_kernels.md R151 (a) to (f) and 44_exp_engine.md
R181. The field defaults only show Lean that such a configuration exists (REF, R152, R182, on the magnitudes of
96_test_vectors_kernels.md section 2.6). -/
structure AdmissibleCoeffs where
  coeffs : Coeffs := referenceCoeffs
  moreErfWords : List Word :=
    [0x3F000000#32, 0x3F800000#32, 0x40000000#32, 0x40400000#32, 0x4079999A#32, 0x40800000#32, 0x2EDBE6FF#32,
      0x00000001#32, 0x47C35000#32, 0x4B189680#32, 0x7F800000#32]
  admissible : coeffs.admissible (sourceErfWords ++ moreErfWords) = true := by decide +kernel
  deriving Inhabited

/-- The contents of this unit's coefficient ROMs and the words it is used on: any admissible configuration (R141, decision
D23). -/
opaque Config.roms : AdmissibleCoeffs

/-- `QDEPTH - 1` (10_state.md R16, decision D4). -/
opaque Config.extraDepth : Nat

/-- The word `UNSPEC32` of the `n`-th transaction (40_fp_numerics.md R92): a free value. -/
opaque Config.unspec32 : Nat → BitVec 32

/-- The bits of `ANYNAN32` in the `n`-th transaction (R86), shaped into a NaN by Draw.anyNaN32: a free value. -/
opaque Config.nanBits32 : Nat → BitVec 32

/-- The bits of `ANYNAN64` in the `n`-th transaction (R86), shaped into a NaN by Draw.anyNaN64: a free value. -/
opaque Config.nanBits64 : Nat → BitVec 64

/-- The coefficient vectors of this unit. -/
def Config.coeffs : Coeffs := Config.roms.coeffs

/-- The magnitude words this unit's error function is used on (R151 (f)); the unit executes on every other word too. -/
def Config.erfWords : List Word := sourceErfWords ++ Config.roms.moreErfWords

/-- `QDEPTH`, at least 1 (R16). -/
def Config.qdepth : Nat := Config.extraDepth + 1

/-- The draw of the `n`-th transaction (10_state.md R16, R18). -/
def Config.drawAt (n : Nat) : Draw :=
  { unspec32 := Config.unspec32 n, nanBits32 := Config.nanBits32 n, nanBits64 := Config.nanBits64 n }

end Sys2Proof
end

