-- ==== Sys2Proof/Syntax.lean ====
section
/-! DEFINITION. The commands of RMATH-CMD version 1, one constructor per row of spec/opcode_table.json
(30_encoding.md R53), with the request's operand words they read (R54, R56), the fields of the command word
(R50) and the request record (R51). -/

namespace Sys2Proof

/-- A command with the operand words it reads: `a` is the source's `x`, `b` its `y` (R53). A one-operand
command does not carry `b`, because the response does not depend on it (R56). -/
inductive Instr where
  | sin (a : Word)
  | cos (a : Word)
  | exp (a : Word)
  | erfU (a : Word)
  | erfS (a : Word)
  | sqrt (a : Word)
  | abs (a : Word)
  | csgn (a b : Word)
  | floor (a : Word)
  | hypot (a b : Word)
  | sq (a : Word)
  deriving DecidableEq, Repr

/-- The pseudo-instruction `ERF a`, which expands to `ERF.U a` (R61). -/
abbrev Instr.erf (a : Word) : Instr := .erfU a

/-- The three fields of the command word, format `C` (R50). -/
structure CommandFields where
  rsv : BitVec 3
  m : BitVec 1
  op : BitVec 4
  deriving DecidableEq, Repr

/-- The columns `RSV`, `M`, `OP` of R53's table. -/
def Instr.fields : Instr → CommandFields
  | .sin _ => ⟨0, 0, 0x0⟩
  | .cos _ => ⟨0, 0, 0x1⟩
  | .exp _ => ⟨0, 0, 0x2⟩
  | .erfU _ => ⟨0, 0, 0x3⟩
  | .erfS _ => ⟨0, 1, 0x3⟩
  | .sqrt _ => ⟨0, 0, 0x4⟩
  | .abs _ => ⟨0, 0, 0x5⟩
  | .csgn _ _ => ⟨0, 0, 0x6⟩
  | .floor _ => ⟨0, 0, 0x7⟩
  | .hypot _ _ => ⟨0, 0, 0x8⟩
  | .sq _ => ⟨0, 0, 0x9⟩

/-- A request: the command word with two operand words (R16, R51). -/
structure Request where
  cmd : CommandWord
  a : Word
  b : Word
  deriving DecidableEq, Repr

/-- A response: the result word and the illegal-command bit (R16). -/
structure Response where
  r : Word
  ill : Bool
  deriving DecidableEq, Repr

end Sys2Proof
end

