-- ==== Sys2Proof/WellFormed.lean ====
section
/-! DEFINITION. Which command words are legal (30_encoding.md R50, R52, R53, R57), as three checks on the
fields of format `C`, and which commands are well formed. -/

namespace Sys2Proof

/-- `RSV` must be `000` (R50). -/
def CommandFields.reservedZero (c : CommandFields) : Bool := c.rsv == 0

/-- `M` is meaningful only with `OP = 0x3` and must be 0 otherwise (R50, R52). -/
def CommandFields.modeAllowed (c : CommandFields) : Bool := c.m == 0 || c.op == 0x3

/-- `OP` values `0xA` to `0xF` are reserved (R57). -/
def CommandFields.opAssigned (c : CommandFields) : Bool := decide (c.op ≤ 0x9)

/-- The three checks together: the command word is one of R53's eleven. -/
def CommandFields.wellFormed (c : CommandFields) : Bool :=
  c.reservedZero && c.modeAllowed && c.opAssigned

/-- A command is well formed when its command word is legal; its operands may be any words (R55). -/
def Instr.wellFormed (i : Instr) : Bool := i.fields.wellFormed

end Sys2Proof
end

