-- ==== Sys2Proof/Decode.lean ====
section
/-! DEFINITION. The decoder, total on the 256 command words (30_encoding.md R55), the encoder (R50, R51, R53)
and the reading of a request out of one number (spec/opcode_table.json's bit numbering). -/

namespace Sys2Proof

/-- Why a command word is illegal: which of R55's three tests it fails first. The unit reports only that it is
illegal (60_exceptions.md R201); the reason is the decoder's name for the rejection. -/
inductive IllegalCommand where
  | reservedBits
  | modeBit
  | reservedOp
  deriving DecidableEq, Repr

/-- The fields of a command word (R50). -/
def splitCommand (c : CommandWord) : CommandFields :=
  { rsv := c.extractLsb' 5 3, m := c.extractLsb' 4 1, op := c.extractLsb' 0 4 }

/-- The command word with the given fields, `RSV` most significant (R50). -/
def joinCommand (f : CommandFields) : CommandWord := f.rsv ++ f.m ++ f.op

/-- The command with the given legal `M` and `OP` (R53); `none` for an `OP` the map does not assign. -/
def commandOf (m : BitVec 1) (op : BitVec 4) (a b : Word) : Option Instr :=
  match op.toNat with
  | 0x0 => some (.sin a)
  | 0x1 => some (.cos a)
  | 0x2 => some (.exp a)
  | 0x3 => some (if m = 0 then .erfU a else .erfS a)
  | 0x4 => some (.sqrt a)
  | 0x5 => some (.abs a)
  | 0x6 => some (.csgn a b)
  | 0x7 => some (.floor a)
  | 0x8 => some (.hypot a b)
  | 0x9 => some (.sq a)
  | _ => none

/-- R55's decoder. The operand words take no part in it; they are carried into the command as they are. -/
def decode (q : Request) : Except IllegalCommand Instr :=
  let f := splitCommand q.cmd
  if f.reservedZero = false then .error .reservedBits
  else if f.modeAllowed = false then .error .modeBit
  else
    match commandOf f.m f.op q.a q.b with
    | some i => .ok i
    | none => .error .reservedOp

/-- The operand words of a command; a one-operand command's `b` is encoded as zero (R60). -/
def Instr.operands : Instr → Word × Word
  | .sin a | .cos a | .exp a | .erfU a | .erfS a | .sqrt a | .abs a | .floor a | .sq a => (a, 0)
  | .csgn a b | .hypot a b => (a, b)

/-- The request that asks for a command (R51, R53). -/
def encode (i : Instr) : Request :=
  { cmd := joinCommand i.fields, a := i.operands.1, b := i.operands.2 }

/-- The request as one 72-bit vector, `cmd` most significant (R51). -/
def Request.toVector (q : Request) : BitVec 72 := q.cmd ++ q.a ++ q.b

/-- The request whose bits are the number `w`: the command word is bits 7 to 0, as spec/opcode_table.json numbers
it, and the operand words follow above it (`a` bits 39 to 8, `b` bits 71 to 40). Bits from `nbits` up are zero. -/
def requestOfNat (nbits w : Nat) : Request :=
  let v := w % 2 ^ nbits
  { cmd := BitVec.ofNat 8 v, a := BitVec.ofNat 32 (v / 2 ^ 8), b := BitVec.ofNat 32 (v / 2 ^ 40) }

/-- What the decoder reads from an instruction whose bits are `w`. -/
def decodeTableWord (nbits w : Nat) : Option Instr :=
  match decode (requestOfNat nbits w) with
  | .ok i => some i
  | .error _ => none

end Sys2Proof
end

