-- ==== Sys2Proof/Machine/State.lean ====
section
/-! DEFINITION. The state of RMATH-FPE and its host: the two queues, which are the unit's only state (10_state.md R16, R21),
and, for the other agent of R10, what the host does next and what it has collected; State.reset; the reasons a step can
stop, of which there are none (60_exceptions.md R200). -/

namespace Sys2Proof.Machine

/-- The values the host drives on the unit's input ports in one of its turns (R19). -/
structure HostPorts where
  rst : Bool
  reqValid : Bool
  reqCmd : CommandWord
  reqA : Word
  reqB : Word
  rspReady : Bool
  deriving DecidableEq, Repr

/-- Which agent takes the next step (R10): the unit executes a command, or the host drives its ports. -/
inductive Turn where
  | unit
  | host (p : HostPorts)
  deriving DecidableEq, Repr

/-- The machine's state. `reqq` and `rspq` are the spec's (R16); `draws`, `schedule` and `collected` are the model's own
(notes/assumptions 3, 4, 6). -/
structure State where
  /-- `REQQ`: the requests accepted and not yet executed, oldest first (R16). -/
  reqq : List Request
  /-- `RSPQ`: the responses produced and not yet collected, oldest first (R16). -/
  rspq : List Response
  /-- The index of the next transaction's draw: how many the unit has answered. -/
  draws : Nat
  /-- The turns to come, the next one first; when it is empty the unit takes every turn. -/
  schedule : List Turn
  /-- The responses `host_collect` has returned to the host, oldest first. -/
  collected : List Response
  deriving DecidableEq, Repr

/-- The reasons the machine can stop with a fault: none. No command raises an exception, there is no trap and no
interrupt (60_exceptions.md R200, R202, R204), and an illegal command word is answered like any other request (R201). -/
inductive Fault where
  deriving DecidableEq, Repr

/-- The reasons an instruction can be refused. -/
inductive Refusal where
  /-- Would be raised by an arm of exec for a command without a meaning. Every command has its meaning, so nothing
  raises it. Safe: the machine would stop where the hardware goes on. -/
  | notModelled (mnemonic : String)
  deriving DecidableEq, Repr

/-- The machine right after reset (R21): both queues empty. The model's own fields: no draw used, no host turn to come,
nothing collected (notes/assumptions 3, 4, 6). -/
def State.reset : State := { reqq := [], rspq := [], draws := 0, schedule := [], collected := [] }

end Sys2Proof.Machine
end

