-- ==== Sys2Proof/Machine/Ops.lean ====
section
/-! DEFINITION. The named operations over the state: the field updates, answering a request, the host's steps of 10_state.md
R16, the ports of R19. There is no memory and no register to operate on (R11, 20_memory.md R30), and taking an exception
does not exist (60_exceptions.md R204): the one report, an illegal command word, is the answer State.answerIllegal. -/

namespace Sys2Proof.Machine

/-! ### Field updates -/

def State.withReqq (q : List Request) (s : State) : State := { s with reqq := q }
def State.withRspq (q : List Response) (s : State) : State := { s with rspq := q }
def State.withSchedule (t : List Turn) (s : State) : State := { s with schedule := t }
def State.withCollected (c : List Response) (s : State) : State := { s with collected := c }
def State.withDraws (n : Nat) (s : State) : State := { s with draws := n }

/-! ### Answering a request -/

/-- The draw of the transaction the unit is about to answer. -/
def State.draw (s : State) : Draw := Config.drawAt s.draws

/-- The response joins `RSPQ` at its end (R16) and the next transaction draws afresh (40_fp_numerics.md R86, R92). -/
def State.respond (p : Response) (s : State) : State := (s.withRspq (s.rspq ++ [p])).withDraws (s.draws + 1)

/-- The answer to a legal command: its result word, `ill = 0` (R18, 60_exceptions.md R200). -/
def State.answer (r : Word) (s : State) : State := s.respond { r := r, ill := false }

/-- The answer to an illegal command word: `ill = 1`, `UNSPEC32`, and nothing else (60_exceptions.md R201). -/
def State.answerIllegal (s : State) : State := s.respond { r := s.draw.unspec32, ill := true }

/-! ### Ports (R19) and the host's steps (R16) -/

/-- How many requests and responses the unit holds: `length(REQQ) + length(RSPQ)`. -/
def State.occupancy (s : State) : Nat := s.reqq.length + s.rspq.length

/-- `req_ready` of a unit of the given depth: it can accept a request. -/
def reqReady (depth : Nat) (s : State) : Bool := decide (s.occupancy < depth)

/-- `rsp_valid`: the unit offers a response. -/
def rspValid (s : State) : Bool := !s.rspq.isEmpty

/-- `rsp_r` and `rsp_ill`: the response offered; `none` while `rsp_valid = 0`, when both are unspecified and the host must
not read them (R21). -/
def rspPort (s : State) : Option Response := s.rspq.head?

/-- `host_issue(c, a, b)`; where it is not enabled nothing happens. -/
def hostIssue (depth : Nat) (q : Request) (s : State) : State :=
  if reqReady depth s then s.withReqq (s.reqq ++ [q]) else s

/-- `host_collect()`: the response returned is appended to the host's record; where it is not enabled nothing happens. -/
def hostCollect (s : State) : State :=
  match s.rspq with
  | [] => s
  | p :: rest => (s.withRspq rest).withCollected (s.collected ++ [p])

/-- `reset()`: both queues emptied; what was in them is dropped and never answered (R21, 70_reset_and_hazards.md R230). Power
loss has the same effect (60_exceptions.md R213). -/
def resetUnit (s : State) : State := (s.withReqq []).withRspq []

/-- The request on the ports. -/
def HostPorts.request (p : HostPorts) : Request := { cmd := p.reqCmd, a := p.reqA, b := p.reqB }

/-- A host's turn (R19): while `rst` is asserted the `reset()` step is taken; otherwise a request is issued when `req_valid`
and `req_ready` are both 1 and a response is collected when `rsp_valid` and `rsp_ready` are both 1. -/
def hostTurn (depth : Nat) (p : HostPorts) (s : State) : State :=
  if p.rst then resetUnit s
  else
    let s1 := if p.reqValid then hostIssue depth p.request s else s
    if p.rspReady then hostCollect s1 else s1

/-- Port values of a host that only issues the request `q`. -/
def HostPorts.issue (q : Request) : HostPorts :=
  { rst := false, reqValid := true, reqCmd := q.cmd, reqA := q.a, reqB := q.b, rspReady := false }

/-- Port values of a host that only collects. -/
def HostPorts.collect : HostPorts :=
  { rst := false, reqValid := false, reqCmd := 0, reqA := 0, reqB := 0, rspReady := true }

/-- Port values of a host that asserts `rst`. -/
def HostPorts.reset : HostPorts :=
  { rst := true, reqValid := false, reqCmd := 0, reqA := 0, reqB := 0, rspReady := false }

/-- The request `q` put at the head of `REQQ`, in place of the one that stood there, and the next turn given to the unit. -/
def placeRequest (q : Request) (s : State) : State :=
  (s.withReqq (q :: s.reqq.tail)).withSchedule (.unit :: s.schedule.tail)

end Sys2Proof.Machine
end

