-- ==== Sys2Proof/Machine/BitCommands.lean ====
section
/-! DEFINITION. The meanings of the BitOps commands (41_bitops.md): each answers its request with the
block's result word and `ill = 0`, reads no state but the transaction's draw, and writes none but the response. -/

namespace Sys2Proof.Machine

/-- `SQRT` (R114). -/
def execSqrt (a : Word) (s : State) : Host.Outcome State Fault Refusal :=
  .next (s.answer (sqrtOp s.draw a))

/-- `ABS` (R110). -/
def execAbs (a : Word) (s : State) : Host.Outcome State Fault Refusal :=
  .next (s.answer (absOp a))

/-- `CSGN` (R111). -/
def execCsgn (a b : Word) (s : State) : Host.Outcome State Fault Refusal :=
  .next (s.answer (csgnOp a b))

/-- `FLOOR` (R112, R113). -/
def execFloor (a : Word) (s : State) : Host.Outcome State Fault Refusal :=
  .next (s.answer (floorOp s.draw a))

/-- `HYPOT` (R115). -/
def execHypot (a b : Word) (s : State) : Host.Outcome State Fault Refusal :=
  .next (s.answer (hypotOp s.draw a b))

/-- `SQ` (R116). -/
def execSq (a : Word) (s : State) : Host.Outcome State Fault Refusal :=
  .next (s.answer (sqOp s.draw a))

end Sys2Proof.Machine
end

