-- ==== Sys2Proof/Machine/ErfCommands.lean ====
section
/-! DEFINITION. The meanings of the error-function commands (43_poly_kernels.md R146, R147): each answers its request with the
block's result word and `ill = 0`, reads no state but the transaction's draw, and writes none but the response. -/

namespace Sys2Proof.Machine

/-- `ERF.U` (R146). -/
def execErfU (a : Word) (s : State) : Host.Outcome State Fault Refusal :=
  .next (s.answer (erfUOp Config.coeffs s.draw a))

/-- `ERF.S` (R147). -/
def execErfS (a : Word) (s : State) : Host.Outcome State Fault Refusal :=
  .next (s.answer (erfSOp Config.coeffs s.draw a))

end Sys2Proof.Machine
end

