-- ==== Sys2Proof/Machine/ExpCommands.lean ====
section
/-! DEFINITION. The meanings of the exponential command (44_exp_engine.md R178): each answers its request with the
block's result word and `ill = 0`, reads no state but the transaction's draw, and writes none but the response. -/

namespace Sys2Proof.Machine

/-- `EXP` (R178). -/
def execExp (a : Word) (s : State) : Host.Outcome State Fault Refusal :=
  .next (s.answer (expOp Config.coeffs s.draw a))

end Sys2Proof.Machine
end

