-- ==== Sys2Proof/Machine/TrigCommands.lean ====
section
/-! DEFINITION. The meanings of the trigonometric commands (43_poly_kernels.md R142, R143): each answers its request with the
block's result word and `ill = 0`, reads no state but the transaction's draw, and writes none but the response. -/

namespace Sys2Proof.Machine

/-- `SIN` (R142). -/
def execSin (a : Word) (s : State) : Host.Outcome State Fault Refusal :=
  .next (s.answer (sinOp Config.coeffs s.draw a))

/-- `COS` (R143). -/
def execCos (a : Word) (s : State) : Host.Outcome State Fault Refusal :=
  .next (s.answer (cosOp Config.coeffs s.draw a))

end Sys2Proof.Machine
end

