-- ==== Sys2Proof/Machine/Dispatch.lean ====
section
/-! DEFINITION. One arm per command, each a call of its meaning. -/

namespace Sys2Proof.Machine

def exec (i : Instr) (s : State) : Host.Outcome State Fault Refusal :=
  match i with
  | .sin a => Sys2Proof.Machine.execSin a s
  | .cos a => Sys2Proof.Machine.execCos a s
  | .exp a => Sys2Proof.Machine.execExp a s
  | .erfU a => Sys2Proof.Machine.execErfU a s
  | .erfS a => Sys2Proof.Machine.execErfS a s
  | .sqrt a => Sys2Proof.Machine.execSqrt a s
  | .abs a => Sys2Proof.Machine.execAbs a s
  | .csgn a b => Sys2Proof.Machine.execCsgn a b s
  | .floor a => Sys2Proof.Machine.execFloor a s
  | .hypot a b => Sys2Proof.Machine.execHypot a b s
  | .sq a => Sys2Proof.Machine.execSq a s

end Sys2Proof.Machine
end

