-- ==== Sys2Proof/Machine/Unit.lean ====
section
/-! DEFINITION. The unit's step `unit_exec` (10_state.md R16): the head of `REQQ` is taken, decoded and executed; and whose
turn it is (R10). -/

namespace Sys2Proof.Machine

/-- `unit_exec(draw)` (R16, R18). With `REQQ` empty it is not enabled and nothing happens; a legal command runs its meaning on
the state without the request; an illegal command word is answered by State.answerIllegal (60_exceptions.md R201). -/
def unitExec (s : State) : Host.Outcome State Fault Refusal :=
  match s.reqq with
  | [] => .next s
  | q :: rest =>
    match decode q with
    | .ok i => exec i (s.withReqq rest)
    | .error _ => .next (s.withReqq rest).answerIllegal

/-- The next turn of the schedule is taken by its agent; with no turn scheduled the unit goes on serving `REQQ`, so that a
request is always executed in the end (70_reset_and_hazards.md R236, fairness). -/
def takeTurn (s : State) : Host.Outcome State Fault Refusal :=
  match s.schedule with
  | [] => unitExec s
  | .unit :: rest => unitExec (s.withSchedule rest)
  | .host p :: rest => .next (hostTurn Config.qdepth p (s.withSchedule rest))

end Sys2Proof.Machine
end

