-- ==== Sys2Proof/Machine/Step.lean ====
section
/-! DEFINITION. One step of the machine, and the placing of an instruction where the next step takes it from. -/

namespace Sys2Proof.Machine

/-- One step: the turn that comes next (10_state.md R10, R16). -/
def step (s : State) : Host.Outcome State Fault Refusal := takeTurn s

/-- The state with the instruction whose bits are `w` at the head of `REQQ` and the next turn the unit's. -/
def State.withFetchWord (s : State) (nbits w : Nat) : State := placeRequest (requestOfNat nbits w) s

end Sys2Proof.Machine
end

