-- ==== Sys2Proof/Machine/Flags.lean ====
section
/-! DEFINITION. The one status bit the unit produces, `rsp.ill` (10_state.md R13, 60_exceptions.md R201). There are no flags,
condition codes or IEEE-754 exception flags as state, and no command reports any (R13, 40_fp_numerics.md R87). -/

namespace Sys2Proof.Machine

/-- `rsp.ill` of the response to a request: computed from that request's own command word, 1 when it fails the decode
(R201), 0 for every legal command on every pair of operand words (R200). -/
def illBit (q : Request) : Bool :=
  match decode q with
  | .ok _ => false
  | .error _ => true

end Sys2Proof.Machine
end

