-- ==== Sys2Proof/Machine/Transaction.lean ====
section
/-! DEFINITION. The transaction function `EXEC` of 10_state.md R18 as a function of the ROM contents (R20), the draw and the
request alone, and several lanes of it (40_fp_numerics.md R91). Laws/Unit.lean proves that the step that runs the
instruction's meaning answers with it. -/

namespace Sys2Proof.Machine

/-- `OP_c(a, b)`: the result word of a legal command (R18). -/
def opResult (k : Coeffs) (d : Draw) : Instr → Word
  | .sin a => sinOp k d a
  | .cos a => cosOp k d a
  | .exp a => expOp k d a
  | .erfU a => erfUOp k d a
  | .erfS a => erfSOp k d a
  | .sqrt a => sqrtOp d a
  | .abs a => absOp a
  | .csgn a b => csgnOp a b
  | .floor a => floorOp d a
  | .hypot a b => hypotOp d a b
  | .sq a => sqOp d a

/-- `EXEC(c, a, b, draw)` (R18). -/
def transaction (k : Coeffs) (d : Draw) (q : Request) : Response :=
  { r := match decode q with
      | .ok i => opResult k d i
      | .error _ => d.unspec32
    ill := illBit q }

/-- Several lanes or instances: independent copies of `EXEC`, one element each, sharing the ROM contents and nothing else
(40_fp_numerics.md R91, 60_exceptions.md R211). -/
def laneTransactions (k : Coeffs) (lanes : List (Draw × Request)) : List Response :=
  lanes.map fun l => transaction k l.1 l.2

end Sys2Proof.Machine
end

