-- ==== Sys2Proof/Safety.lean ====
section
/-! DEFINITION. What counts as a safe step, and the invariant of 10_state.md R16 on the queues, in the terms claims use. -/

namespace Sys2Proof

open Sys2Proof.Machine

/-- A step is safe when the machine goes on: no fault and no refusal (60_exceptions.md R200, R201: nothing hangs, faults or is
left pending). -/
def Safe (o : Host.Outcome State Fault Refusal) : Prop := ∃ t, o = .next t

/-- `length(REQQ) + length(RSPQ) <= QDEPTH` (R16). -/
def Machine.State.QueuesFit (s : State) : Prop := s.occupancy ≤ Config.qdepth

end Sys2Proof
end

