-- ==== Sys2Proof/Certificates/Slice0/Obligations.lean ====
section
/-! DEFINITION. The statements about the machine, each from a numbered rule of spec/ or derived from its sections
(OBLIGATIONS.json says which), and the few notions they share. -/

namespace Sys2Proof.Claims

open Sys2Proof.Machine

/-- `exec` completes the command with result word `r`: the response `(r, ill = 0)` joins `RSPQ`, the next transaction draws
afresh, and everything else in the state is as it was. -/
def Answers (i : Instr) (s : State) (r : Word) : Prop :=
  exec i s = .next { s with rspq := s.rspq ++ [{ r := r, ill := false }], draws := s.draws + 1 }

/-- The rows of 30_encoding.md R53: command word, fields, command. -/
def commandTable : List (CommandWord × CommandFields × (Word → Word → Instr)) :=
  [ (0x00#8, ⟨0b000#3, 0#1, 0x0#4⟩, fun a _ => .sin a),
    (0x01#8, ⟨0b000#3, 0#1, 0x1#4⟩, fun a _ => .cos a),
    (0x02#8, ⟨0b000#3, 0#1, 0x2#4⟩, fun a _ => .exp a),
    (0x03#8, ⟨0b000#3, 0#1, 0x3#4⟩, fun a _ => .erfU a),
    (0x13#8, ⟨0b000#3, 1#1, 0x3#4⟩, fun a _ => .erfS a),
    (0x04#8, ⟨0b000#3, 0#1, 0x4#4⟩, fun a _ => .sqrt a),
    (0x05#8, ⟨0b000#3, 0#1, 0x5#4⟩, fun a _ => .abs a),
    (0x06#8, ⟨0b000#3, 0#1, 0x6#4⟩, fun a b => .csgn a b),
    (0x07#8, ⟨0b000#3, 0#1, 0x7#4⟩, fun a _ => .floor a),
    (0x08#8, ⟨0b000#3, 0#1, 0x8#4⟩, fun a b => .hypot a b),
    (0x09#8, ⟨0b000#3, 0#1, 0x9#4⟩, fun a _ => .sq a) ]

/-- The eleven legal command words (R53). -/
def legalWords : List CommandWord := commandTable.map fun r => r.1

/-- `r` is `RN_32(v)` for the real `v ≠ 0` (40_fp_numerics.md R76): it has the sign of `v`; below the overflow bound it is finite, no
finite word is nearer, and when another is as near its significand is even; from the bound on it is the infinity. -/
def RoundsTo32 (v : ℝ) (r : Word) : Prop :=
  (sign32 r = true ↔ v < 0) ∧
  (|v| < 2 ^ 128 - 2 ^ 103 → isFinite32 r = true ∧ ∀ w : Word, isFinite32 w = true →
    |v - val32 r| ≤ |v - val32 w| ∧
      (val32 w ≠ val32 r → |v - val32 w| = |v - val32 r| → (frac32 r).toNat % 2 = 0)) ∧
  (2 ^ 128 - 2 ^ 103 ≤ |v| → isInf32 r = true)

/-- `r` is `RN_64(v)` for the real `v ≠ 0` (R76). -/
def RoundsTo64 (v : ℝ) (r : DWord) : Prop :=
  (sign64 r = true ↔ v < 0) ∧
  (|v| < 2 ^ 1024 - 2 ^ 970 → isFinite64 r = true ∧ ∀ w : DWord, isFinite64 w = true →
    |v - val64 r| ≤ |v - val64 w| ∧
      (val64 w ≠ val64 r → |v - val64 w| = |v - val64 r| → (frac64 r).toNat % 2 = 0)) ∧
  (2 ^ 1024 - 2 ^ 970 ≤ |v| → isInf64 r = true)

/-- The extended real a word that is no NaN stands for (R81). -/
noncomputable def extended32 (w : Word) : EReal :=
  if isInf32 w = true then (if sign32 w = true then ⊥ else ⊤) else ((val32 w : ℝ) : EReal)

end Sys2Proof.Claims

open Sys2Proof Sys2Proof.Machine Sys2Proof.Claims

/-! ### Encoding -/

/-- R53: the eleven rows decode to their commands with the operands the table names, and no other word is legal. -/
def Obligations.CommandWordsDecodeAsTabled : Prop :=
  (∀ r ∈ commandTable, splitCommand r.1 = r.2.1 ∧ ∀ a b : Word, decode ⟨r.1, a, b⟩ = .ok (r.2.2 a b)) ∧
  ∀ q : Request, (∃ i, decode q = .ok i) ↔ q.cmd ∈ legalWords

/-- A few command words written out bit by bit from R50's format and R53's map, one of every family. That a number's bits above
the command word are the operands, `a` in bits 39 to 8 and `b` in bits 71 to 40, and zero in a bare word, is the model's choice
(notes/assumptions 13). -/
def Obligations.SampleWordsDecode : Prop :=
  decodeTableWord 8 0b00000000 = some (.sin 0) ∧ decodeTableWord 8 0b00000001 = some (.cos 0) ∧
  decodeTableWord 8 0b00000010 = some (.exp 0) ∧ decodeTableWord 8 0b00000011 = some (.erfU 0) ∧
  decodeTableWord 8 0b00010011 = some (.erfS 0) ∧ decodeTableWord 8 0b00000111 = some (.floor 0) ∧
  decodeTableWord 72 0x80000000_3FC00000_06 = some (.csgn 0x3FC00000#32 0x80000000#32) ∧
  decodeTableWord 8 0b00010101 = none ∧ decodeTableWord 8 0b00100011 = none ∧ decodeTableWord 8 0b00001010 = none

/-- 30_encoding.md section 3: the 245 illegal words, in R57's three groups of 224, 15 and 6, each rejected by its own name. The
names are the model's choice (notes/assumptions 17). -/
def Obligations.IllegalWordsRejectedByName : Prop :=
  (∀ q : Request,
    ((splitCommand q.cmd).rsv ≠ 0 → decode q = .error .reservedBits) ∧
    ((splitCommand q.cmd).rsv = 0 → (splitCommand q.cmd).m = 1 → (splitCommand q.cmd).op ≠ 0x3 →
      decode q = .error .modeBit) ∧
    (q.cmd ∈ [0x0A#8, 0x0B#8, 0x0C#8, 0x0D#8, 0x0E#8, 0x0F#8] → decode q = .error .reservedOp)) ∧
  ((List.range 256).filter fun n => (splitCommand (BitVec.ofNat 8 n)).rsv != 0).length = 224 ∧
  ((List.range 256).filter fun n => (splitCommand (BitVec.ofNat 8 n)).rsv == 0 &&
    (splitCommand (BitVec.ofNat 8 n)).m == 1 && (splitCommand (BitVec.ofNat 8 n)).op != 0x3).length = 15 ∧
  ((List.range 256).filter fun n => !legalWords.contains (BitVec.ofNat 8 n)).length = 245

/-- R56: the nine one-operand commands ignore `b`. -/
def Obligations.OneOperandCommandsIgnoreB : Prop :=
  ∀ (k : Coeffs) (d : Draw) (a b b' : Word),
    ∀ c ∈ [0x00#8, 0x01#8, 0x02#8, 0x03#8, 0x13#8, 0x04#8, 0x05#8, 0x07#8, 0x09#8],
      transaction k d ⟨c, a, b⟩ = transaction k d ⟨c, a, b'⟩

/-- 30_encoding.md sections 1 and 2: every command, with every operand, is what the decoder reads from its encoding. -/
def Obligations.DecodeOfEncodeIsIdentity : Prop :=
  ∀ i : Instr, i.wellFormed = true ∧ decode (encode i) = .ok i

/-- The other direction: the encoding of what the decoder reads is the request, but for the `b` of a one-operand command. -/
def Obligations.EncodeOfDecodeIsIdentity : Prop :=
  ∀ (q : Request) (i : Instr), decode q = .ok i →
    (encode i).cmd = q.cmd ∧ (encode i).a = q.a ∧
    (q.cmd = 0x06#8 ∨ q.cmd = 0x08#8 → (encode i).b = q.b) ∧
    (q.cmd ≠ 0x06#8 → q.cmd ≠ 0x08#8 → (encode i).b = 0)

/-! ### The machine's step -/

/-- 10_state.md section 3: when it is the unit's turn and the head of `REQQ` decodes to `i`, the step is `exec` of `i` on the state
without that request and without that turn (whose turn it is: notes/assumptions 4). -/
def Obligations.StepRunsDecodedCommand : Prop :=
  ∀ (s : State) (q : Request) (rest : List Request) (i : Instr), s.reqq = q :: rest → decode q = .ok i →
    (s.schedule = [] → step s = exec i { s with reqq := rest }) ∧
    (∀ ts, s.schedule = .unit :: ts → step s = exec i { s with reqq := rest, schedule := ts })

/-- The interface's placing of an instruction (the model's choice, notes/assumptions 10): the very next step runs it. -/
def Obligations.PlacedWordRunsNext : Prop :=
  ∀ (s : State) (nbits w : Nat) (i : Instr), decodeTableWord nbits w = some i →
    step (s.withFetchWord nbits w) = exec i { s with reqq := s.reqq.tail, schedule := s.schedule.tail }

/-- R18: `EXEC` answers an illegal command word with `ill = 1` and `UNSPEC32`, a legal one with `ill = 0` and `OP_c(a, b)`; the
unit's step answers the head of `REQQ` with it and does nothing else (the unit's step with no turn scheduled:
notes/assumptions 4). -/
def Obligations.StepAnswersWithTransaction : Prop :=
  (∀ (k : Coeffs) (d : Draw) (q : Request),
    (∀ i, decode q = .ok i → transaction k d q = { r := opResult k d i, ill := false }) ∧
    (q.cmd ∉ legalWords → transaction k d q = { r := d.unspec32, ill := true })) ∧
  ∀ (s : State) (q : Request) (rest : List Request), s.schedule = [] → s.reqq = q :: rest →
    step s = .next { s with
      reqq := rest
      rspq := s.rspq ++ [transaction Config.coeffs (Config.drawAt s.draws) q]
      draws := s.draws + 1 }

/-- R201: the illegal-command report is a field of that request's own response; no other state is set, so the next request is
decoded afresh; the operands do not matter. Whose turn it is and the draw's index are the model's own
(notes/assumptions 3, 4). -/
def Obligations.IllegalCommandReported : Prop :=
  ∀ (s : State) (c : CommandWord) (a b : Word) (rest : List Request), c ∉ legalWords → s.reqq = ⟨c, a, b⟩ :: rest →
    (s.schedule = [] → step s = .next { s with
      reqq := rest
      rspq := s.rspq ++ [{ r := Config.unspec32 s.draws, ill := true }]
      draws := s.draws + 1 }) ∧
    (∀ ts, s.schedule = .unit :: ts → step s = .next { s with
      reqq := rest
      rspq := s.rspq ++ [{ r := Config.unspec32 s.draws, ill := true }]
      draws := s.draws + 1
      schedule := ts })

/-- 60_exceptions.md section 1: every command, on every operand word and in every state, answers once with `ill = 0` and leaves
the rest of the state as it was (the frame of all eleven). -/
def Obligations.EveryCommandAnswersOnce : Prop :=
  ∀ (i : Instr) (s : State), ∃ r : Word, Answers i s r

/-- 60_exceptions.md: nothing faults, traps or is refused, whatever the state. -/
def Obligations.StepNeverStops : Prop :=
  ∀ s : State, Safe (step s)

/-- 20_memory.md R38: the response depends on the request and the draw, not on the other requests, the earlier responses or
what the host does (the unit's step with no turn scheduled: notes/assumptions 4). -/
def Obligations.ResponseDependsOnRequestAndDraw : Prop :=
  ∀ (s t : State) (q : Request) (rest rest' : List Request), s.schedule = [] → t.schedule = [] →
    s.reqq = q :: rest → t.reqq = q :: rest' → s.draws = t.draws →
    ∃ (p : Response) (s' t' : State), step s = .next s' ∧ step t = .next t' ∧
      s'.rspq = s.rspq ++ [p] ∧ t'.rspq = t.rspq ++ [p]

/-- 70_reset_and_hazards.md R235 and 10_state.md R16: with the host silent, as many steps as there are requests answer them all,
in the order they were accepted, each with its own transaction. That the unit takes every step once no turn is scheduled is the
model's choice (notes/assumptions 4). -/
def Obligations.UnitDrainsInOrder : Prop :=
  ∀ s : State, s.schedule = [] →
    Host.Core.run core s.reqq.length s = .next { s with
      reqq := []
      rspq := s.rspq ++ s.reqq.mapIdx fun j q => transaction Config.coeffs (Config.drawAt (s.draws + j)) q
      draws := s.draws + s.reqq.length }

/-! ### The queues, the host and reset -/

/-- 10_state.md R16: `length(REQQ) + length(RSPQ) <= QDEPTH` is kept by every step. -/
def Obligations.QueuesFitKeptByStep : Prop :=
  ∀ s t : State, s.QueuesFit → step s = .next t → t.QueuesFit

/-- The invariant holds after reset. -/
def Obligations.QueuesFitAtReset : Prop := State.reset.QueuesFit

/-- 10_state.md R21: after reset both queues are empty, the unit is ready and offers no response; asserting `rst` empties both queues in
every state, whatever else the host drives. That both handshakes are ignored while `rst` is asserted is notes/assumptions 7, that
the host's record is kept is 6, that a turn of the schedule is taken is 4. -/
def Obligations.ResetEmptiesQueues : Prop :=
  State.reset.reqq = [] ∧ State.reset.rspq = [] ∧
  reqReady Config.qdepth State.reset = true ∧ rspValid State.reset = false ∧ rspPort State.reset = none ∧
  ∀ (s : State) (p : HostPorts) (ts : List Turn), s.schedule = .host p :: ts → p.rst = true →
    ∃ t : State, step s = .next t ∧ t = { s with reqq := [], rspq := [], schedule := ts } ∧
      reqReady Config.qdepth t = true ∧ rspValid t = false

/-- 10_state.md R16, the machine's steps, each where it is enabled and where it is not. That a step which is not enabled passes
the turn and changes nothing else is notes/assumptions 5; that `host_collect` records what it returns is 6. -/
def Obligations.MachineStepsAsTabled : Prop :=
  1 ≤ Config.qdepth ∧
  ∀ (s : State) (ts : List Turn),
    (∀ q : Request, s.schedule = .host (HostPorts.issue q) :: ts →
      (s.reqq.length + s.rspq.length < Config.qdepth →
        step s = .next { s with reqq := s.reqq ++ [q], schedule := ts }) ∧
      (Config.qdepth ≤ s.reqq.length + s.rspq.length → step s = .next { s with schedule := ts })) ∧
    (s.schedule = .unit :: ts →
      (s.reqq = [] → step s = .next { s with schedule := ts }) ∧
      (∀ q rest, s.reqq = q :: rest → step s = .next { s with
        reqq := rest
        rspq := s.rspq ++ [transaction Config.coeffs (Config.drawAt s.draws) q]
        draws := s.draws + 1
        schedule := ts })) ∧
    (s.schedule = .host HostPorts.collect :: ts →
      (s.rspq = [] → step s = .next { s with schedule := ts }) ∧
      (∀ p rest, s.rspq = p :: rest →
        step s = .next { s with rspq := rest, collected := s.collected ++ [p], schedule := ts })) ∧
    (s.schedule = .host HostPorts.reset :: ts → step s = .next { s with reqq := [], rspq := [], schedule := ts })

/-- 10_state.md R19: in a host's turn without `rst` a request is issued when `req_valid` and `req_ready` are both 1, and a response
is collected when `rsp_valid` and `rsp_ready` are both 1; both may happen in one turn (notes/assumptions 7). -/
def Obligations.PortHandshakes : Prop :=
  ∀ (s : State) (p : HostPorts) (ts : List Turn), s.schedule = .host p :: ts → p.rst = false →
    ∃ t : State, step s = .next t ∧ t.schedule = ts ∧ t.draws = s.draws ∧
      t.reqq = (if p.reqValid && reqReady Config.qdepth s then s.reqq ++ [⟨p.reqCmd, p.reqA, p.reqB⟩] else s.reqq) ∧
      t.rspq = (if p.rspReady && rspValid s then s.rspq.tail else s.rspq) ∧
      t.collected = (if p.rspReady && rspValid s then s.collected ++ (rspPort s).toList else s.collected)

/-! ### BitOps -/

/-- R110: `ABS`, word `0x05`, clears the sign bit of every word and touches nothing else of it. -/
def Obligations.AbsClearsSign : Prop :=
  ∀ (a b : Word) (s : State), decode ⟨0x05#8, a, b⟩ = .ok (.abs a) ∧ Answers (.abs a) s (a &&& 0x7FFFFFFF#32) ∧
    sign32 (absOp a) = false ∧ exp32 (absOp a) = exp32 a ∧ frac32 (absOp a) = frac32 a ∧
    absOp (absOp a) = absOp a ∧ absOp a = absOp (a ^^^ 0x80000000#32)

/-- R111: `CSGN`, word `0x06`, takes the magnitude bits of `a` and the sign bit of `b`, on every pair of words. -/
def Obligations.CsgnTakesSign : Prop :=
  ∀ (a b : Word) (s : State), decode ⟨0x06#8, a, b⟩ = .ok (.csgn a b) ∧
    Answers (.csgn a b) s ((a &&& 0x7FFFFFFF#32) ||| (b &&& 0x80000000#32)) ∧
    sign32 (csgnOp a b) = sign32 b ∧ exp32 (csgnOp a b) = exp32 a ∧ frac32 (csgnOp a b) = frac32 a ∧
    csgnOp a a = a ∧ csgnOp a 0 = absOp a ∧ csgnOp (absOp a) b = csgnOp a b

/-- R112: `FLOOR`, word `0x07`, inside the domain: the mathematical floor, a zero result `+0`, an operand that holds an integer
returned unless it is `-0`; outside the domain `UNSPEC32`. -/
def Obligations.FloorIsMathematicalFloor : Prop :=
  ∀ (a b : Word) (s : State), decode ⟨0x07#8, a, b⟩ = .ok (.floor a) ∧
    (isFinite32 a = true → -2147483648 ≤ val32 a → val32 a ≤ 2147483520 →
      ∃ r : Word, Answers (.floor a) s r ∧ isFinite32 r = true ∧ val32 r = ⌊val32 a⌋ ∧
        (val32 r = 0 → r = 0x00000000#32) ∧ (val32 a = ⌊val32 a⌋ → a ≠ 0x80000000#32 → r = a)) ∧
    (¬(isFinite32 a = true ∧ -2147483648 ≤ val32 a ∧ val32 a ≤ 2147483520) →
      Answers (.floor a) s (Config.unspec32 s.draws))

/-- R113: the operands outside `FLOOR`'s domain, by class, by value and by word, and their answer: delivered, `ill = 0`,
`UNSPEC32`. -/
def Obligations.FloorOutsideDomain : Prop :=
  (∀ a : Word, isFinite32 a = true →
    (2 ^ 31 ≤ val32 a ↔ 0x4F000000#32 ≤ a ∧ a ≤ 0x7F7FFFFF#32) ∧
    (val32 a < -2 ^ 31 ↔ 0xCF000001#32 ≤ a ∧ a ≤ 0xFF7FFFFF#32)) ∧
  ∀ (a : Word) (s : State),
    isNaN32 a = true ∨ a = 0x7F800000#32 ∨ a = 0xFF800000#32 ∨ (0x4F000000#32 ≤ a ∧ a ≤ 0x7F7FFFFF#32) ∨
      (0xCF000001#32 ≤ a ∧ a ≤ 0xFF7FFFFF#32) →
    Answers (.floor a) s (Config.unspec32 s.draws)

/-- R80, R114: `SQRT`, word `0x04`: zeros keep their sign, `+inf` gives `+inf`, NaNs and other negative operands give a NaN, every
other operand the correctly rounded root, a positive normal. -/
def Obligations.SqrtCorrectlyRounded : Prop :=
  ∀ (a b : Word) (s : State), decode ⟨0x04#8, a, b⟩ = .ok (.sqrt a) ∧
    (isZero32 a = true ∨ a = 0x7F800000#32 → Answers (.sqrt a) s a) ∧
    (isNaN32 a = true ∨ (sign32 a = true ∧ isZero32 a = false) →
      ∃ r : Word, Answers (.sqrt a) s r ∧ isNaN32 r = true) ∧
    (isFinite32 a = true → sign32 a = false → isZero32 a = false →
      ∃ r : Word, Answers (.sqrt a) s r ∧ isNormal32 r = true ∧ sign32 r = false ∧ RoundsTo32 (√(val32 a : ℝ)) r)

/-- R116: `SQ`, word `0x09`: one binary32 multiplication; a NaN gives a NaN, every other result has sign bit 0, overflow from
`2^64` on gives `+inf`, and a finite non-zero operand gives the rounded square. -/
def Obligations.SqIsRoundedSquare : Prop :=
  ∀ (a b : Word) (s : State), decode ⟨0x09#8, a, b⟩ = .ok (.sq a) ∧
    Answers (.sq a) s (fmul32 (Config.drawAt s.draws) a a) ∧
    ∀ d : Draw, (isNaN32 a = true → isNaN32 (fmul32 d a a) = true) ∧
      (isNaN32 a = false → sign32 (fmul32 d a a) = false) ∧
      (isNaN32 a = false → 0x5F800000#32 ≤ mag32 a → fmul32 d a a = 0x7F800000#32) ∧
      (isZero32 a = true → fmul32 d a a = 0x00000000#32) ∧
      (isFinite32 a = true → isZero32 a = false → RoundsTo32 ((val32 a : ℝ) * val32 a) (fmul32 d a a))

/-- 41_bitops.md R115: `HYPOT`, word `0x08`: the four roundings in order; the result does not depend on the operands' signs, a NaN
operand gives a NaN, an infinite operand with a partner that is no NaN gives `+inf`, no other result has its sign bit set. -/
def Obligations.HypotFourRoundings : Prop :=
  ∀ (a b : Word) (s : State), decode ⟨0x08#8, a, b⟩ = .ok (.hypot a b) ∧
    (let d := Config.drawAt s.draws
     Answers (.hypot a b) s (fsqrt32 d (fadd32 d (fmul32 d a a) (fmul32 d b b)))) ∧
    ∀ d : Draw, hypotOp d (flipSign32 a) b = hypotOp d a b ∧ hypotOp d a (flipSign32 b) = hypotOp d a b ∧
      (isNaN32 a = true ∨ isNaN32 b = true → isNaN32 (hypotOp d a b) = true) ∧
      (isNaN32 a = false → isNaN32 b = false → isInf32 a = true ∨ isInf32 b = true → hypotOp d a b = 0x7F800000#32) ∧
      (isNaN32 a = false → isNaN32 b = false → isNaN32 (hypotOp d a b) = false ∧ sign32 (hypotOp d a b) = false)

/-! ### Range reduction, sine and cosine -/

/-- 43_poly_kernels.md R142 with 42_range_reducer.md R130: `SIN`, word `0x00`, operation by operation. -/
def Obligations.SinOperationByOperation : Prop :=
  ∀ (a b : Word) (s : State), decode ⟨0x00#8, a, b⟩ = .ok (.sin a) ∧
    (let d := Config.drawAt s.draws
     let c := Config.coeffs.sinC
     let t2 := fadd32 d (fmul32 d a 0x3E22F983#32) 0x3F000000#32
     (f2i t2 = none → Answers (.sin a) s (Config.unspec32 s.draws)) ∧
     (∀ t, f2i t2 = some t →
       let n := if fgt32 (i2f d t) t2 then fsub32 d (i2f d t) 0x3F800000#32 else i2f d t
       let x := fsub32 d a (fmul32 d n 0x40C90FDB#32)
       let u := fmul32 d x x
       let p4 := fadd32 d (fmul32 d c.c5 u) c.c4
       let p3 := fadd32 d (fmul32 d p4 u) c.c3
       let p2 := fadd32 d (fmul32 d p3 u) c.c2
       let p1 := fadd32 d (fmul32 d p2 u) c.c1
       let p0 := fadd32 d (fmul32 d p1 u) c.c0
       Answers (.sin a) s (fmul32 d p0 x)))

/-- 43_poly_kernels.md R143 with 42_range_reducer.md R130: `COS`, word `0x01`, operation by operation. -/
def Obligations.CosOperationByOperation : Prop :=
  ∀ (a b : Word) (s : State), decode ⟨0x01#8, a, b⟩ = .ok (.cos a) ∧
    (let d := Config.drawAt s.draws
     let c := Config.coeffs.cosC
     let t2 := fadd32 d (fmul32 d a 0x3E22F983#32) 0x3F000000#32
     (f2i t2 = none → Answers (.cos a) s (Config.unspec32 s.draws)) ∧
     (∀ t, f2i t2 = some t →
       let n := if fgt32 (i2f d t) t2 then fsub32 d (i2f d t) 0x3F800000#32 else i2f d t
       let x := fsub32 d a (fmul32 d n 0x40C90FDB#32)
       let u := fmul32 d x x
       let p4 := fadd32 d (fmul32 d c.c5 u) c.c4
       let p3 := fadd32 d (fmul32 d p4 u) c.c3
       let p2 := fadd32 d (fmul32 d p3 u) c.c2
       let p1 := fadd32 d (fmul32 d p2 u) c.c1
       Answers (.cos a) s (fadd32 d (fmul32 d p1 u) c.c0)))

/-- R131: the domain of `REDUCE`, by its quotient and by the operand's value, and the answer of `SIN` and `COS` outside it. -/
def Obligations.ReduceDomainExact : Prop :=
  (∀ (d : Draw) (x : Word),
    ((reduce d x).isSome = true ↔ isFinite32 (reduceQuotient d x) = true ∧
      -2 ^ 31 ≤ val32 (reduceQuotient d x) ∧ val32 (reduceQuotient d x) ≤ 2 ^ 31 - 128) ∧
    ((reduce d x).isSome = true ↔ isFinite32 x = true ∧ -13493038080 ≤ val32 x ∧ val32 x ≤ 13493037056)) ∧
  val32 0xD0490FDB#32 = -13493038080 ∧ val32 0x50490FDA#32 = 13493037056 ∧
  ∀ (x : Word) (s : State), ¬(isFinite32 x = true ∧ -13493038080 ≤ val32 x ∧ val32 x ≤ 13493037056) →
    Answers (.sin x) s (Config.unspec32 s.draws) ∧ Answers (.cos x) s (Config.unspec32 s.draws)

/-- 42_range_reducer.md R132 (c): on the identity range the reduced argument is the operand, bit for bit. -/
def Obligations.ReduceIdentityRange : Prop :=
  ∀ (d : Draw) (x : Word), isFinite32 x = true → val32 0xC0490FDB#32 ≤ val32 x → val32 x ≤ val32 0x40490FD9#32 →
    reduce d x = some x

/-- 43_poly_kernels.md R142, R143, R151: at a zero operand `COS` gives the word 1.0 and `SIN` a zero whose sign is that of
`SIN_C[0]` times the operand's, for every admissible configuration. -/
def Obligations.TrigAtZero : Prop :=
  ∀ (a : Word) (s : State), isZero32 a = true → Answers (.cos a) s 0x3F800000#32 ∧
    ∃ r : Word, Answers (.sin a) s r ∧ isZero32 r = true ∧
      sign32 r = (sign32 Config.coeffs.sinC.c0 ^^ sign32 a)

/-! ### The error function -/

/-- 43_poly_kernels.md R144 to R146: `ERF.U`, word `0x03`, operation by operation. The sign of the NaN it gives for a NaN operand
is notes/assumptions 2. -/
def Obligations.ErfUnsortedOperationByOperation : Prop :=
  ∀ (a b : Word) (s : State), decode ⟨0x03#8, a, b⟩ = .ok (.erfU a) ∧
    (let d := Config.drawAt s.draws
     let c := Config.coeffs.erfC
     let u := a &&& 0x7FFFFFFF#32
     let p5 := fadd32 d (fmul32 d c.c6 u) c.c5
     let p4 := fadd32 d (fmul32 d p5 u) c.c4
     let p3 := fadd32 d (fmul32 d p4 u) c.c3
     let p2 := fadd32 d (fmul32 d p3 u) c.c2
     let p1 := fadd32 d (fmul32 d p2 u) c.c1
     let y := fadd32 d (fmul32 d p1 u) c.c0
     let y2 := fmul32 d y y
     let y4 := fmul32 d y2 y2
     let y8 := fmul32 d y4 y4
     let m := fsub32 d 0x3F800000#32 (fdiv32 d 0x3F800000#32 y8)
     Answers (.erfU a) s ((m &&& 0x7FFFFFFF#32) ||| (a &&& 0x80000000#32)))

/-- 43_poly_kernels.md R147: `ERF.S`, word `0x13`: the arm for `a > 0`, and the arm for every other word, zeros and NaNs
included. -/
def Obligations.ErfSortedTwoArms : Prop :=
  ∀ (a b : Word) (s : State), decode ⟨0x13#8, a, b⟩ = .ok (.erfS a) ∧
    (let d := Config.drawAt s.draws
     let c := Config.coeffs.erfC
     (isNaN32 a = false → isZero32 a = false → sign32 a = false → Answers (.erfS a) s (erfMag c d a)) ∧
     (isNaN32 a = true ∨ isZero32 a = true ∨ sign32 a = true →
       Answers (.erfS a) s (erfMag c d (a ^^^ 0x80000000#32) ^^^ 0x80000000#32)))

/-- 43_poly_kernels.md R148: the two strategies give one word exactly when the magnitude's sign bit is clear; at `+0` they differ in
the sign of zero; for a NaN both give a NaN. -/
def Obligations.ErfStrategiesAgreeIff : Prop :=
  ∀ (k : Coeffs) (d : Draw) (a : Word),
    (isNaN32 a = false → a ≠ 0 →
      (erfUOp k d a = erfSOp k d a ↔ sign32 (erfMag k.erfC d (a &&& 0x7FFFFFFF#32)) = false)) ∧
    (k.fixedConstraints = true → erfUOp k d 0#32 = 0x00000000#32 ∧ erfSOp k d 0#32 = 0x80000000#32) ∧
    (isNaN32 a = true → isNaN32 (erfUOp k d a) = true ∧ isNaN32 (erfSOp k d a) = true)

/-- 43_poly_kernels.md R148 with R151 (f): on the magnitudes a configuration is used on, the two strategies give one word for every
operand that is neither a NaN nor `+0`; so they do in this unit, whose words in use take in those of the source's properties. That
(f) says nothing of a NaN magnitude is notes/assumptions 8. -/
def Obligations.ErfModesAgreeWhereUsed : Prop :=
  (∀ (k : Coeffs) (used : List Word), k.modesAgreeOn used = true → ∀ (d : Draw) (a : Word),
    mag32 a ∈ used → isNaN32 a = false → a ≠ 0 → erfUOp k d a = erfSOp k d a) ∧
  ∀ (a : Word) (s : State), mag32 a ∈ Config.erfWords → isNaN32 a = false → a ≠ 0 →
    ∃ r : Word, Answers (.erfU a) s r ∧ Answers (.erfS a) s r

/-- R8, R151, R181: what an admissible configuration meets, with every draw, and that this unit's configuration is one. The
set of words in use, and that (f) says nothing of a NaN among them, are notes/assumptions 8. -/
def Obligations.ConfigurationMeetsConstraints : Prop :=
  (∀ (k : Coeffs) (used : List Word), k.admissible used = true →
    ((∀ w ∈ [k.sinC.c0, k.sinC.c1, k.sinC.c2, k.sinC.c3, k.sinC.c4, k.sinC.c5, k.cosC.c0, k.cosC.c1, k.cosC.c2, k.cosC.c3,
        k.cosC.c4, k.cosC.c5, k.erfC.c0, k.erfC.c1, k.erfC.c2, k.erfC.c3, k.erfC.c4, k.erfC.c5, k.erfC.c6],
      isFinite32 w = true) ∧ isZero32 k.sinC.c0 = false) ∧
    k.cosC.c0 = 0x3F800000#32 ∧
    (∀ d : Draw, isZero32 (fmul32 d k.sinC.c0 0#32) = true) ∧
    (∀ d : Draw, erfMag k.erfC d 0x00000000#32 = 0x00000000#32 ∧ erfMag k.erfC d 0x41200000#32 = 0x3F800000#32) ∧
    (∀ (d : Draw) (u : Word), u ∈ used → isNaN32 u = false → sign32 u = false → sign32 (erfMag k.erfC d u) = false) ∧
    (∀ w ∈ [k.expC.c0, k.expC.c1, k.expC.c2, k.expC.c3], isFinite64 w = true) ∧ isZero64 k.expC.c0 = false) ∧
  Config.coeffs.admissible Config.erfWords = true ∧ 0x00000000#32 ∈ Config.erfWords ∧ 0x41200000#32 ∈ Config.erfWords

/-- R149: `ERF.S` is odd bit for bit off the zeros; at both zeros it gives `-0` when the magnitude there is `+0`, as it is for every
admissible configuration. -/
def Obligations.ErfSortedOdd : Prop :=
  ∀ (k : Coeffs) (d : Draw),
    (∀ a : Word, isNaN32 a = false → isZero32 a = false →
      erfSOp k d (a ^^^ 0x80000000#32) = erfSOp k d a ^^^ 0x80000000#32) ∧
    (k.fixedConstraints = true → erfSOp k d 0x00000000#32 = 0x80000000#32 ∧ erfSOp k d 0x80000000#32 = 0x80000000#32)

/-- 43_poly_kernels.md R146: `ERF.U` is odd bit for bit on every word that is no NaN, zeros included, and its sign bit is the
operand's. On a NaN operand, where R86 leaves the sign free, both are the model's reading of R146's pseudocode
(notes/assumptions 2). -/
def Obligations.ErfUnsortedOdd : Prop :=
  ∀ (k : Coeffs) (d : Draw) (a : Word), sign32 (erfUOp k d a) = sign32 a ∧
    erfUOp k d (a ^^^ 0x80000000#32) = erfUOp k d a ^^^ 0x80000000#32

/-- 43_poly_kernels.md R146, R147, R151 (d), (e): `erf(0) = 0` and `erf(±10) = ±1` in both modes, for every admissible
configuration. -/
def Obligations.ErfFixedPoints : Prop :=
  ∀ s : State, Answers (.erfU 0x00000000#32) s 0x00000000#32 ∧ Answers (.erfU 0x80000000#32) s 0x80000000#32 ∧
    Answers (.erfS 0x00000000#32) s 0x80000000#32 ∧ Answers (.erfS 0x80000000#32) s 0x80000000#32 ∧
    Answers (.erfU 0x41200000#32) s 0x3F800000#32 ∧ Answers (.erfU 0xC1200000#32) s 0xBF800000#32 ∧
    Answers (.erfS 0x41200000#32) s 0x3F800000#32 ∧ Answers (.erfS 0xC1200000#32) s 0xBF800000#32

/-! ### The exponential -/

/-- R171: the saturation test, strict, with one threshold and both signs; everything else, `±THR` and NaNs included, takes the
table path. -/
def Obligations.ExpSaturates : Prop :=
  threshold = 0x42B17216#32 ∧ val32 threshold = 11629078 / 131072 ∧
  ∀ (a : Word) (s : State),
    (isNaN32 a = false → extended32 a < ((-(val32 threshold) : ℝ) : EReal) → Answers (.exp a) s 0x00000000#32) ∧
    (isNaN32 a = false → ((val32 threshold : ℝ) : EReal) < extended32 a → Answers (.exp a) s 0x7F800000#32) ∧
    (isNaN32 a = true ∨ (((-(val32 threshold) : ℝ) : EReal) ≤ extended32 a ∧
        extended32 a ≤ ((val32 threshold : ℝ) : EReal)) →
      Answers (.exp a) s (expTable Config.coeffs.expC (Config.drawAt s.draws) a))

/-- 44_exp_engine.md R172 to R178: `EXP`, word `0x02`, on an operand that is neither saturated nor a NaN, operation by
operation. -/
def Obligations.ExpOperationByOperation : Prop :=
  ∀ (a b : Word) (s : State), decode ⟨0x02#8, a, b⟩ = .ok (.exp a) ∧
    (isFinite32 a = true → -(val32 threshold) ≤ val32 a → val32 a ≤ val32 threshold →
      let d := Config.drawAt s.draws
      let c := Config.coeffs.expC
      let z := fmul64 d (widen d a) 0x40471547652B82FE#64
      let kd := fadd64 d z 0x4338000000000000#64
      let k := fsub64 d kd 0x4338000000000000#64
      let r := fsub64 d z k
      let K := int64 k
      let p2 := fadd64 d (fmul64 d c.c3 r) c.c2
      let p1 := fadd64 d (fmul64 d p2 r) c.c1
      let p := fadd64 d (fmul64 d p1 r) c.c0
      let sbits := tbl ⟨(K % 32).toNat, by omega⟩ + (BitVec.ofInt 64 (K / 32) <<< 52)
      Answers (.exp a) s (narrow d (fmul64 d p sbits)))

/-- 44_exp_engine.md R179: a NaN operand gives a NaN, a zero operand `narrow(EXP_C[0])`. -/
def Obligations.ExpSpecialOperands : Prop :=
  ∀ (a : Word) (s : State),
    (isNaN32 a = true → ∃ r : Word, Answers (.exp a) s r ∧ isNaN32 r = true) ∧
    (isZero32 a = true → Answers (.exp a) s (narrow (Config.drawAt s.draws) Config.coeffs.expC.c0))

/-- R173: what the scaling and the magic rounding guarantee for every operand that is not saturated. -/
def Obligations.MagicRoundingExact : Prop :=
  (∀ (d : Draw) (a : Word), isFinite32 a = true → |val32 a| ≤ val32 threshold →
    let z := expScaled d a
    let kd := expShifted d z
    let k := expRounded d kd
    let r := fsub64 d z k
    let K := int64 k
    |val64 z| ≤ 409599932 / 100000 ∧
    isFinite64 kd = true ∧ val64 kd = 3 * 2 ^ 51 + K ∧ 2 ^ 52 ≤ val64 kd ∧ val64 kd < 2 ^ 53 ∧
    |val64 z - K| ≤ 1 / 2 ∧ (|val64 z - K| = 1 / 2 → K % 2 = 0) ∧
    isFinite64 k = true ∧ val64 k = K ∧ (K = 0 → k = 0#64) ∧
    isFinite64 r = true ∧ val64 r = val64 z - K ∧ |val64 r| ≤ 1 / 2 ∧
    (val64 z = K → a ≠ 0x80000000#32 → r = 0#64) ∧
    (a = 0x80000000#32 → z = 0x8000000000000000#64 ∧ k = 0#64 ∧ r = 0x8000000000000000#64) ∧
    -4096 ≤ K ∧ K ≤ 4096) ∧
  ∀ d : Draw, int64 (expRounded d (expShifted d (expScaled d threshold))) = 4096 ∧
    int64 (expRounded d (expShifted d (expScaled d (flipSign32 threshold)))) = -4096

/-- R175: the index, the integer and the scale word read from the bits of `kd`. -/
def Obligations.ScaleReadFromBits : Prop :=
  ∀ (d : Draw) (a : Word), isFinite32 a = true → |val32 a| ≤ val32 threshold →
    let kd := expShifted d (expScaled d a)
    let K := int64 (expRounded d kd)
    ((frac64 kd).toNat : Int) = 2 ^ 51 + K ∧ expIndex K = expIndexBits kd ∧
      (K : Int) = ((frac64 kd).toNat : Int) - 2 ^ 51 ∧ expScale K = expScaleBits kd

/-- R180: the exponent injection never leaves the exponent field. -/
def Obligations.ExponentInjectionStaysInField : Prop :=
  ∀ K : Int, -4096 ≤ K → K ≤ 4096 →
    -128 ≤ expQuotient K ∧ expQuotient K ≤ 128 ∧
    sign64 (expScale K) = false ∧ ((exp64 (expScale K)).toNat : Int) = 0x3FF + expQuotient K ∧
    0x37F ≤ (exp64 (expScale K)).toNat ∧ (exp64 (expScale K)).toNat ≤ 0x47F ∧
    isNormal64 (expScale K) = true ∧ frac64 (expScale K) = frac64 (tbl (expIndex K)) ∧
    val64 (expScale K) = val64 (tbl (expIndex K)) * 2 ^ expQuotient K

/-- R170: each table entry is the binary64 word nearest to `2^(i/32)`: sign 0, exponent `0x3FF`, and `2^i` strictly between the
32nd powers of the entry less and plus half a unit in the last place. -/
def Obligations.TableCorrectlyRounded : Prop :=
  ∀ i : Fin 32, sign64 (tbl i) = false ∧ exp64 (tbl i) = 0x3FF#11 ∧
    (val64 (tbl i) - 1 / 2 ^ 53) ^ 32 < 2 ^ i.val ∧ (2 : ℚ) ^ i.val < (val64 (tbl i) + 1 / 2 ^ 53) ^ 32

/-! ### The arithmetic primitives -/

/-- R77: addition and subtraction, in both formats. -/
def Obligations.AdditionRoundsOnce : Prop :=
  (∀ (d : Draw) (a b : Word), fsub32 d a b = fadd32 d a (b ^^^ 0x80000000#32) ∧
    (isNaN32 a = true ∨ isNaN32 b = true → isNaN32 (fadd32 d a b) = true) ∧
    (isInf32 a = true → isInf32 b = true → sign32 a ≠ sign32 b → isNaN32 (fadd32 d a b) = true) ∧
    (isInf32 a = true → isNaN32 b = false → (isInf32 b = true → sign32 a = sign32 b) → fadd32 d a b = a) ∧
    (isInf32 b = true → isFinite32 a = true → fadd32 d a b = b) ∧
    (isZero32 a = true → isZero32 b = true → fadd32 d a b = if sign32 a = sign32 b then a else 0#32) ∧
    (isFinite32 a = true → isFinite32 b = true → ¬(isZero32 a = true ∧ isZero32 b = true) →
      (val32 a + val32 b = 0 → fadd32 d a b = 0#32) ∧
      (val32 a + val32 b ≠ 0 → RoundsTo32 ((val32 a : ℝ) + val32 b) (fadd32 d a b)))) ∧
  (∀ (d : Draw) (a b : DWord), fsub64 d a b = fadd64 d a (b ^^^ 0x8000000000000000#64) ∧
    (isNaN64 a = true ∨ isNaN64 b = true → isNaN64 (fadd64 d a b) = true) ∧
    (isInf64 a = true → isInf64 b = true → sign64 a ≠ sign64 b → isNaN64 (fadd64 d a b) = true) ∧
    (isInf64 a = true → isNaN64 b = false → (isInf64 b = true → sign64 a = sign64 b) → fadd64 d a b = a) ∧
    (isInf64 b = true → isFinite64 a = true → fadd64 d a b = b) ∧
    (isZero64 a = true → isZero64 b = true → fadd64 d a b = if sign64 a = sign64 b then a else 0#64) ∧
    (isFinite64 a = true → isFinite64 b = true → ¬(isZero64 a = true ∧ isZero64 b = true) →
      (val64 a + val64 b = 0 → fadd64 d a b = 0#64) ∧
      (val64 a + val64 b ≠ 0 → RoundsTo64 ((val64 a : ℝ) + val64 b) (fadd64 d a b))))

/-- R78: multiplication, in both formats. -/
def Obligations.MultiplicationRoundsOnce : Prop :=
  (∀ (d : Draw) (a b : Word),
    (isNaN32 a = true ∨ isNaN32 b = true → isNaN32 (fmul32 d a b) = true) ∧
    (isInf32 a = true ∧ isZero32 b = true ∨ isZero32 a = true ∧ isInf32 b = true → isNaN32 (fmul32 d a b) = true) ∧
    (isNaN32 a = false → isNaN32 b = false → isInf32 a = true ∨ isInf32 b = true →
      ¬(isZero32 a = true ∨ isZero32 b = true) → fmul32 d a b = pack32 (sign32 a ^^ sign32 b) 255#8 0#23) ∧
    (isFinite32 a = true → isFinite32 b = true → isZero32 a = true ∨ isZero32 b = true →
      fmul32 d a b = pack32 (sign32 a ^^ sign32 b) 0#8 0#23) ∧
    (isFinite32 a = true → isFinite32 b = true → isZero32 a = false → isZero32 b = false →
      RoundsTo32 ((val32 a : ℝ) * val32 b) (fmul32 d a b) ∧ sign32 (fmul32 d a b) = (sign32 a ^^ sign32 b))) ∧
  (∀ (d : Draw) (a b : DWord),
    (isNaN64 a = true ∨ isNaN64 b = true → isNaN64 (fmul64 d a b) = true) ∧
    (isInf64 a = true ∧ isZero64 b = true ∨ isZero64 a = true ∧ isInf64 b = true → isNaN64 (fmul64 d a b) = true) ∧
    (isNaN64 a = false → isNaN64 b = false → isInf64 a = true ∨ isInf64 b = true →
      ¬(isZero64 a = true ∨ isZero64 b = true) → fmul64 d a b = pack64 (sign64 a ^^ sign64 b) 2047#11 0#52) ∧
    (isFinite64 a = true → isFinite64 b = true → isZero64 a = true ∨ isZero64 b = true →
      fmul64 d a b = pack64 (sign64 a ^^ sign64 b) 0#11 0#52) ∧
    (isFinite64 a = true → isFinite64 b = true → isZero64 a = false → isZero64 b = false →
      RoundsTo64 ((val64 a : ℝ) * val64 b) (fmul64 d a b) ∧ sign64 (fmul64 d a b) = (sign64 a ^^ sign64 b)))

/-- 40_fp_numerics.md R79: division. -/
def Obligations.DivisionRoundsOnce : Prop :=
  ∀ (d : Draw) (a b : Word),
    (isNaN32 a = true ∨ isNaN32 b = true → isNaN32 (fdiv32 d a b) = true) ∧
    (isZero32 a = true ∧ isZero32 b = true ∨ isInf32 a = true ∧ isInf32 b = true → isNaN32 (fdiv32 d a b) = true) ∧
    (isInf32 a = true ∧ isFinite32 b = true ∨ isZero32 b = true ∧ isFinite32 a = true ∧ isZero32 a = false →
      fdiv32 d a b = pack32 (sign32 a ^^ sign32 b) 255#8 0#23) ∧
    (isInf32 b = true ∧ isFinite32 a = true ∨ isZero32 a = true ∧ isFinite32 b = true ∧ isZero32 b = false →
      fdiv32 d a b = pack32 (sign32 a ^^ sign32 b) 0#8 0#23) ∧
    (isFinite32 a = true → isFinite32 b = true → isZero32 a = false → isZero32 b = false →
      RoundsTo32 ((val32 a : ℝ) / val32 b) (fdiv32 d a b))

/-- R81: comparisons are those of the extended reals, false on NaNs. -/
def Obligations.ComparisonsFollowExtendedReals : Prop :=
  ∀ a b : Word, (flt32 a b = true ↔ isNaN32 a = false ∧ isNaN32 b = false ∧ extended32 a < extended32 b) ∧
    fgt32 a b = flt32 b a

/-- R82: widening is exact. -/
def Obligations.WidenIsExact : Prop :=
  ∀ (d : Draw) (a : Word),
    (isNaN32 a = true → isNaN64 (widen d a) = true) ∧
    (isInf32 a = true → widen d a = pack64 (sign32 a) 2047#11 0#52) ∧
    (isZero32 a = true → widen d a = pack64 (sign32 a) 0#11 0#52) ∧
    (isFinite32 a = true → isZero32 a = false → isNormal64 (widen d a) = true ∧ val64 (widen d a) = val32 a)

/-- R83: narrowing rounds once. -/
def Obligations.NarrowRoundsOnce : Prop :=
  ∀ (d : Draw) (y : DWord),
    (isNaN64 y = true → isNaN32 (narrow d y) = true) ∧
    (isInf64 y = true → narrow d y = pack32 (sign64 y) 255#8 0#23) ∧
    (isZero64 y = true → narrow d y = pack32 (sign64 y) 0#8 0#23) ∧
    (isFinite64 y = true → isZero64 y = false → RoundsTo32 (val64 y : ℝ) (narrow d y))

/-- R84: the float-to-integer conversion truncates toward zero; its domain. -/
def Obligations.FloatToIntegerTruncates : Prop :=
  (∀ a : Word, ((f2i a).isSome = true ↔ isFinite32 a = true ∧ -2147483648 ≤ val32 a ∧ val32 a ≤ 2147483520) ∧
    ∀ t : Int, f2i a = some t →
      (0 ≤ val32 a → t = ⌊val32 a⌋) ∧ (val32 a < 0 → t = ⌈val32 a⌉) ∧ -2 ^ 31 ≤ t ∧ t ≤ 2 ^ 31 - 1) ∧
  f2i 0xCF000000#32 = some (-2147483648) ∧ f2i 0x4EFFFFFF#32 = some 2147483520 ∧
  f2i 0x4F000000#32 = none ∧ f2i 0xCF000001#32 = none

/-- R85: the integer-to-float conversion, and its exactness on what `f2i` gave. -/
def Obligations.IntegerToFloatExactOnTruncation : Prop :=
  ∀ d : Draw, i2f d 0 = 0x00000000#32 ∧
    (∀ t : Int, -2 ^ 31 ≤ t → t ≤ 2 ^ 31 - 1 → t ≠ 0 → RoundsTo32 (t : ℝ) (i2f d t)) ∧
    ∀ (a : Word) (t : Int), f2i a = some t →
      val32 (i2f d t) = t ∧ (2 ^ 23 ≤ |val32 a| → val32 (i2f d t) = val32 a)

/-- R90: the Horner evaluator: one multiplication and one addition a stage from the leading coefficient down; at a zero
argument, with finite coefficients and a non-zero constant term, it gives the constant term; at a NaN, a NaN. -/
def Obligations.HornerEvaluates : Prop :=
  (∀ (d : Draw) (u : Word), (∀ lead, horner32 d lead [] u = lead) ∧
    (∀ lead c rest, horner32 d lead (c :: rest) u = horner32 d (fadd32 d (fmul32 d lead u) c) rest u) ∧
    (∀ lead rest c0, isZero32 u = true → isFinite32 lead = true → (∀ c ∈ rest, isFinite32 c = true) →
      isFinite32 c0 = true → isZero32 c0 = false → horner32 d lead (rest ++ [c0]) u = c0) ∧
    (∀ lead c rest, isNaN32 u = true → isNaN32 (horner32 d lead (c :: rest) u) = true)) ∧
  (∀ (d : Draw) (u : DWord), (∀ lead, horner64 d lead [] u = lead) ∧
    (∀ lead c rest, horner64 d lead (c :: rest) u = horner64 d (fadd64 d (fmul64 d lead u) c) rest u) ∧
    (∀ lead rest c0, isZero64 u = true → isFinite64 lead = true → (∀ c ∈ rest, isFinite64 c = true) →
      isFinite64 c0 = true → isZero64 c0 = false → horner64 d lead (rest ++ [c0]) u = c0) ∧
    (∀ lead c rest, isNaN64 u = true → isNaN64 (horner64 d lead (c :: rest) u) = true))

/-- 40_fp_numerics.md R86: whatever the draw, `ANYNAN32` and `ANYNAN64` are NaNs; every NaN pattern is that of some draw, and `SQRT`
of -1 can answer with it. -/
def Obligations.NaNPatternIsFree : Prop :=
  (∀ d : Draw, isNaN32 d.anyNaN32 = true ∧ isNaN64 d.anyNaN64 = true) ∧
  (∀ w : Word, isNaN32 w = true → ∃ d : Draw, sqrtOp d 0xBF800000#32 = w) ∧
  (∀ w : DWord, isNaN64 w = true → ∃ d : Draw, d.anyNaN64 = w)
end

