-- ==== Sys2Proof/Laws/Words.lean ====
section
/-! SUPPORT. Packing and the field extractor undo each other (40_fp_numerics.md R75); the classes (R72) read off the datum of
a word; the shape of a draw is a NaN, and every NaN is one (R86). -/

namespace Sys2Proof.Machine

/-! ### The datum of given fields -/

theorem datumOf_eq_nan {f : Fmt} {s : Bool} {e m : Nat} : datumOf f s e m = .nan ↔ e = f.expMax ∧ m ≠ 0 := by
  unfold datumOf
  by_cases he : e = f.expMax
  · by_cases hm : m = 0 <;> simp [he, hm]
  · rw [if_neg he]
    by_cases h0 : e = 0
    · rw [if_pos h0]
      simp [he]
    · rw [if_neg h0]
      simp [he]

theorem datumOf_eq_inf {f : Fmt} {s t : Bool} {e m : Nat} :
    datumOf f s e m = .inf t ↔ e = f.expMax ∧ m = 0 ∧ s = t := by
  unfold datumOf
  by_cases he : e = f.expMax
  · by_cases hm : m = 0 <;> simp [he, hm]
  · rw [if_neg he]
    by_cases h0 : e = 0
    · rw [if_pos h0]
      simp [he]
    · rw [if_neg h0]
      simp [he]

theorem datumOf_eq_fin {f : Fmt} {s : Bool} {e m : Nat} :
    (∃ n x, datumOf f s e m = .fin s n x) ↔ e ≠ f.expMax := by
  unfold datumOf
  by_cases he : e = f.expMax
  · by_cases hm : m = 0 <;> simp [he, hm]
  · rw [if_neg he]
    by_cases h0 : e = 0
    · rw [if_pos h0]
      simp [he]
    · rw [if_neg h0]
      simp [he]

/-! ### binary32 -/

@[simp] theorem sign32_pack32 (s : Bool) (e : BitVec 8) (f : BitVec 23) : sign32 (pack32 s e f) = s := by
  simp only [sign32, pack32, BitVec.getLsbD_append]
  simp

@[simp] theorem exp32_pack32 (s : Bool) (e : BitVec 8) (f : BitVec 23) : exp32 (pack32 s e f) = e := by
  ext i hi
  simp only [exp32, pack32, BitVec.getElem_extractLsb', BitVec.getLsbD_append]
  rw [if_neg (by omega), if_pos (by omega), show 23 + i - 23 = i by omega, BitVec.getLsbD_eq_getElem hi]

@[simp] theorem frac32_pack32 (s : Bool) (e : BitVec 8) (f : BitVec 23) : frac32 (pack32 s e f) = f := by
  ext i hi
  simp only [frac32, pack32, BitVec.getElem_extractLsb', BitVec.getLsbD_append]
  rw [if_pos (by omega), show 0 + i = i by omega, BitVec.getLsbD_eq_getElem hi]

theorem pack32_fields (w : Word) : pack32 (sign32 w) (exp32 w) (frac32 w) = w := by
  apply BitVec.eq_of_getLsbD_eq
  intro i hi
  simp only [pack32, BitVec.getLsbD_append]
  by_cases h1 : i < 23
  · rw [if_pos h1]
    simp [frac32, h1]
  · rw [if_neg h1]
    by_cases h2 : i - 23 < 8
    · rw [if_pos h2]
      simp [exp32, h2, show 23 + (i - 23) = i by omega]
    · rw [if_neg h2]
      obtain rfl : i = 31 := by omega
      simp [sign32]

/-- The datum of a packed word. -/
theorem datum32_pack32 (s : Bool) (e : BitVec 8) (f : BitVec 23) :
    datum32 (pack32 s e f) = datumOf binary32 s e.toNat f.toNat := by
  simp [datum32]

theorem isNaN32_iff (w : Word) : isNaN32 w = true ↔ datum32 w = .nan := by
  have hz : frac32 w = 0 ↔ (frac32 w).toNat = 0 := by rw [← BitVec.toNat_inj]; rfl
  have he : exp32 w = 255#8 ↔ (exp32 w).toNat = 255 := by rw [← BitVec.toNat_inj]; rfl
  simp only [isNaN32, datum32, datumOf_eq_nan, Bool.and_eq_true, beq_iff_eq, bne_iff_ne, ne_eq, he, hz]
  rfl

theorem isInf32_iff (w : Word) : isInf32 w = true ↔ datum32 w = .inf (sign32 w) := by
  have hz : frac32 w = 0 ↔ (frac32 w).toNat = 0 := by rw [← BitVec.toNat_inj]; rfl
  have he : exp32 w = 255#8 ↔ (exp32 w).toNat = 255 := by rw [← BitVec.toNat_inj]; rfl
  simp only [isInf32, datum32, datumOf_eq_inf, Bool.and_eq_true, beq_iff_eq, he, hz, and_true]
  rfl

theorem isFinite32_iff (w : Word) : isFinite32 w = true ↔ ∃ m x, datum32 w = .fin (sign32 w) m x := by
  have he : exp32 w = 255#8 ↔ (exp32 w).toNat = 255 := by rw [← BitVec.toNat_inj]; rfl
  simp only [isFinite32, datum32, datumOf_eq_fin, bne_iff_ne, ne_eq, he]
  rfl

theorem isNaN32_shapeNaN32 (w : Word) : isNaN32 (shapeNaN32 w) = true := by
  unfold isNaN32 shapeNaN32
  simp only [exp32_pack32, frac32_pack32]
  split <;> simp_all

theorem shapeNaN32_of_isNaN32 {w : Word} (h : isNaN32 w = true) : shapeNaN32 w = w := by
  simp only [isNaN32, Bool.and_eq_true, beq_iff_eq, bne_iff_ne] at h
  rw [shapeNaN32, if_neg h.2, ← h.1]
  exact pack32_fields w

theorem isNaN32_anyNaN32 (d : Draw) : isNaN32 d.anyNaN32 = true := isNaN32_shapeNaN32 _

/-! ### binary64 -/

@[simp] theorem sign64_pack64 (s : Bool) (e : BitVec 11) (f : BitVec 52) : sign64 (pack64 s e f) = s := by
  simp only [sign64, pack64, BitVec.getLsbD_append]
  simp

@[simp] theorem exp64_pack64 (s : Bool) (e : BitVec 11) (f : BitVec 52) : exp64 (pack64 s e f) = e := by
  ext i hi
  simp only [exp64, pack64, BitVec.getElem_extractLsb', BitVec.getLsbD_append]
  rw [if_neg (by omega), if_pos (by omega), show 52 + i - 52 = i by omega, BitVec.getLsbD_eq_getElem hi]

@[simp] theorem frac64_pack64 (s : Bool) (e : BitVec 11) (f : BitVec 52) : frac64 (pack64 s e f) = f := by
  ext i hi
  simp only [frac64, pack64, BitVec.getElem_extractLsb', BitVec.getLsbD_append]
  rw [if_pos (by omega), show 0 + i = i by omega, BitVec.getLsbD_eq_getElem hi]

theorem pack64_fields (d : DWord) : pack64 (sign64 d) (exp64 d) (frac64 d) = d := by
  apply BitVec.eq_of_getLsbD_eq
  intro i hi
  simp only [pack64, BitVec.getLsbD_append]
  by_cases h1 : i < 52
  · rw [if_pos h1]
    simp [frac64, h1]
  · rw [if_neg h1]
    by_cases h2 : i - 52 < 11
    · rw [if_pos h2]
      simp [exp64, h2, show 52 + (i - 52) = i by omega]
    · rw [if_neg h2]
      obtain rfl : i = 63 := by omega
      simp [sign64]

theorem datum64_pack64 (s : Bool) (e : BitVec 11) (f : BitVec 52) :
    datum64 (pack64 s e f) = datumOf binary64 s e.toNat f.toNat := by
  simp [datum64]

theorem isNaN64_iff (d : DWord) : isNaN64 d = true ↔ datum64 d = .nan := by
  have hz : frac64 d = 0 ↔ (frac64 d).toNat = 0 := by rw [← BitVec.toNat_inj]; rfl
  have he : exp64 d = 2047#11 ↔ (exp64 d).toNat = 2047 := by rw [← BitVec.toNat_inj]; rfl
  simp only [isNaN64, datum64, datumOf_eq_nan, Bool.and_eq_true, beq_iff_eq, bne_iff_ne, ne_eq, he, hz]
  rfl

theorem isFinite64_iff (d : DWord) : isFinite64 d = true ↔ ∃ m x, datum64 d = .fin (sign64 d) m x := by
  have he : exp64 d = 2047#11 ↔ (exp64 d).toNat = 2047 := by rw [← BitVec.toNat_inj]; rfl
  simp only [isFinite64, datum64, datumOf_eq_fin, bne_iff_ne, ne_eq, he]
  rfl

theorem isNaN64_shapeNaN64 (d : DWord) : isNaN64 (shapeNaN64 d) = true := by
  unfold isNaN64 shapeNaN64
  simp only [exp64_pack64, frac64_pack64]
  split <;> simp_all

theorem shapeNaN64_of_isNaN64 {d : DWord} (h : isNaN64 d = true) : shapeNaN64 d = d := by
  simp only [isNaN64, Bool.and_eq_true, beq_iff_eq, bne_iff_ne] at h
  rw [shapeNaN64, if_neg h.2, ← h.1]
  exact pack64_fields d

theorem isNaN64_anyNaN64 (d : Draw) : isNaN64 d.anyNaN64 = true := isNaN64_shapeNaN64 _

/-! ### The bit operations on signs (R75): each leaves the exponent and the fraction -/

theorem flipSign32_flipSign32 (w : Word) : flipSign32 (flipSign32 w) = w := by
  simp [flipSign32]

@[simp] theorem exp32_flipSign32 (w : Word) : exp32 (flipSign32 w) = exp32 w := by
  ext i hi
  simp only [exp32, flipSign32, BitVec.getElem_extractLsb', BitVec.getLsbD_xor]
  interval_cases i <;> simp

@[simp] theorem frac32_flipSign32 (w : Word) : frac32 (flipSign32 w) = frac32 w := by
  ext i hi
  simp only [frac32, flipSign32, BitVec.getElem_extractLsb', BitVec.getLsbD_xor]
  interval_cases i <;> simp

@[simp] theorem sign32_flipSign32 (w : Word) : sign32 (flipSign32 w) = !sign32 w := by
  simp only [sign32, flipSign32, BitVec.getLsbD_xor]
  simp

@[simp] theorem exp32_mag32 (w : Word) : exp32 (mag32 w) = exp32 w := by
  ext i hi
  simp only [exp32, mag32, BitVec.getElem_extractLsb', BitVec.getLsbD_and]
  interval_cases i <;> simp

@[simp] theorem frac32_mag32 (w : Word) : frac32 (mag32 w) = frac32 w := by
  ext i hi
  simp only [frac32, mag32, BitVec.getElem_extractLsb', BitVec.getLsbD_and]
  interval_cases i <;> simp

@[simp] theorem sign32_mag32 (w : Word) : sign32 (mag32 w) = false := by
  simp only [sign32, mag32, BitVec.getLsbD_and]
  simp

/-- A word is its three fields. -/
theorem word_ext {v w : Word} (hs : sign32 v = sign32 w) (he : exp32 v = exp32 w) (hf : frac32 v = frac32 w) : v = w := by
  rw [← pack32_fields v, ← pack32_fields w, hs, he, hf]

end Sys2Proof.Machine
end

