-- ==== Sys2Proof/Laws/Draws.lean ====
section
/-! SUPPORT. Where a draw can be seen (40_fp_numerics.md R86): a primitive's result that is no NaN does not depend on the
draw, and a NaN operand gives a NaN; so the constraints on ERF_C, tested with one draw, hold with every draw. -/

namespace Sys2Proof.Machine

/-! ### Results -/

theorem isNaN32_word32_anyNaN (d : Draw) : isNaN32 (Enc.anyNaN.word32 d) = true := isNaN32_anyNaN32 d

theorem isNaN64_word64_anyNaN (d : Draw) : isNaN64 (Enc.anyNaN.word64 d) = true := isNaN64_anyNaN64 d

theorem word32_draw {e : Enc} {d : Draw} (h : isNaN32 (e.word32 d) = false) (d' : Draw) : e.word32 d' = e.word32 d := by
  cases e with
  | anyNaN => rw [isNaN32_word32_anyNaN] at h; cases h
  | fields s E m => rfl

theorem word64_draw {e : Enc} {d : Draw} (h : isNaN64 (e.word64 d) = false) (d' : Draw) : e.word64 d' = e.word64 d := by
  cases e with
  | anyNaN => rw [isNaN64_word64_anyNaN] at h; cases h
  | fields s E m => rfl

theorem flipSign32_isNaN (w : Word) : isNaN32 (flipSign32 w) = isNaN32 w := by
  rw [isNaN32, isNaN32, exp32_flipSign32, frac32_flipSign32]

/-! ### A NaN operand gives a NaN (R77 to R80) -/

theorem addDatum_nan_right (f : Fmt) (a : Datum) : addDatum f a .nan = .anyNaN := by cases a <;> rfl
theorem mulDatum_nan_right (f : Fmt) (a : Datum) : mulDatum f a .nan = .anyNaN := by cases a <;> rfl
theorem divDatum_nan_right (f : Fmt) (a : Datum) : divDatum f a .nan = .anyNaN := by cases a <;> rfl

theorem fadd32_isNaN (d : Draw) {a b : Word} (h : isNaN32 a = true ∨ isNaN32 b = true) :
    isNaN32 (fadd32 d a b) = true := by
  unfold fadd32
  rcases h with h | h
  · rw [(isNaN32_iff a).1 h]
    exact isNaN32_anyNaN32 d
  · rw [(isNaN32_iff b).1 h, addDatum_nan_right]
    exact isNaN32_anyNaN32 d

theorem fsub32_isNaN (d : Draw) {a b : Word} (h : isNaN32 a = true ∨ isNaN32 b = true) :
    isNaN32 (fsub32 d a b) = true :=
  fadd32_isNaN d (by rwa [flipSign32_isNaN])

theorem fmul32_isNaN (d : Draw) {a b : Word} (h : isNaN32 a = true ∨ isNaN32 b = true) :
    isNaN32 (fmul32 d a b) = true := by
  unfold fmul32
  rcases h with h | h
  · rw [(isNaN32_iff a).1 h]
    exact isNaN32_anyNaN32 d
  · rw [(isNaN32_iff b).1 h, mulDatum_nan_right]
    exact isNaN32_anyNaN32 d

theorem fdiv32_isNaN (d : Draw) {a b : Word} (h : isNaN32 a = true ∨ isNaN32 b = true) :
    isNaN32 (fdiv32 d a b) = true := by
  unfold fdiv32
  rcases h with h | h
  · rw [(isNaN32_iff a).1 h]
    exact isNaN32_anyNaN32 d
  · rw [(isNaN32_iff b).1 h, divDatum_nan_right]
    exact isNaN32_anyNaN32 d

theorem fsqrt32_isNaN (d : Draw) {a : Word} (h : isNaN32 a = true) : isNaN32 (fsqrt32 d a) = true := by
  unfold fsqrt32
  rw [(isNaN32_iff a).1 h]
  exact isNaN32_anyNaN32 d

theorem fadd64_isNaN (d : Draw) {a b : DWord} (h : isNaN64 a = true ∨ isNaN64 b = true) :
    isNaN64 (fadd64 d a b) = true := by
  unfold fadd64
  rcases h with h | h
  · rw [(isNaN64_iff a).1 h]
    exact isNaN64_anyNaN64 d
  · rw [(isNaN64_iff b).1 h, addDatum_nan_right]
    exact isNaN64_anyNaN64 d

theorem fmul64_isNaN (d : Draw) {a b : DWord} (h : isNaN64 a = true ∨ isNaN64 b = true) :
    isNaN64 (fmul64 d a b) = true := by
  unfold fmul64
  rcases h with h | h
  · rw [(isNaN64_iff a).1 h]
    exact isNaN64_anyNaN64 d
  · rw [(isNaN64_iff b).1 h, mulDatum_nan_right]
    exact isNaN64_anyNaN64 d

/-! ### A result that is no NaN does not depend on the draw -/

theorem fadd32_draw {d : Draw} {a b : Word} (h : isNaN32 (fadd32 d a b) = false) (d' : Draw) :
    fadd32 d' a b = fadd32 d a b := word32_draw h d'

theorem fsub32_draw {d : Draw} {a b : Word} (h : isNaN32 (fsub32 d a b) = false) (d' : Draw) :
    fsub32 d' a b = fsub32 d a b := word32_draw h d'

theorem fmul32_draw {d : Draw} {a b : Word} (h : isNaN32 (fmul32 d a b) = false) (d' : Draw) :
    fmul32 d' a b = fmul32 d a b := word32_draw h d'

theorem fdiv32_draw {d : Draw} {a b : Word} (h : isNaN32 (fdiv32 d a b) = false) (d' : Draw) :
    fdiv32 d' a b = fdiv32 d a b := word32_draw h d'

theorem fsqrt32_draw {d : Draw} {a : Word} (h : isNaN32 (fsqrt32 d a) = false) (d' : Draw) :
    fsqrt32 d' a = fsqrt32 d a := word32_draw h d'

theorem fadd64_draw {d : Draw} {a b : DWord} (h : isNaN64 (fadd64 d a b) = false) (d' : Draw) :
    fadd64 d' a b = fadd64 d a b := word64_draw h d'

theorem fmul64_draw {d : Draw} {a b : DWord} (h : isNaN64 (fmul64 d a b) = false) (d' : Draw) :
    fmul64 d' a b = fmul64 d a b := word64_draw h d'

/-! ### The Horner evaluator (R90) -/

theorem horner32_nil (d : Draw) (lead u : Word) : horner32 d lead [] u = lead := rfl

theorem horner32_cons (d : Draw) (lead c : Word) (rest : List Word) (u : Word) :
    horner32 d lead (c :: rest) u = horner32 d (fadd32 d (fmul32 d lead u) c) rest u := rfl

theorem horner32_isNaN_lead (d : Draw) (rest : List Word) (u : Word) :
    ∀ {lead : Word}, isNaN32 lead = true → isNaN32 (horner32 d lead rest u) = true := by
  induction rest with
  | nil => exact fun h => h
  | cons c rest ih =>
    intro lead h
    rw [horner32_cons]
    exact ih (fadd32_isNaN d (.inl (fmul32_isNaN d (.inl h))))

theorem horner32_draw {d : Draw} (d' : Draw) (rest : List Word) (u : Word) :
    ∀ {lead : Word}, isNaN32 (horner32 d lead rest u) = false → horner32 d' lead rest u = horner32 d lead rest u := by
  induction rest with
  | nil => exact fun _ => by rw [horner32_nil, horner32_nil]
  | cons c rest ih =>
    intro lead h
    rw [horner32_cons] at h ⊢
    have hadd : isNaN32 (fadd32 d (fmul32 d lead u) c) = false :=
      Bool.eq_false_iff.2 fun hn => by simp [horner32_isNaN_lead d rest u hn] at h
    have hmul : isNaN32 (fmul32 d lead u) = false :=
      Bool.eq_false_iff.2 fun hn => by simp [fadd32_isNaN d (a := fmul32 d lead u) (b := c) (.inl hn)] at hadd
    rw [horner32_cons, fmul32_draw hmul d', fadd32_draw hadd d']
    exact ih h

/-! ### ERFMAG (R145) -/

theorem erfMag_draw {k : Coeff7} {d : Draw} {u : Word} (h : isNaN32 (erfMag k d u) = false) (d' : Draw) :
    erfMag k d' u = erfMag k d u := by
  simp only [erfMag, oneMinusReciprocal, eighthPower] at h ⊢
  set y := erfPoly k d u with hy
  set y2 := fmul32 d y y with hy2
  set y4 := fmul32 d y2 y2 with hy4
  set y8 := fmul32 d y4 y4 with hy8
  have hq : isNaN32 (fdiv32 d one32 y8) = false :=
    Bool.eq_false_iff.2 fun hn => by simp [fsub32_isNaN d (a := one32) (.inr hn)] at h
  have h8 : isNaN32 y8 = false :=
    Bool.eq_false_iff.2 fun hn => by simp [fdiv32_isNaN d (a := one32) (.inr hn)] at hq
  have h4 : isNaN32 y4 = false :=
    Bool.eq_false_iff.2 fun hn => by simp [hy8, fmul32_isNaN d (a := y4) (b := y4) (.inl hn)] at h8
  have h2 : isNaN32 y2 = false :=
    Bool.eq_false_iff.2 fun hn => by simp [hy4, fmul32_isNaN d (a := y2) (b := y2) (.inl hn)] at h4
  have h1 : isNaN32 y = false :=
    Bool.eq_false_iff.2 fun hn => by simp [hy2, fmul32_isNaN d (a := y) (b := y) (.inl hn)] at h2
  have e1 : erfPoly k d' u = y := horner32_draw d' _ u h1
  rw [e1, fmul32_draw h2 d', ← hy2, fmul32_draw h4 d', ← hy4, fmul32_draw h8 d', ← hy8, fdiv32_draw hq d',
    fsub32_draw h d']

/-! ### What an admissible configuration gives, with every draw (43_poly_kernels.md R151, 44_exp_engine.md R181) -/

theorem erfMag_zero {k : Coeffs} (h : k.erfAdmissible = true) (d : Draw) : erfMag k.erfC d 0#32 = 0#32 := by
  simp only [Coeffs.erfAdmissible, Bool.and_eq_true, beq_iff_eq] at h
  rw [erfMag_draw (d := trialDraw) (by rw [h.1.2]; decide) d, h.1.2]

theorem erfMag_ten {k : Coeffs} (h : k.erfAdmissible = true) (d : Draw) : erfMag k.erfC d 0x41200000#32 = one32 := by
  simp only [Coeffs.erfAdmissible, Bool.and_eq_true, beq_iff_eq] at h
  rw [erfMag_draw (d := trialDraw) (by rw [h.2]; decide) d, h.2]

/-- R151 (f) at one word, with every draw. -/
theorem modesAgreeAt_iff (k : Coeffs) (u : Word) : k.modesAgreeAt u = true ↔
    (isNaN32 u = false → sign32 u = false → ∀ d, isNaN32 (erfMag k.erfC d u) = false ∧ sign32 (erfMag k.erfC d u) = false) := by
  simp only [Coeffs.modesAgreeAt, Bool.or_eq_true, Bool.and_eq_true, Bool.not_eq_true']
  constructor
  · rintro ((h | h) | h) hn hs d
    · rw [hn] at h; cases h
    · rw [hs] at h; cases h
    · rwa [erfMag_draw h.1 d]
  · intro h
    cases hn : isNaN32 u
    · cases hs : sign32 u
      · exact .inr (h hn hs trialDraw)
      · exact .inl (.inr rfl)
    · exact .inl (.inl rfl)

/-- R151 (f) on the words used, with every draw. -/
theorem modesAgreeOn_iff (k : Coeffs) (used : List Word) : k.modesAgreeOn used = true ↔
    ∀ u ∈ used, isNaN32 u = false → sign32 u = false → ∀ d,
      isNaN32 (erfMag k.erfC d u) = false ∧ sign32 (erfMag k.erfC d u) = false := by
  simp only [Coeffs.modesAgreeOn, List.all_eq_true, modesAgreeAt_iff]

/-- (f) at the words of the source's properties follows from (d) and (e). -/
theorem modesAgreeOn_sourceErfWords {k : Coeffs} (h : k.erfAdmissible = true) : k.modesAgreeOn sourceErfWords = true := by
  rw [modesAgreeOn_iff]
  intro u hu _ _ d
  simp only [sourceErfWords, List.mem_cons, List.not_mem_nil, or_false] at hu
  rcases hu with rfl | rfl
  · rw [erfMag_zero h d]
    decide
  · rw [erfMag_ten h d]
    decide

/-- What admissibility says, constraint by constraint. -/
theorem admissible_iff (k : Coeffs) (used : List Word) : k.admissible used = true ↔
    (k.trigAdmissible = true ∧ k.erfAdmissible = true ∧ k.expAdmissible = true) ∧ k.modesAgreeOn used = true := by
  simp only [Coeffs.admissible, Coeffs.fixedConstraints, Bool.and_eq_true, and_assoc]

/-- This unit's configuration is admissible on the words it is used on. -/
theorem coeffs_admissible : Config.coeffs.admissible Config.erfWords = true := Config.roms.admissible

theorem coeffs_trigAdmissible : Config.coeffs.trigAdmissible = true := ((admissible_iff _ _).1 coeffs_admissible).1.1

theorem coeffs_erfAdmissible : Config.coeffs.erfAdmissible = true := ((admissible_iff _ _).1 coeffs_admissible).1.2.1

theorem coeffs_expAdmissible : Config.coeffs.expAdmissible = true := ((admissible_iff _ _).1 coeffs_admissible).1.2.2

theorem coeffs_modesAgreeOn : Config.coeffs.modesAgreeOn Config.erfWords = true :=
  ((admissible_iff _ _).1 coeffs_admissible).2

end Sys2Proof.Machine
end

