-- ==== Sys2Proof/Laws/Encoding.lean ====
section
/-! SUPPORT. The command word and its fields are each read off the other (30_encoding.md R50); everything the decoder can answer
(R55). -/

namespace Sys2Proof

theorem splitCommand_joinCommand (f : CommandFields) : splitCommand (joinCommand f) = f := by
  obtain ⟨r, m, o⟩ := f
  revert r m o
  decide +kernel

theorem joinCommand_splitCommand (c : CommandWord) : joinCommand (splitCommand c) = c := by
  revert c
  decide +kernel

/-- The decoder's first check. -/
theorem decode_reserved {q : Request} (h : (splitCommand q.cmd).reservedZero = false) :
    decode q = .error .reservedBits := by
  simp [decode, h]

/-- Its second check. -/
theorem decode_mode {q : Request} (h : (splitCommand q.cmd).reservedZero = true)
    (hm : (splitCommand q.cmd).modeAllowed = false) : decode q = .error .modeBit := by
  simp [decode, h, hm]

/-- Its third check, and the command it reads when all three are passed. -/
theorem decode_op {q : Request} (h : (splitCommand q.cmd).reservedZero = true)
    (hm : (splitCommand q.cmd).modeAllowed = true) :
    decode q = match commandOf (splitCommand q.cmd).m (splitCommand q.cmd).op q.a q.b with
      | some i => .ok i
      | none => .error .reservedOp := by
  simp only [decode, h, hm, Bool.true_eq_false, if_false] <;> rfl

/-- Everything the decoder can answer. -/
theorem decode_cases (q : Request) :
    ((splitCommand q.cmd).reservedZero = false ∧ decode q = .error .reservedBits) ∨
    ((splitCommand q.cmd).reservedZero = true ∧ (splitCommand q.cmd).modeAllowed = false ∧ decode q = .error .modeBit) ∨
    ((splitCommand q.cmd).reservedZero = true ∧ (splitCommand q.cmd).modeAllowed = true ∧
      ((commandOf (splitCommand q.cmd).m (splitCommand q.cmd).op q.a q.b = none ∧ decode q = .error .reservedOp) ∨
        ∃ i, commandOf (splitCommand q.cmd).m (splitCommand q.cmd).op q.a q.b = some i ∧ decode q = .ok i)) := by
  cases h : (splitCommand q.cmd).reservedZero
  · exact .inl ⟨rfl, decode_reserved h⟩
  · cases hm : (splitCommand q.cmd).modeAllowed
    · exact .inr (.inl ⟨rfl, rfl, decode_mode h hm⟩)
    · refine .inr (.inr ⟨rfl, rfl, ?_⟩)
      rw [decode_op h hm]
      cases commandOf (splitCommand q.cmd).m (splitCommand q.cmd).op q.a q.b with
      | none => exact .inl ⟨rfl, rfl⟩
      | some i => exact .inr ⟨i, rfl, rfl⟩

end Sys2Proof
end

