-- ==== Sys2Proof/Laws/PerInstr.lean ====
section
/-! SUPPORT. Statements made per instruction, one lemma per constructor. -/

namespace Sys2Proof.Laws.Legal

/-- Every command is well formed, and its command word splits into the fields of 30_encoding.md R53's table. -/
def Statement (i : Instr) : Prop :=
  i.wellFormed = true ∧ splitCommand (encode i).cmd = i.fields

theorem sin (a : Word) : Statement (.sin a) := ⟨rfl, splitCommand_joinCommand _⟩
theorem cos (a : Word) : Statement (.cos a) := ⟨rfl, splitCommand_joinCommand _⟩
theorem exp (a : Word) : Statement (.exp a) := ⟨rfl, splitCommand_joinCommand _⟩
theorem erfU (a : Word) : Statement (.erfU a) := ⟨rfl, splitCommand_joinCommand _⟩
theorem erfS (a : Word) : Statement (.erfS a) := ⟨rfl, splitCommand_joinCommand _⟩
theorem sqrt (a : Word) : Statement (.sqrt a) := ⟨rfl, splitCommand_joinCommand _⟩
theorem abs (a : Word) : Statement (.abs a) := ⟨rfl, splitCommand_joinCommand _⟩
theorem csgn (a b : Word) : Statement (.csgn a b) := ⟨rfl, splitCommand_joinCommand _⟩
theorem floor (a : Word) : Statement (.floor a) := ⟨rfl, splitCommand_joinCommand _⟩
theorem hypot (a b : Word) : Statement (.hypot a b) := ⟨rfl, splitCommand_joinCommand _⟩
theorem sq (a : Word) : Statement (.sq a) := ⟨rfl, splitCommand_joinCommand _⟩

end Sys2Proof.Laws.Legal
end

