-- ==== Sys2Proof/Laws/Round.lean ====
section
/-! SUPPORT. Everything the rounding function does, said once (40_fp_numerics.md R76): the nearest integer, the binade, the
square root, and the word a rounded significand is packed into. -/

namespace Sys2Proof.Machine

/-! ### The nearest integer -/

/-- The result is within half a unit of the quotient, and even when it is exactly half a unit away. -/
theorem nearestEven_spec {num den : Nat} (hd : 0 < den) :
    2 * num ≤ (2 * nearestEven num den + 1) * den ∧ 2 * nearestEven num den * den ≤ 2 * num + den ∧
      (2 * num = (2 * nearestEven num den + 1) * den → nearestEven num den % 2 = 0) ∧
      (2 * nearestEven num den * den = 2 * num + den → nearestEven num den % 2 = 0) := by
  have hdiv := Nat.div_add_mod num den
  have hlt := Nat.mod_lt num hd
  unfold nearestEven
  set q := num / den
  set r := num % den
  have hq : num = q * den + r := by rw [Nat.mul_comm]; exact hdiv.symm
  by_cases hc : den < 2 * r ∨ (2 * r = den ∧ q % 2 = 1)
  · simp only [if_pos hc, hq]
    refine ⟨by nlinarith, by rcases hc with h | h <;> nlinarith, fun h => ?_, fun h => ?_⟩
    · exfalso
      nlinarith
    · rcases hc with h' | h'
      · exfalso
        nlinarith
      · omega
  · simp only [if_neg hc, hq]
    have h2 : 2 * r ≤ den := by omega
    refine ⟨by nlinarith, by nlinarith, fun h => ?_, fun h => ?_⟩
    · have : 2 * r = den := by nlinarith
      omega
    · exfalso
      nlinarith

/-- An integer bound below the quotient is a bound below the result. -/
theorem le_nearestEven {num den a : Nat} (hd : 0 < den) (h : a * den ≤ num) : a ≤ nearestEven num den := by
  have : a ≤ num / den := (Nat.le_div_iff_mul_le hd).2 h
  unfold nearestEven
  by_cases hc : den < 2 * (num % den) ∨ (2 * (num % den) = den ∧ num / den % 2 = 1)
  · simp only [if_pos hc]
    omega
  · simp only [if_neg hc]
    omega

/-- An integer bound above the quotient is a bound above the result. -/
theorem nearestEven_le {num den a : Nat} (hd : 0 < den) (h : num ≤ a * den) : nearestEven num den ≤ a := by
  obtain ⟨-, h2, -, h4⟩ := nearestEven_spec (num := num) hd
  by_contra hc
  have hc : a + 1 ≤ nearestEven num den := by omega
  have h5 : 2 * (a + 1) * den ≤ 2 * nearestEven num den * den := by gcongr
  nlinarith

/-! ### The binade -/

theorem pow_toNat_div (l : Int) : (2 : ℚ) ^ l = (2 : ℚ) ^ l.toNat / (2 : ℚ) ^ (-l).toNat := by
  rcases le_total 0 l with h | h
  · lift l to ℕ using h
    simp
  · obtain ⟨n, rfl⟩ : ∃ n : ℕ, l = -n := ⟨l.natAbs, by omega⟩
    simp

/-- The binade of a positive rational. -/
theorem floorLog2_spec {num den : Nat} (hn : 0 < num) (hd : 0 < den) :
    (2 : ℚ) ^ floorLog2 num den ≤ (num : ℚ) / den ∧ (num : ℚ) / den < (2 : ℚ) ^ (floorLog2 num den + 1) := by
  have hdq : (0 : ℚ) < den := by exact_mod_cast hd
  have h1 : (2 : ℚ) ^ Nat.log2 num ≤ num := by exact_mod_cast Nat.log2_self_le hn.ne'
  have h2 : (num : ℚ) < 2 ^ (Nat.log2 num + 1) := by exact_mod_cast Nat.lt_log2_self
  have h3 : (2 : ℚ) ^ Nat.log2 den ≤ den := by exact_mod_cast Nat.log2_self_le hd.ne'
  have h4 : (den : ℚ) < 2 ^ (Nat.log2 den + 1) := by exact_mod_cast Nat.lt_log2_self
  unfold floorLog2
  set l : Int := (Nat.log2 num : Int) - (Nat.log2 den : Int) with hl
  have hpow : (2 : ℚ) ^ l = 2 ^ Nat.log2 num / 2 ^ Nat.log2 den := by
    rw [hl, zpow_sub₀ (by norm_num)]
    simp
  have key : num * 2 ^ (-l).toNat < den * 2 ^ l.toNat ↔ (num : ℚ) / den < 2 ^ l := by
    rw [pow_toNat_div l, div_lt_div_iff₀ hdq (by positivity)]
    constructor <;> intro h
    · have : (num : ℚ) * 2 ^ (-l).toNat < den * 2 ^ l.toNat := by exact_mod_cast h
      linarith
    · have h : (num : ℚ) * 2 ^ (-l).toNat < den * 2 ^ l.toNat := by linarith
      exact_mod_cast h
  have lo : (2 : ℚ) ^ (l - 1) ≤ num / den := by
    rw [zpow_sub₀ (by norm_num), hpow, zpow_one, div_div, div_le_div_iff₀ (by positivity) hdq]
    calc (2 : ℚ) ^ Nat.log2 num * den ≤ num * den := by gcongr
      _ ≤ num * (2 ^ Nat.log2 den * 2) := by rw [← pow_succ]; gcongr
  have hi : (num : ℚ) / den < 2 ^ (l + 1) := by
    rw [zpow_add₀ (by norm_num), hpow, zpow_one, div_lt_iff₀ hdq]
    calc (num : ℚ) < 2 ^ (Nat.log2 num + 1) := h2
      _ = 2 ^ Nat.log2 num / 2 ^ Nat.log2 den * 2 * 2 ^ Nat.log2 den := by
        rw [pow_succ]
        field_simp
      _ ≤ 2 ^ Nat.log2 num / 2 ^ Nat.log2 den * 2 * den := by gcongr
  by_cases hc : num * 2 ^ (-l).toNat < den * 2 ^ l.toNat
  · simp only [if_pos hc]
    exact ⟨lo, by simpa using key.1 hc⟩
  · simp only [if_neg hc]
    exact ⟨le_of_not_gt fun h => hc (key.2 h), hi⟩

/-! ### The integer square root -/

theorem isqrtFrom_spec (v : Nat) : ∀ k r : Nat, r * r ≤ v → v < (r + 2 ^ k) * (r + 2 ^ k) →
    isqrtFrom v k r * isqrtFrom v k r ≤ v ∧ v < (isqrtFrom v k r + 1) * (isqrtFrom v k r + 1)
  | 0, r, h1, h2 => by simpa [isqrtFrom] using ⟨h1, h2⟩
  | k + 1, r, h1, h2 => by
    unfold isqrtFrom
    by_cases hc : (r + 2 ^ k) * (r + 2 ^ k) ≤ v
    · rw [if_pos hc]
      refine isqrtFrom_spec v k _ hc ?_
      rwa [Nat.add_assoc, ← Nat.two_mul, Nat.mul_comm 2, ← pow_succ]
    · rw [if_neg hc]
      exact isqrtFrom_spec v k r h1 (by omega)

/-- The integer square root. -/
theorem isqrt_spec {k v : Nat} (h : v < 2 ^ k * 2 ^ k) :
    isqrt k v * isqrt k v ≤ v ∧ v < (isqrt k v + 1) * (isqrt k v + 1) :=
  isqrtFrom_spec v k 0 (by simp) (by simpa using h)

/-! ### Rounding a rational -/

/-- What `RN_fmt` computes before packing: a significand `i` at exponent `e` with `i * 2^(e-(p-1))` within half a unit of the
value, even when exactly half a unit away; `e` is the value's binade, clamped at `emin`. -/
theorem roundRat_spec (f : Fmt) (hp : 1 ≤ f.p) (s : Bool) {num den : Nat} (hn : 0 < num) (hd : 0 < den) (x : Int) :
    ∃ (e : Int) (i : Nat), roundRat f s num den x = finishRound f s i e ∧ f.emin ≤ e ∧ i ≤ 2 ^ f.p ∧
      (e = f.emin ∨ (2 ^ (f.p - 1) ≤ i ∧ (2 : ℚ) ^ e ≤ num / den * 2 ^ x)) ∧
      (num : ℚ) / den * 2 ^ x < 2 ^ (e + 1) ∧
      |(num : ℚ) / den * 2 ^ x - i * 2 ^ (e - (f.p - 1 : Nat))| ≤ 2 ^ (e - (f.p - 1 : Nat)) / 2 ∧
      (|(num : ℚ) / den * 2 ^ x - i * 2 ^ (e - (f.p - 1 : Nat))| = 2 ^ (e - (f.p - 1 : Nat)) / 2 → i % 2 = 0) := by
  have hdq : (0 : ℚ) < den := by exact_mod_cast hd
  obtain ⟨hlo, hhi⟩ := floorLog2_spec hn hd
  set L := floorLog2 num den with hL
  set e := max (L + x) f.emin with he
  set j := x - (e - (f.p - 1 : Nat)) with hj
  set N := num * 2 ^ j.toNat with hN
  set D := den * 2 ^ (-j).toNat with hD
  have hDpos : 0 < D := by positivity
  have hDq : (0 : ℚ) < D := by exact_mod_cast hDpos
  set u : ℚ := 2 ^ (e - (f.p - 1 : Nat)) with hu
  have hupos : 0 < u := by positivity
  have hquot : (num : ℚ) / den * 2 ^ x = (N : ℚ) / D * u := by
    have h1 : (N : ℚ) / D = num / den * 2 ^ j := by
      rw [pow_toNat_div j, hN, hD]
      push_cast
      rw [div_mul_div_comm]
    rw [h1, mul_assoc, hu, ← zpow_add₀ (by norm_num), hj]
    congr 2
    omega
  have hvlt : (num : ℚ) / den * 2 ^ x < 2 ^ (e + 1) := by
    calc (num : ℚ) / den * 2 ^ x < 2 ^ (L + 1) * 2 ^ x := by gcongr
      _ = 2 ^ (L + x + 1) := by rw [← zpow_add₀ (by norm_num)]; congr 1; omega
      _ ≤ 2 ^ (e + 1) := by
        apply zpow_le_zpow_right₀ (by norm_num)
        have := le_max_left (L + x) f.emin
        omega
  obtain ⟨n1, n2, n3, n4⟩ := nearestEven_spec (num := N) hDpos
  set i := nearestEven N D with hi
  have q1 : (2 : ℚ) * N ≤ (2 * i + 1) * D := by exact_mod_cast n1
  have q2 : (2 : ℚ) * i * D ≤ 2 * N + D := by exact_mod_cast n2
  have hND : (N : ℚ) = N / D * D := by field_simp
  set v : ℚ := (N : ℚ) / D with hv
  have b1 : v - i ≤ 1 / 2 := by
    rw [hND] at q1
    nlinarith
  have b2 : i - v ≤ 1 / 2 := by
    rw [hND] at q2
    nlinarith
  have hdist : |(num : ℚ) / den * 2 ^ x - i * u| = |v - i| * u := by
    rw [hquot, ← sub_mul, abs_mul, abs_of_pos hupos]
  refine ⟨e, i, rfl, le_max_right _ _, ?_, ?_, hvlt, ?_, ?_⟩
  · apply nearestEven_le hDpos
    have : (N : ℚ) ≤ 2 ^ f.p * D := by
      rw [hND]
      gcongr
      have h2 : v * u < 2 ^ (e + 1) := hquot ▸ hvlt
      have h3 : (2 : ℚ) ^ (e + 1) = 2 ^ f.p * u := by
        rw [hu, ← zpow_natCast, ← zpow_add₀ (by norm_num)]
        congr 1
        omega
      rw [h3] at h2
      exact (lt_of_mul_lt_mul_right h2 hupos.le).le
    exact_mod_cast this
  · rcases le_or_gt (L + x) f.emin with h | h
    · left
      rw [he]
      exact max_eq_right h
    · right
      have heL : e = L + x := max_eq_left h.le
      have hle : (2 : ℚ) ^ e ≤ num / den * 2 ^ x := by
        rw [heL, zpow_add₀ (by norm_num)]
        gcongr
      refine ⟨le_nearestEven hDpos ?_, hle⟩
      have : (2 : ℚ) ^ (f.p - 1) * D ≤ N := by
        rw [hND]
        gcongr
        rw [hquot] at hle
        have h3 : (2 : ℚ) ^ e = 2 ^ (f.p - 1) * u := by
          rw [hu, ← zpow_natCast, ← zpow_add₀ (by norm_num)]
          congr 1
          omega
        rw [h3] at hle
        exact le_of_mul_le_mul_right hle hupos
      exact_mod_cast this
  · rw [hdist]
    have : |v - i| ≤ 1 / 2 := abs_le.2 ⟨by linarith, b1⟩
    calc |v - i| * u ≤ 1 / 2 * u := by gcongr
      _ = u / 2 := by ring
  · rw [hdist]
    intro h
    have h5 : |v - i| = 1 / 2 := by
      have : |v - i| * u = 1 / 2 * u := by rw [h]; ring
      exact mul_right_cancel₀ hupos.ne' this
    rcases abs_cases (v - i) with ⟨h6, -⟩ | ⟨h6, -⟩
    · apply n3
      have : (2 : ℚ) * N = (2 * i + 1) * D := by
        rw [hND]
        have : v = i + 1 / 2 := by linarith
        rw [this]
        ring
      exact_mod_cast this
    · apply n4
      have : (2 : ℚ) * i * D = 2 * N + D := by
        rw [hND]
        have : v = i - 1 / 2 := by linarith
        rw [this]
        ring
      exact_mod_cast this

/-! ### Packing -/

/-- The datum of a result before packing. -/
def Enc.datum (f : Fmt) : Enc → Datum
  | .anyNaN => .nan
  | .fields s e m => datumOf f s e m

/-- The datum of the binary32 word of a result whose fields fit. -/
theorem datum32_word32 (d : Draw) {s : Bool} {e m : Nat} (he : e < 2 ^ 8) (hm : m < 2 ^ 23) :
    datum32 ((Enc.fields s e m).word32 d) = datumOf binary32 s e m := by
  rw [Enc.word32, datum32_pack32, BitVec.toNat_ofNat, BitVec.toNat_ofNat, Nat.mod_eq_of_lt he, Nat.mod_eq_of_lt hm]

/-- The datum of the binary64 word of a result whose fields fit. -/
theorem datum64_word64 (d : Draw) {s : Bool} {e m : Nat} (he : e < 2 ^ 11) (hm : m < 2 ^ 52) :
    datum64 ((Enc.fields s e m).word64 d) = datumOf binary64 s e m := by
  rw [Enc.word64, datum64_pack64, BitVec.toNat_ofNat, BitVec.toNat_ofNat, Nat.mod_eq_of_lt he, Nat.mod_eq_of_lt hm]

/-- What packing does with a rounded significand `i` at exponent `e`: the fields fit the format; below the overflow bound
the word is finite with sign `s`, its value is `i * 2^(e-(p-1))` and its fraction is even exactly when `i` is; from the bound on it is the
infinity of sign `s`. -/
theorem finishRound_spec (f : Fmt) (hp : 2 ≤ f.p) (hb : 1 ≤ f.bias) (hx : f.expMax = 2 * f.bias + 1) (s : Bool)
    {i : Nat} {e : Int} (hi : i ≤ 2 ^ f.p) (hmin : f.emin ≤ e) (hn : e = f.emin ∨ 2 ^ (f.p - 1) ≤ i) :
    ∃ E m : Nat, finishRound f s i e = .fields s E m ∧ E ≤ f.expMax ∧ m < 2 ^ (f.p - 1) ∧
      ((i : ℚ) * 2 ^ (e - (f.p - 1 : Nat)) < 2 ^ (f.emax + 1) → E ≠ f.expMax ∧ m % 2 = i % 2 ∧
        ∃ n x, datumOf f s E m = .fin s n x ∧ (n : ℚ) * 2 ^ x = i * 2 ^ (e - (f.p - 1 : Nat))) ∧
      ((2 : ℚ) ^ (f.emax + 1) ≤ i * 2 ^ (e - (f.p - 1 : Nat)) → E = f.expMax ∧ m = 0) := by
  obtain ⟨q, hq⟩ : ∃ q, f.p = q + 2 := ⟨f.p - 2, by omega⟩
  have hq1 : f.p - 1 = q + 1 := by omega
  have hemax : f.emax = f.bias := rfl
  have hemin : f.emin = 1 - (f.bias : Int) := rfl
  have h2p : (2 : Nat) ^ (q + 2) = 2 ^ (q + 1) * 2 := pow_succ _ _
  have hodd : (2 : Nat) ^ (q + 1) % 2 = 0 := by simp [pow_succ]
  have h2pos : 0 < (2 : Nat) ^ (q + 1) := by positivity
  -- the carry into the next binade does not change the value
  obtain ⟨i', e', hfin, hval, hi', he', hn', hpar⟩ : ∃ (i' : Nat) (e' : Int),
      finishRound f s i e = (if f.emax < e' then .inf f s
        else if i' < 2 ^ (q + 1) then .fields s 0 i' else .fields s (e' + f.bias).toNat (i' - 2 ^ (q + 1))) ∧
      (i : ℚ) * 2 ^ (e - (q + 1 : Nat)) = i' * 2 ^ (e' - (q + 1 : Nat)) ∧ i' < 2 ^ (q + 2) ∧ f.emin ≤ e' ∧
      (e' = f.emin ∨ 2 ^ (q + 1) ≤ i') ∧ i' % 2 = i % 2 := by
    by_cases hc : i = 2 ^ (q + 2)
    · refine ⟨2 ^ (q + 1), e + 1, by simp [finishRound, hq, hc], ?_, by omega, by omega, .inr le_rfl, by omega⟩
      rw [hc, h2p]
      push_cast
      rw [show (e + 1 - ((q : ℤ) + 1)) = 1 + (e - ((q : ℤ) + 1)) by ring, zpow_add₀ (by norm_num)]
      ring
    · refine ⟨i, e, by simp [finishRound, hq, hc], rfl, ?_, hmin, by rwa [hq1] at hn, rfl⟩
      rw [hq] at hi
      omega
  rw [hq1, hfin, hval]
  have hi'q : (i' : ℚ) < 2 ^ (q + 2) := by exact_mod_cast hi'
  by_cases hov : f.emax < e'
  · have hge : 2 ^ (q + 1) ≤ i' := by
      rcases hn' with h | h
      · omega
      · exact h
    have hgeq : (2 : ℚ) ^ (q + 1) ≤ i' := by exact_mod_cast hge
    have hbig : (2 : ℚ) ^ (f.emax + 1) ≤ i' * 2 ^ (e' - (q + 1 : Nat)) := by
      calc (2 : ℚ) ^ (f.emax + 1) ≤ 2 ^ e' := zpow_le_zpow_right₀ (by norm_num) (by omega)
        _ = 2 ^ (q + 1) * 2 ^ (e' - (q + 1 : Nat)) := by
          rw [← zpow_natCast, ← zpow_add₀ (by norm_num)]
          congr 1
          omega
        _ ≤ i' * 2 ^ (e' - (q + 1 : Nat)) := by gcongr
    exact ⟨f.expMax, 0, by rw [if_pos hov]; rfl, le_rfl, h2pos, fun h => absurd hbig (not_le.2 h), fun _ => ⟨rfl, rfl⟩⟩
  · rw [if_neg hov]
    have hsmall : (i' : ℚ) * 2 ^ (e' - (q + 1 : Nat)) < 2 ^ (f.emax + 1) := by
      calc (i' : ℚ) * 2 ^ (e' - (q + 1 : Nat)) < 2 ^ (q + 2) * 2 ^ (e' - (q + 1 : Nat)) := by gcongr
        _ = 2 ^ (e' + 1) := by
          rw [← zpow_natCast, ← zpow_add₀ (by norm_num)]
          congr 1
          push_cast
          ring
        _ ≤ 2 ^ (f.emax + 1) := zpow_le_zpow_right₀ (by norm_num) (by omega)
    by_cases hsub : i' < 2 ^ (q + 1)
    · rw [if_pos hsub]
      refine ⟨0, i', rfl, by omega, hsub, fun _ => ⟨by omega, hpar, i', f.emin - (f.p - 1 : Nat), ?_, ?_⟩,
        fun h => absurd hsmall (not_lt.2 h)⟩
      · simp [datumOf, hx]
      · rw [hq1, hn'.resolve_right (by omega)]
    · rw [if_neg hsub]
      have hE : ((e' + f.bias).toNat : Int) = e' + f.bias := by omega
      refine ⟨(e' + f.bias).toNat, i' - 2 ^ (q + 1), rfl, by omega, by omega,
        fun _ => ⟨by omega, by omega, 2 ^ (f.p - 1) + (i' - 2 ^ (q + 1)), (e' + f.bias).toNat - f.bias - (f.p - 1 : Nat), ?_, ?_⟩,
        fun h => absurd hsmall (not_lt.2 h)⟩
      · rw [datumOf, if_neg (by omega), if_neg (by omega)]
      · rw [hq1, hE, show 2 ^ (q + 1) + (i' - 2 ^ (q + 1)) = i' by omega]
        congr 2
        ring

end Sys2Proof.Machine
end

