-- ==== Sys2Proof/Laws/State.lean ====
section
/-! SUPPORT. What each update of the state leaves in each field, one lemma per field per update, so that no proof unfolds a
record update; and what the steps of the host leave in each field. -/

namespace Sys2Proof.Machine

/-! ### State.withReqq -/

@[simp] theorem State.withReqq_reqq (s : State) (q : List Request) : (s.withReqq q).reqq = q := rfl
@[simp] theorem State.withReqq_rspq (s : State) (q : List Request) : (s.withReqq q).rspq = s.rspq := rfl
@[simp] theorem State.withReqq_draws (s : State) (q : List Request) : (s.withReqq q).draws = s.draws := rfl
@[simp] theorem State.withReqq_schedule (s : State) (q : List Request) : (s.withReqq q).schedule = s.schedule := rfl
@[simp] theorem State.withReqq_collected (s : State) (q : List Request) : (s.withReqq q).collected = s.collected := rfl

/-! ### State.withRspq -/

@[simp] theorem State.withRspq_reqq (s : State) (q : List Response) : (s.withRspq q).reqq = s.reqq := rfl
@[simp] theorem State.withRspq_rspq (s : State) (q : List Response) : (s.withRspq q).rspq = q := rfl
@[simp] theorem State.withRspq_draws (s : State) (q : List Response) : (s.withRspq q).draws = s.draws := rfl
@[simp] theorem State.withRspq_schedule (s : State) (q : List Response) : (s.withRspq q).schedule = s.schedule := rfl
@[simp] theorem State.withRspq_collected (s : State) (q : List Response) : (s.withRspq q).collected = s.collected := rfl

/-! ### State.withSchedule -/

@[simp] theorem State.withSchedule_reqq (s : State) (t : List Turn) : (s.withSchedule t).reqq = s.reqq := rfl
@[simp] theorem State.withSchedule_rspq (s : State) (t : List Turn) : (s.withSchedule t).rspq = s.rspq := rfl
@[simp] theorem State.withSchedule_draws (s : State) (t : List Turn) : (s.withSchedule t).draws = s.draws := rfl
@[simp] theorem State.withSchedule_schedule (s : State) (t : List Turn) : (s.withSchedule t).schedule = t := rfl
@[simp] theorem State.withSchedule_collected (s : State) (t : List Turn) : (s.withSchedule t).collected = s.collected := rfl

/-! ### State.withCollected -/

@[simp] theorem State.withCollected_reqq (s : State) (c : List Response) : (s.withCollected c).reqq = s.reqq := rfl
@[simp] theorem State.withCollected_rspq (s : State) (c : List Response) : (s.withCollected c).rspq = s.rspq := rfl
@[simp] theorem State.withCollected_draws (s : State) (c : List Response) : (s.withCollected c).draws = s.draws := rfl
@[simp] theorem State.withCollected_schedule (s : State) (c : List Response) : (s.withCollected c).schedule = s.schedule := rfl
@[simp] theorem State.withCollected_collected (s : State) (c : List Response) : (s.withCollected c).collected = c := rfl

/-! ### State.withDraws -/

@[simp] theorem State.withDraws_reqq (s : State) (n : Nat) : (s.withDraws n).reqq = s.reqq := rfl
@[simp] theorem State.withDraws_rspq (s : State) (n : Nat) : (s.withDraws n).rspq = s.rspq := rfl
@[simp] theorem State.withDraws_draws (s : State) (n : Nat) : (s.withDraws n).draws = n := rfl
@[simp] theorem State.withDraws_schedule (s : State) (n : Nat) : (s.withDraws n).schedule = s.schedule := rfl
@[simp] theorem State.withDraws_collected (s : State) (n : Nat) : (s.withDraws n).collected = s.collected := rfl

/-! ### State.respond and the two answers -/

@[simp] theorem State.respond_reqq (s : State) (p : Response) : (s.respond p).reqq = s.reqq := rfl
@[simp] theorem State.respond_rspq (s : State) (p : Response) : (s.respond p).rspq = s.rspq ++ [p] := rfl
@[simp] theorem State.respond_draws (s : State) (p : Response) : (s.respond p).draws = s.draws + 1 := rfl
@[simp] theorem State.respond_schedule (s : State) (p : Response) : (s.respond p).schedule = s.schedule := rfl
@[simp] theorem State.respond_collected (s : State) (p : Response) : (s.respond p).collected = s.collected := rfl
@[simp] theorem State.answer_reqq (s : State) (r : Word) : (s.answer r).reqq = s.reqq := rfl
@[simp] theorem State.answer_rspq (s : State) (r : Word) : (s.answer r).rspq = s.rspq ++ [{ r := r, ill := false }] := rfl
@[simp] theorem State.answer_draws (s : State) (r : Word) : (s.answer r).draws = s.draws + 1 := rfl
@[simp] theorem State.answer_schedule (s : State) (r : Word) : (s.answer r).schedule = s.schedule := rfl
@[simp] theorem State.answer_collected (s : State) (r : Word) : (s.answer r).collected = s.collected := rfl
@[simp] theorem State.answerIllegal_reqq (s : State) : s.answerIllegal.reqq = s.reqq := rfl
@[simp] theorem State.answerIllegal_rspq (s : State) : s.answerIllegal.rspq = s.rspq ++ [{ r := Config.unspec32 s.draws, ill := true }] := rfl
@[simp] theorem State.answerIllegal_draws (s : State) : s.answerIllegal.draws = s.draws + 1 := rfl
@[simp] theorem State.answerIllegal_schedule (s : State) : s.answerIllegal.schedule = s.schedule := rfl
@[simp] theorem State.answerIllegal_collected (s : State) : s.answerIllegal.collected = s.collected := rfl

/-! ### The host's steps -/

@[simp] theorem resetUnit_reqq (s : State) : (resetUnit s).reqq = [] := rfl
@[simp] theorem resetUnit_rspq (s : State) : (resetUnit s).rspq = [] := rfl
@[simp] theorem resetUnit_draws (s : State) : (resetUnit s).draws = s.draws := rfl
@[simp] theorem resetUnit_schedule (s : State) : (resetUnit s).schedule = s.schedule := rfl
@[simp] theorem resetUnit_collected (s : State) : (resetUnit s).collected = s.collected := rfl

@[simp] theorem hostIssue_rspq (n : Nat) (q : Request) (s : State) : (hostIssue n q s).rspq = s.rspq := by
  unfold hostIssue; split <;> rfl

@[simp] theorem hostIssue_draws (n : Nat) (q : Request) (s : State) : (hostIssue n q s).draws = s.draws := by
  unfold hostIssue; split <;> rfl

@[simp] theorem hostIssue_schedule (n : Nat) (q : Request) (s : State) : (hostIssue n q s).schedule = s.schedule := by
  unfold hostIssue; split <;> rfl

@[simp] theorem hostIssue_collected (n : Nat) (q : Request) (s : State) : (hostIssue n q s).collected = s.collected := by
  unfold hostIssue; split <;> rfl

/-- A request is accepted exactly when the unit is ready (R16). -/
theorem hostIssue_reqq (n : Nat) (q : Request) (s : State) :
    (hostIssue n q s).reqq = if s.occupancy < n then s.reqq ++ [q] else s.reqq := by
  unfold hostIssue reqReady
  by_cases h : s.occupancy < n <;> simp [h]

@[simp] theorem hostCollect_reqq (s : State) : (hostCollect s).reqq = s.reqq := by
  unfold hostCollect; split <;> rfl

@[simp] theorem hostCollect_draws (s : State) : (hostCollect s).draws = s.draws := by
  unfold hostCollect; split <;> rfl

@[simp] theorem hostCollect_schedule (s : State) : (hostCollect s).schedule = s.schedule := by
  unfold hostCollect; split <;> rfl

@[simp] theorem hostCollect_rspq (s : State) : (hostCollect s).rspq = s.rspq.tail := by
  unfold hostCollect
  split <;> simp_all

@[simp] theorem hostCollect_collected (s : State) :
    (hostCollect s).collected = s.collected ++ s.rspq.head?.toList := by
  unfold hostCollect
  split <;> simp_all

/-- The occupancy of a state is the sum of its queues' lengths (R16). -/
theorem State.occupancy_eq (s : State) : s.occupancy = s.reqq.length + s.rspq.length := rfl

/-! ### Placing an instruction -/

@[simp] theorem withFetchWord_reqq (s : State) (n w : Nat) :
    (s.withFetchWord n w).reqq = requestOfNat n w :: s.reqq.tail := rfl
@[simp] theorem withFetchWord_schedule (s : State) (n w : Nat) :
    (s.withFetchWord n w).schedule = .unit :: s.schedule.tail := rfl
@[simp] theorem withFetchWord_rspq (s : State) (n w : Nat) : (s.withFetchWord n w).rspq = s.rspq := rfl
@[simp] theorem withFetchWord_draws (s : State) (n w : Nat) : (s.withFetchWord n w).draws = s.draws := rfl
@[simp] theorem withFetchWord_collected (s : State) (n w : Nat) : (s.withFetchWord n w).collected = s.collected := rfl

end Sys2Proof.Machine
end

