-- ==== Sys2Proof/Laws/Unit.lean ====
section
/-! SUPPORT. Everything a step can do, said once per operation: exec, unitExec, hostTurn, takeTurn and step. -/

namespace Sys2Proof.Machine

/-- Every command answers its request: the result word of `OP_c` with `ill = 0`, and nothing else (10_state.md R18). -/
theorem exec_eq (i : Instr) (s : State) : exec i s = .next (s.answer (opResult Config.coeffs s.draw i)) := by
  cases i <;> rfl

/-- The transaction of a request that decodes to `i`. -/
theorem transaction_ok {q : Request} {i : Instr} (h : decode q = .ok i) (k : Coeffs) (d : Draw) :
    transaction k d q = { r := opResult k d i, ill := false } := by
  simp [transaction, illBit, h]

/-- The transaction of an illegal command word. -/
theorem transaction_error {q : Request} {e : IllegalCommand} (h : decode q = .error e) (k : Coeffs) (d : Draw) :
    transaction k d q = { r := d.unspec32, ill := true } := by
  simp [transaction, illBit, h]

/-- With `REQQ` empty the unit has no step (R16). -/
theorem unitExec_nil {s : State} (h : s.reqq = []) : unitExec s = .next s := by
  simp [unitExec, h]

/-- The unit's step: the head of `REQQ` is answered with its transaction (R16, R18). -/
theorem unitExec_cons {s : State} {q : Request} {rest : List Request} (h : s.reqq = q :: rest) :
    unitExec s = .next ((s.withReqq rest).respond (transaction Config.coeffs s.draw q)) := by
  rcases hd : decode q with e | i
  · simp only [unitExec, h, hd, transaction_error hd]
    rfl
  · simp only [unitExec, h, hd, transaction_ok hd, exec_eq]
    rfl

/-- Everything `unit_exec` can do. -/
theorem unitExec_cases (s : State) :
    (s.reqq = [] ∧ unitExec s = .next s) ∨
      ∃ q rest, s.reqq = q :: rest ∧
        unitExec s = .next ((s.withReqq rest).respond (transaction Config.coeffs s.draw q)) := by
  rcases h : s.reqq with _ | ⟨q, rest⟩
  · exact .inl ⟨rfl, unitExec_nil h⟩
  · exact .inr ⟨q, rest, rfl, unitExec_cons h⟩

/-- The queues never hold more after the unit's step than before it. -/
theorem unitExec_occupancy {s t : State} (h : unitExec s = .next t) : t.occupancy = s.occupancy := by
  obtain ⟨-, hu⟩ | ⟨q, rest, hq, hu⟩ := unitExec_cases s
  · rw [hu] at h
    cases h
    rfl
  · rw [hu] at h
    cases h
    simp [State.occupancy, hq]
    omega

/-- Everything a host's turn can do to the unit's queues: dropped by `rst`; or the request issued when offered and accepted,
then the oldest response collected when taken (R16, R19). -/
theorem hostTurn_cases (n : Nat) (p : HostPorts) (s : State) :
    (p.rst = true ∧ hostTurn n p s = resetUnit s) ∨
      (p.rst = false ∧ hostTurn n p s =
        (if p.rspReady then hostCollect else id) ((if p.reqValid then hostIssue n p.request else id) s)) := by
  unfold hostTurn
  cases p.rst <;> cases p.reqValid <;> cases p.rspReady <;> simp

/-- A host's turn keeps the queues within the unit's depth (R16). -/
theorem hostTurn_occupancy_le {n : Nat} (p : HostPorts) {s : State} (h : s.occupancy ≤ n) :
    (hostTurn n p s).occupancy ≤ n := by
  have issue : ∀ q, (hostIssue n q s).occupancy ≤ n := by
    intro q
    rw [State.occupancy_eq, hostIssue_reqq, hostIssue_rspq]
    by_cases hr : s.occupancy < n
    · rw [if_pos hr, List.length_append]
      simp only [State.occupancy_eq, List.length_singleton] at hr ⊢
      omega
    · rw [if_neg hr]
      exact h
  have collect : ∀ u : State, (hostCollect u).occupancy ≤ u.occupancy := by
    intro u
    simp [State.occupancy]
  obtain ⟨-, hr⟩ | ⟨-, hr⟩ := hostTurn_cases n p s
  · simp [hr, State.occupancy]
  · rw [hr]
    cases p.reqValid <;> cases p.rspReady <;> simp
    · exact h
    · exact (collect s).trans h
    · exact issue _
    · exact (collect _).trans (issue _)

/-- Whose turn a step is (R10). -/
theorem step_unscheduled {s : State} (h : s.schedule = []) : step s = unitExec s := by
  simp [step, takeTurn, h]

theorem step_unit {s : State} {ts : List Turn} (h : s.schedule = .unit :: ts) :
    step s = unitExec (s.withSchedule ts) := by
  simp [step, takeTurn, h]

theorem step_host {s : State} {p : HostPorts} {ts : List Turn} (h : s.schedule = .host p :: ts) :
    step s = .next (hostTurn Config.qdepth p (s.withSchedule ts)) := by
  simp [step, takeTurn, h]

end Sys2Proof.Machine
end

