-- ==== Sys2Proof/Machine/Assembler.lean ====
section
/-! DEFINITION. Assembler lines and the host that runs a program of them (30_encoding.md R60, R61). The line's text is taken as
already split into its parts; an operand's meaning, the pseudo-instruction, `.cmd` and `%n` are R60's. -/

namespace Sys2Proof.Machine

/-- The mnemonics of R53 and the pseudo-instruction `ERF` of R61. -/
inductive Mnemonic where
  | sin | cos | exp | erfU | erfS | sqrt | abs | csgn | floor | hypot | sq | erf
  deriving DecidableEq, Repr

/-- The command word a mnemonic stands for; `ERF` expands to `ERF.U` (R61). -/
def Mnemonic.fields : Mnemonic → CommandFields
  | .sin => ⟨0, 0, 0x0⟩
  | .cos => ⟨0, 0, 0x1⟩
  | .exp => ⟨0, 0, 0x2⟩
  | .erfU => ⟨0, 0, 0x3⟩
  | .erf => ⟨0, 0, 0x3⟩
  | .erfS => ⟨0, 1, 0x3⟩
  | .sqrt => ⟨0, 0, 0x4⟩
  | .abs => ⟨0, 0, 0x5⟩
  | .csgn => ⟨0, 0, 0x6⟩
  | .floor => ⟨0, 0, 0x7⟩
  | .hypot => ⟨0, 0, 0x8⟩
  | .sq => ⟨0, 0, 0x9⟩

/-- An operand of a line: a 32-bit pattern; a decimal literal `(-1)^neg * digits * 10^exp10`; an infinity; `%n`, the result
word of line `n`. -/
inductive AsmOperand where
  | pattern (w : Word)
  | decimal (neg : Bool) (digits : Nat) (exp10 : Int)
  | infinity (neg : Bool)
  | result (n : Nat)
  deriving DecidableEq, Repr

/-- A line: a mnemonic with one operand, one with two (`CSGN` and `HYPOT`), or `.cmd 0xNN a, b`. -/
inductive AsmLine where
  | one (m : Mnemonic) (a : AsmOperand)
  | two (m : Mnemonic) (a b : AsmOperand)
  | raw (c : CommandWord) (a b : AsmOperand)
  deriving DecidableEq, Repr

/-- The word of an operand (R60): a decimal literal stands for the binary32 pattern nearest to it under roundTiesToEven, a
zero literal for the zero of its sign; `%n` needs a line `n` already answered. -/
def AsmOperand.word (d : Draw) (results : List Word) : AsmOperand → Option Word
  | .pattern w => some w
  | .decimal neg digits e =>
    if digits = 0 then some ((Enc.zero neg).word32 d)
    else some ((roundRat binary32 neg (digits * 10 ^ e.toNat) (10 ^ (-e).toNat) 0).word32 d)
  | .infinity neg => some ((Enc.inf binary32 neg).word32 d)
  | .result n => results[n]?

/-- The request a line asks for, given the result words of the lines before it; a line with the wrong number of operands
asks for none. A one-operand command's `b` is `0x00000000` (R60). -/
def AsmLine.request (d : Draw) (results : List Word) : AsmLine → Option Request
  | .one m a =>
    if m = .csgn ∨ m = .hypot then none
    else (a.word d results).map fun wa => { cmd := joinCommand m.fields, a := wa, b := 0 }
  | .two m a b =>
    if m = .csgn ∨ m = .hypot then
      (a.word d results).bind fun wa =>
        (b.word d results).map fun wb => { cmd := joinCommand m.fields, a := wa, b := wb }
    else none
  | .raw c a b =>
    (a.word d results).bind fun wa => (b.word d results).map fun wb => { cmd := c, a := wa, b := wb }

/-- The responses to a program whose lines the host issues one after another, copying result words into `%n` operands; the
`n`-th line's transaction has the draw `ds n`. -/
def runLines (k : Coeffs) (ds : Nat → Draw) : List AsmLine → List Response → Option (List Response)
  | [], done => some done
  | l :: rest, done =>
    match l.request (ds done.length) (done.map Response.r) with
    | none => none
    | some q => runLines k ds rest (done ++ [transaction k (ds done.length) q])

end Sys2Proof.Machine
end

