-- ==== Sys2Proof/Tests/Slice0.lean ====
section
/-! SUPPORT. Small tests whose expected words are those of spec/95 and spec/96 or of the encoding tables, the checks of
WellFormed on ill-formed terms, and for every statement with hypotheses a concrete state and operands that meet them. -/

namespace Sys2Proof.Tests

-- One theorem at a time: many kernel evaluations at once need more threads than the check allows.
set_option Elab.async false

open Sys2Proof.Machine Sys2Proof.Claims

/-! ### Helpers -/

/-- A unit with the given requests in `REQQ`, just after reset otherwise. -/
def holding (q : List Request) : State := State.reset.withReqq q

/-- A unit just after reset with the given turns to come. -/
def scheduled (t : List Turn) : State := State.reset.withSchedule t

/-- The oldest response of the state a step leads to. -/
def oldest : Host.Outcome State Fault Refusal → Option Response
  | .next t => t.rspq.head?
  | _ => none

/-- The step from reset on the request `{cmd, a, b}`, written as the table numbers its bits. -/
def answerTo (cmd : CommandWord) (a b : Word) : Option Response :=
  oldest (step (State.reset.withFetchWord 72 ((b ++ a ++ cmd).toNat)))

/-- A draw of recognisable words. -/
def markedDraw : Draw := { unspec32 := 0xDEADBEEF#32, nanBits32 := 0xFFC12345#32, nanBits64 := 0x7FF0000000000001#64 }

/-! ### WellFormed: an ill-formed term for each check, refused -/

theorem test_reserved_bits_refused : (⟨0b001#3, 0#1, 0x3#4⟩ : CommandFields).reservedZero = false ∧
    (⟨0b001#3, 0#1, 0x3#4⟩ : CommandFields).wellFormed = false := by decide

theorem test_mode_bit_refused : (⟨0b000#3, 1#1, 0x5#4⟩ : CommandFields).modeAllowed = false ∧
    (⟨0b000#3, 1#1, 0x5#4⟩ : CommandFields).wellFormed = false := by decide

theorem test_reserved_op_refused : (⟨0b000#3, 0#1, 0xA#4⟩ : CommandFields).opAssigned = false ∧
    (⟨0b000#3, 0#1, 0xA#4⟩ : CommandFields).wellFormed = false := by decide

/-! ### The decoder (95_test_vectors.md section 2.1; words written bit by bit from R50 and R53) -/

theorem test_decode_sin : decodeTableWord 8 0b000_0_0000 = some (.sin 0) := by decide
theorem test_decode_cos : decodeTableWord 8 0b000_0_0001 = some (.cos 0) := by decide
theorem test_decode_exp : decodeTableWord 8 0b000_0_0010 = some (.exp 0) := by decide
theorem test_decode_erfU : decodeTableWord 8 0b000_0_0011 = some (.erfU 0) := by decide
theorem test_decode_erfS : decodeTableWord 8 0b000_1_0011 = some (.erfS 0) := by decide
theorem test_decode_sqrt : decodeTableWord 8 0b000_0_0100 = some (.sqrt 0) := by decide
theorem test_decode_abs : decodeTableWord 8 0b000_0_0101 = some (.abs 0) := by decide
theorem test_decode_csgn :
    decodeTableWord 72 0x7FC00000_3FC00000_06 = some (.csgn 0x3FC00000#32 0x7FC00000#32) := by decide
theorem test_decode_floor : decodeTableWord 8 0b000_0_0111 = some (.floor 0) := by decide
theorem test_decode_hypot :
    decodeTableWord 72 0x40800000_40400000_08 = some (.hypot 0x40400000#32 0x40800000#32) := by decide
theorem test_decode_sq : decodeTableWord 8 0b000_0_1001 = some (.sq 0) := by decide

theorem test_decode_illegal : ∀ w ∈ [0x0A, 0x0F, 0x10, 0x12, 0x14, 0x15, 0x1A, 0x20, 0x23, 0x33, 0x83, 0xFF],
    decodeTableWord 8 w = none := by decide

/-- 245 illegal words, eleven legal ones (30_encoding.md section 3). -/
theorem test_decode_count :
    ((List.range 256).filter fun w => (decodeTableWord 8 w).isSome) =
      [0x00, 0x01, 0x02, 0x03, 0x04, 0x05, 0x06, 0x07, 0x08, 0x09, 0x13] := by decide +kernel

/-- Requests printed in 95_test_vectors.md sections 2.3, P3. -/
theorem test_encode :
    (encode (.csgn 0xBFC00000#32 0x3F800000#32)).toVector = 0x06BFC000003F800000#72 ∧
    (encode (.erfS 0xBF000000#32)).toVector = 0x13BF00000000000000#72 := by decide

/-! ### One step per command, from reset (95_test_vectors.md section 2.3; no coefficient is read) -/

theorem test_step_abs : answerTo 0x05 0xFFC12345 0 = some ⟨0x7FC12345, false⟩ := by decide +kernel
theorem test_step_csgn : answerTo 0x06 0x3FC00000 0xFFC00000 = some ⟨0xBFC00000, false⟩ := by decide +kernel
theorem test_step_floor : answerTo 0x07 0xC0200000 0 = some ⟨0xC0400000, false⟩ ∧
    answerTo 0x07 0x80000000 0 = some ⟨0x00000000, false⟩ := by decide +kernel
theorem test_step_sqrt : answerTo 0x04 0x40000000 0 = some ⟨0x3FB504F3, false⟩ ∧
    answerTo 0x04 0x80000000 0 = some ⟨0x80000000, false⟩ := by decide +kernel
theorem test_step_sq : answerTo 0x09 0x1A800000 0 = some ⟨0x00000002, false⟩ ∧
    answerTo 0x09 0x5F7FFFFF 0xFFFFFFFF = some ⟨0x7F7FFFFE, false⟩ := by decide +kernel
theorem test_step_hypot : answerTo 0x08 0x3DCCCCCD 0x3E4CCCCD = some ⟨0x3E64F92F, false⟩ ∧
    answerTo 0x08 0x5FD02AB5 0x600AC723 = some ⟨0x7F800000, false⟩ := by decide +kernel
theorem test_step_exp_saturates : answerTo 0x02 0x42B17217 0 = some ⟨0x7F800000, false⟩ ∧
    answerTo 0x02 0xC2B17217 0 = some ⟨0x00000000, false⟩ := by decide +kernel
theorem test_step_illegal : (answerTo 0x15 0x3F800000 0).map Response.ill = some true := by decide +kernel

/-! ### The commands that read coefficients, with REF (96_test_vectors_kernels.md) -/

theorem test_sin : sinOp referenceCoeffs markedDraw 0x40800000 = 0xBF41BDD1 := by decide +kernel
theorem test_sin_outside : sinOp referenceCoeffs markedDraw 0x7FC00000 = 0xDEADBEEF := by decide +kernel
theorem test_cos : cosOp referenceCoeffs markedDraw 0x40800000 = 0xBF275526 := by decide +kernel
theorem test_cos_outside : cosOp referenceCoeffs markedDraw 0x50490FDB = 0xDEADBEEF := by decide +kernel
theorem test_erfU : erfUOp referenceCoeffs markedDraw 0xBF000000 = 0xBF053F58 ∧
    erfUOp referenceCoeffs markedDraw 0 = 0 := by decide +kernel
theorem test_erfS : erfSOp referenceCoeffs markedDraw 0xBF000000 = 0xBF053F58 ∧
    erfSOp referenceCoeffs markedDraw 0 = 0x80000000 := by decide +kernel
theorem test_exp : expOp referenceCoeffs markedDraw 0xC1200000 = 0x383E6BCE := by decide +kernel
theorem test_exp_threshold : expOp referenceCoeffs markedDraw 0xC2B17216 = 0x0020001F := by decide +kernel

/-- The wires of `EXP` on -0.0108 (section 2.7): `K = -1`, index 31, quotient -1. -/
theorem test_exp_wires :
    let kd := expShifted markedDraw (expScaled markedDraw 0xBC317218)
    kd = 0x4337FFFFFFFFFFFF ∧ int64 (expRounded markedDraw kd) = -1 ∧ expIndex (-1) = 31 ∧ expQuotient (-1) = -1 ∧
      expScale (-1) = 0x3FEF50765B6E4540 := by decide +kernel

/-! ### REDUCE and the primitives (95_test_vectors.md sections 2.2, 2.4) -/

theorem test_reduce : reduce markedDraw 0x40490FDA = some 0xC0490FDC ∧ reduce markedDraw 0xC0490FDC = some 0x40490FDA ∧
    reduce markedDraw 0x80000000 = some 0x80000000 ∧ reduce markedDraw 0xD0490FDB = some 0 ∧
    reduce markedDraw 0xD0490FDC = none := by decide +kernel

theorem test_add : fadd32 markedDraw 0x3F800001 0x33800000 = 0x3F800002 ∧
    fadd32 markedDraw 0x7F7FFFFF 0x73000000 = 0x7F800000 ∧ fadd32 markedDraw 0x7F7FFFFF 0x72FFFFFF = 0x7F7FFFFF ∧
    fadd32 markedDraw 0x00000000 0x80000000 = 0 ∧ fsub32 markedDraw 0x7F800000 0x7F800000 = 0xFFC12345 := by
  decide +kernel

theorem test_mul : fmul32 markedDraw 0x00000003 0x3F000000 = 0x00000002 ∧
    fmul32 markedDraw 0x80000001 0x3F000000 = 0x80000000 := by decide +kernel

theorem test_div : fdiv32 markedDraw 0x3F800000 0x40400000 = 0x3EAAAAAB ∧
    fdiv32 markedDraw 0x3F800000 0x80000000 = 0xFF800000 := by decide +kernel

theorem test_compare : flt32 0x80000000 0 = false ∧ fgt32 0x7FC00000 0 = false ∧
    flt32 0xFF800000 0xFF7FFFFF = true := by decide +kernel

theorem test_convert : widen markedDraw 0x00000001 = 0x36A0000000000000 ∧
    narrow markedDraw 0x47EFFFFFEFFFFFFF = 0x7F7FFFFF ∧ narrow markedDraw 0x3690000000000001 = 0x00000001 ∧
    narrow markedDraw 0xB690000000000000 = 0x80000000 := by decide +kernel

theorem test_integers : f2i 0xC0200000 = some (-2) ∧ f2i 0x4F000000 = none ∧
    i2f markedDraw (-3) = 0xC0400000 := by decide +kernel

/-! ### Queues and reset (95_test_vectors.md section 2.9, `QDEPTH = 2`) -/

/-- Two requests fit, a third does not. -/
theorem test_issue_full :
    let two := hostIssue 2 ⟨0x05, 0xBF800000, 0⟩ (hostIssue 2 ⟨0x09, 0x40400000, 0⟩ State.reset)
    two.reqq = [⟨0x09, 0x40400000, 0⟩, ⟨0x05, 0xBF800000, 0⟩] ∧ hostIssue 2 ⟨0x04, 0x40800000, 0⟩ two = two := by
  decide +kernel

/-- `unit_exec` answers the oldest request at the end of `RSPQ`. -/
theorem test_unit_exec :
    (match unitExec { holding [⟨0x05, 0xBF800000, 0⟩] with rspq := [⟨0x41100000, false⟩] } with
      | .next t => t.rspq
      | _ => []) = [⟨0x41100000, false⟩, ⟨0x3F800000, false⟩] := by decide +kernel

/-- `host_collect` takes the oldest response; `reset` drops both queues. -/
theorem test_collect_reset :
    let s := { holding [⟨0x04, 0x40800000, 0⟩] with rspq := [⟨0x41100000, false⟩, ⟨0x3F800000, false⟩] }
    (hostCollect s).collected = [⟨0x41100000, false⟩] ∧ (hostCollect s).rspq = [⟨0x3F800000, false⟩] ∧
      (resetUnit s).reqq = [] ∧ (resetUnit s).rspq = [] ∧ hostCollect State.reset = State.reset := by decide +kernel

/-- Program P1 (95_test_vectors.md section 3): the host copies each result into the next line. -/
theorem test_program_P1 :
    (runLines referenceCoeffs (fun _ => markedDraw)
      [.one .abs (.pattern 0xC0200000), .two .csgn (.result 0) (.pattern 0x80000000), .one .floor (.result 1)] []).map
      (fun rs => rs.map Response.r) = some [0x40200000, 0xC0200000, 0xC0400000] := by decide +kernel

/-- An assembler's decimal literals are rounded to nearest (R60): 1e-6 and -0.1. -/
theorem test_assembler_literals : (AsmOperand.decimal false 1 (-6)).word markedDraw [] = some 0x358637BD ∧
    (AsmOperand.decimal true 1 (-1)).word markedDraw [] = some 0xBDCCCCCD := by decide +kernel

/-! ### Witnesses: encoding and the machine's step -/

theorem witness_IllegalWordsRejectedByName :
    (splitCommand 0x20#8).rsv ≠ 0 ∧ (splitCommand 0xFF#8).rsv ≠ 0 ∧
    ((splitCommand 0x10#8).rsv = 0 ∧ (splitCommand 0x10#8).m = 1 ∧ (splitCommand 0x10#8).op ≠ 0x3) ∧
    ((splitCommand 0x1F#8).rsv = 0 ∧ (splitCommand 0x1F#8).m = 1 ∧ (splitCommand 0x1F#8).op ≠ 0x3) ∧
    (0x0A#8 ∈ [0x0A#8, 0x0B#8, 0x0C#8, 0x0D#8, 0x0E#8, 0x0F#8]) ∧
    decode ⟨0x20#8, 1, 2⟩ = .error .reservedBits ∧ decode ⟨0x1F#8, 1, 2⟩ = .error .modeBit ∧
    decode ⟨0x0F#8, 1, 2⟩ = .error .reservedOp := by decide +kernel

/-- The two words of `b` differ, and the command is one of the nine. -/
theorem witness_OneOperandCommandsIgnoreB : (0x09#8 ∈ [0x00#8, 0x01#8, 0x02#8, 0x03#8, 0x13#8, 0x04#8, 0x05#8, 0x07#8, 0x09#8]) ∧
    (transaction referenceCoeffs markedDraw ⟨0x09, 0x3F000000, 0⟩).r = 0x3E800000 ∧
    (transaction referenceCoeffs markedDraw ⟨0x09, 0x3F000000, 0xFFFFFFFF⟩).r = 0x3E800000 := by decide +kernel

theorem witness_EncodeOfDecodeIsIdentity : decode ⟨0x06#8, 1, 2⟩ = .ok (.csgn 1 2) ∧
    decode ⟨0x08#8, 1, 2⟩ = .ok (.hypot 1 2) ∧ decode ⟨0x13#8, 1, 2⟩ = .ok (.erfS 1) ∧
    (encode (.erfS 1)).b = 0 := by decide

theorem witness_StepRunsDecodedCommand :
    (holding [⟨0x05, 1, 2⟩, ⟨0xFF, 0, 0⟩]).reqq = ⟨0x05, 1, 2⟩ :: [⟨0xFF, 0, 0⟩] ∧
    decode ⟨0x05, 1, 2⟩ = .ok (.abs 1) ∧ (holding [⟨0x05, 1, 2⟩]).schedule = [] ∧
    ((holding [⟨0x05, 1, 2⟩]).withSchedule [.unit, .unit]).schedule = .unit :: [.unit] := by decide

theorem witness_PlacedWordRunsNext : decodeTableWord 8 0x13 = some (.erfS 0) ∧
    (State.reset.withFetchWord 8 0x13).reqq = [⟨0x13, 0, 0⟩] ∧
    (State.reset.withFetchWord 8 0x13).schedule = [.unit] := by decide

theorem witness_StepAnswersWithTransaction : decode ⟨0x00, 1, 2⟩ = .ok (.sin 1) ∧ 0x0A#8 ∉ legalWords ∧
    (holding [⟨0x0A, 1, 2⟩]).schedule = [] ∧ (holding [⟨0x0A, 1, 2⟩]).reqq = [⟨0x0A, 1, 2⟩] ∧
    (transaction referenceCoeffs markedDraw ⟨0x0A, 1, 2⟩) = ⟨0xDEADBEEF, true⟩ := by decide +kernel

theorem witness_IllegalCommandReported : 0x15#8 ∉ legalWords ∧ 0xFF#8 ∉ legalWords ∧
    (holding [⟨0x15, 1, 2⟩]).reqq = [⟨0x15, 1, 2⟩] ∧ (holding [⟨0x15, 1, 2⟩]).schedule = [] ∧
    ((holding [⟨0xFF, 1, 2⟩]).withSchedule [.unit]).schedule = .unit :: [] := by decide

theorem witness_ResponseDependsOnRequestAndDraw :
    let s := holding [⟨0x05, 1, 2⟩]
    let t := { holding [⟨0x05, 1, 2⟩, ⟨0xFF, 0, 0⟩] with rspq := [⟨7, true⟩], collected := [⟨8, false⟩] }
    s.schedule = [] ∧ t.schedule = [] ∧ s.reqq = ⟨0x05, 1, 2⟩ :: [] ∧ t.reqq = ⟨0x05, 1, 2⟩ :: [⟨0xFF, 0, 0⟩] ∧
      s.draws = t.draws ∧ s ≠ t := by decide

theorem witness_UnitDrainsInOrder : (holding [⟨0x05, 1, 2⟩, ⟨0xFF, 0, 0⟩]).schedule = [] ∧
    (holding [⟨0x05, 1, 2⟩, ⟨0xFF, 0, 0⟩]).reqq.length = 2 := by decide

/-! ### Witnesses: the queues, the host and reset -/

/-- A full unit, whose next turn is the host's offer of one more request. -/
def full : State :=
  { reqq := [], rspq := List.replicate Config.qdepth ⟨0, false⟩, draws := 0, schedule := [.host (HostPorts.issue ⟨0x05, 1, 2⟩)]
    collected := [] }

theorem witness_QueuesFitKeptByStep : State.reset.QueuesFit ∧ step State.reset = .next State.reset ∧
    full.QueuesFit ∧ ∃ t, step full = .next t := by
  refine ⟨Nat.zero_le _, rfl, ?_, _, step_host rfl⟩
  simp [State.QueuesFit, full, State.occupancy]

/-- `rst` alone, and `rst` while the host also offers a request and takes the response offered. -/
theorem witness_ResetEmptiesQueues :
    ((scheduled [.host HostPorts.reset]).schedule = .host HostPorts.reset :: [] ∧ HostPorts.reset.rst = true) ∧
    (let p : HostPorts := { rst := true, reqValid := true, reqCmd := 5, reqA := 1, reqB := 2, rspReady := true }
     let s := (scheduled [.host p]).withRspq [⟨7, true⟩]
     s.schedule = .host p :: [] ∧ p.rst = true ∧ rspValid s = true ∧
       hostTurn 2 p s = { s with reqq := [], rspq := [] }) := by decide

/-- `host_issue` with room and without, the bounds of its two cases. -/
theorem witness_MachineStepsAsTabled_issue :
    ((scheduled [.host (HostPorts.issue ⟨0x05, 1, 2⟩)]).schedule = .host (HostPorts.issue ⟨0x05, 1, 2⟩) :: [] ∧
      (scheduled [.host (HostPorts.issue ⟨0x05, 1, 2⟩)]).reqq.length +
        (scheduled [.host (HostPorts.issue ⟨0x05, 1, 2⟩)]).rspq.length < Config.qdepth) ∧
    (full.schedule = .host (HostPorts.issue ⟨0x05, 1, 2⟩) :: [] ∧
      Config.qdepth ≤ full.reqq.length + full.rspq.length) := by
  refine ⟨⟨rfl, Nat.succ_pos _⟩, rfl, ?_⟩
  simp [full]

theorem witness_MachineStepsAsTabled_others :
    ((scheduled [.unit]).schedule = .unit :: [] ∧ (scheduled [.unit]).reqq = []) ∧
    (((holding [⟨0x05, 1, 2⟩]).withSchedule [.unit]).schedule = .unit :: [] ∧
      ((holding [⟨0x05, 1, 2⟩]).withSchedule [.unit]).reqq = ⟨0x05, 1, 2⟩ :: []) ∧
    ((scheduled [.host HostPorts.collect]).schedule = .host HostPorts.collect :: [] ∧
      (scheduled [.host HostPorts.collect]).rspq = []) ∧
    (((scheduled [.host HostPorts.collect]).withRspq [⟨7, true⟩]).schedule = .host HostPorts.collect :: [] ∧
      ((scheduled [.host HostPorts.collect]).withRspq [⟨7, true⟩]).rspq = ⟨7, true⟩ :: []) ∧
    (scheduled [.host HostPorts.reset]).schedule = .host HostPorts.reset :: [] := by decide

/-- A host's turn that both issues and collects. -/
theorem witness_PortHandshakes :
    let p : HostPorts := { rst := false, reqValid := true, reqCmd := 5, reqA := 1, reqB := 2, rspReady := true }
    (scheduled [.host p]).schedule = .host p :: [] ∧ p.rst = false ∧
      (hostTurn 2 p { State.reset with rspq := [⟨7, true⟩] }).reqq = [⟨5, 1, 2⟩] ∧
      (hostTurn 2 p { State.reset with rspq := [⟨7, true⟩] }).collected = [⟨7, true⟩] ∧
      (hostTurn 1 p { State.reset with rspq := [⟨7, true⟩] }).reqq = [] := by decide

/-! ### Witnesses: BitOps -/

/-- Both ends of the domain, a negative zero, an integer operand, and the words next outside each end. -/
theorem witness_FloorIsMathematicalFloor :
    (∀ a ∈ [0xCF000000#32, 0x4EFFFFFF#32, 0x80000000#32, 0x80000001#32, 0x3F7FFFFF#32],
      isFinite32 a = true ∧ -2147483648 ≤ val32 a ∧ val32 a ≤ 2147483520) ∧
    (val32 0x4EFFFFFF#32 = ⌊val32 0x4EFFFFFF#32⌋ ∧ (0x4EFFFFFF#32 : Word) ≠ 0x80000000#32) ∧
    (∀ a ∈ [0xCF000001#32, 0x4F000000#32, 0x7F800000#32, 0x7FC00000#32],
      ¬(isFinite32 a = true ∧ -2147483648 ≤ val32 a ∧ val32 a ≤ 2147483520)) := by
  simp only [List.forall_mem_cons, List.not_mem_nil, false_implies, implies_true, and_true]
  decide +kernel

theorem witness_FloorOutsideDomain :
    (isFinite32 0x4F000000#32 = true ∧ isFinite32 0x4EFFFFFF#32 = true ∧ isFinite32 0xCF000000#32 = true ∧
      isFinite32 0xCF000001#32 = true) ∧
    isNaN32 0x7F800001#32 = true ∧ (0x4F000000#32 ≤ 0x4F000000#32 ∧ 0x4F000000#32 ≤ 0x7F7FFFFF#32) ∧
    (0xCF000001#32 ≤ 0xFF7FFFFF#32 ∧ 0xFF7FFFFF#32 ≤ 0xFF7FFFFF#32) := by decide +kernel

theorem witness_SqrtCorrectlyRounded :
    isZero32 0x80000000#32 = true ∧ isNaN32 0xFF800001#32 = true ∧
    (sign32 0x80000001#32 = true ∧ isZero32 0x80000001#32 = false) ∧
    (sign32 0xFF800000#32 = true ∧ isZero32 0xFF800000#32 = false) ∧
    (∀ a ∈ [0x00000001#32, 0x7F7FFFFF#32], isFinite32 a = true ∧ sign32 a = false ∧ isZero32 a = false) := by
  simp only [List.forall_mem_cons, List.not_mem_nil, false_implies, implies_true, and_true]
  decide +kernel

theorem witness_SqIsRoundedSquare :
    isNaN32 0x7F800001#32 = true ∧ (isNaN32 0x5F800000#32 = false ∧ 0x5F800000#32 ≤ mag32 0x5F800000#32) ∧
    (isNaN32 0xFF800000#32 = false ∧ 0x5F800000#32 ≤ mag32 0xFF800000#32) ∧ isZero32 0x80000000#32 = true ∧
    (isFinite32 0x5F7FFFFF#32 = true ∧ isZero32 0x5F7FFFFF#32 = false) ∧
    (isFinite32 0x80000001#32 = true ∧ isZero32 0x80000001#32 = false) := by decide +kernel

theorem witness_HypotFourRoundings :
    (isNaN32 0x7F800000#32 = false ∧ isNaN32 0x7FC00000#32 = true) ∧
    (isNaN32 0xFF800000#32 = false ∧ isNaN32 0x00000000#32 = false ∧ isInf32 0xFF800000#32 = true) ∧
    (isNaN32 0x80000000#32 = false ∧ isNaN32 0x00000001#32 = false) := by decide +kernel

/-! ### Witnesses: range reduction, sine and cosine -/

/-- `t2` inside the conversion's domain and outside it. -/
theorem witness_SinOperationByOperation :
    f2i (fadd32 markedDraw (fmul32 markedDraw 0x50490FDA#32 0x3E22F983#32) 0x3F000000#32) = some 2147483520 ∧
    f2i (fadd32 markedDraw (fmul32 markedDraw 0x50490FDB#32 0x3E22F983#32) 0x3F000000#32) = none := by decide +kernel

theorem witness_CosOperationByOperation :
    f2i (fadd32 markedDraw (fmul32 markedDraw 0xD0490FDB#32 0x3E22F983#32) 0x3F000000#32) = some (-2147483648) ∧
    f2i (fadd32 markedDraw (fmul32 markedDraw 0xD0490FDC#32 0x3E22F983#32) 0x3F000000#32) = none := by decide +kernel

theorem witness_ReduceDomainExact :
    (∀ x ∈ [0xD0490FDB#32, 0x50490FDA#32],
      isFinite32 x = true ∧ -13493038080 ≤ val32 x ∧ val32 x ≤ 13493037056 ∧ (reduce markedDraw x).isSome = true) ∧
    (∀ x ∈ [0xD0490FDC#32, 0x50490FDB#32, 0xFF800000#32, 0x7FC00000#32],
      ¬(isFinite32 x = true ∧ -13493038080 ≤ val32 x ∧ val32 x ≤ 13493037056) ∧ reduce markedDraw x = none) := by
  simp only [List.forall_mem_cons, List.not_mem_nil, false_implies, implies_true, and_true]
  decide +kernel

theorem witness_ReduceIdentityRange :
    ∀ x ∈ [0xC0490FDB#32, 0x40490FD9#32, 0x80000000#32, 0x00000001#32],
      isFinite32 x = true ∧ val32 0xC0490FDB#32 ≤ val32 x ∧ val32 x ≤ val32 0x40490FD9#32 ∧
        reduce markedDraw x = some x := by
  simp only [List.forall_mem_cons, List.not_mem_nil, false_implies, implies_true, and_true]
  decide +kernel

theorem witness_TrigAtZero : isZero32 0x00000000#32 = true ∧ isZero32 0x80000000#32 = true := by decide

/-! ### Witnesses: the error function and the exponential -/

theorem witness_ErfSortedTwoArms :
    (isNaN32 0x00000001#32 = false ∧ isZero32 0x00000001#32 = false ∧ sign32 0x00000001#32 = false) ∧
    (isNaN32 0x7F800000#32 = false ∧ isZero32 0x7F800000#32 = false ∧ sign32 0x7F800000#32 = false) ∧
    isNaN32 0x7FC00000#32 = true ∧ isZero32 0x00000000#32 = true ∧ sign32 0x80000001#32 = true := by decide

theorem witness_ErfStrategiesAgreeIff :
    (isNaN32 0x80000000#32 = false ∧ (0x80000000#32 : Word) ≠ 0) ∧ referenceCoeffs.fixedConstraints = true ∧
    isNaN32 0xFFFFFFFF#32 = true ∧
    sign32 (erfMag referenceCoeffs.erfC markedDraw (0x80000000#32 &&& 0x7FFFFFFF#32)) = false := by decide +kernel

theorem witness_ErfSortedOdd :
    (isNaN32 0xFF800000#32 = false ∧ isZero32 0xFF800000#32 = false) ∧
    (isNaN32 0x00000001#32 = false ∧ isZero32 0x00000001#32 = false) ∧ referenceCoeffs.fixedConstraints = true := by
  decide +kernel

/-- The two words next to each threshold, on both sides. -/
theorem witness_ExpSaturates :
    (isNaN32 0xC2B17217#32 = false ∧ val32 0xC2B17217#32 < -(val32 threshold) ∧ isInf32 0xC2B17217#32 = false) ∧
    (isNaN32 0x42B17217#32 = false ∧ val32 threshold < val32 0x42B17217#32 ∧ isInf32 0x42B17217#32 = false) ∧
    (∀ a ∈ [0x42B17216#32, 0xC2B17216#32], isInf32 a = false ∧ -(val32 threshold) ≤ val32 a ∧ val32 a ≤ val32 threshold) ∧
    isNaN32 0x7FC00000#32 = true := by
  simp only [List.forall_mem_cons, List.not_mem_nil, false_implies, implies_true, and_true]
  decide +kernel

/-- The same bounds as the statement writes them, on the extended reals. -/
theorem witness_ExpSaturates_extended :
    extended32 0xFF800000#32 < ((-(val32 threshold) : ℝ) : EReal) ∧ ((val32 threshold : ℝ) : EReal) < extended32 0x7F800000#32 ∧
    extended32 threshold ≤ ((val32 threshold : ℝ) : EReal) := by
  have hi : isInf32 0xFF800000#32 = true ∧ sign32 0xFF800000#32 = true := by decide
  have hp : isInf32 0x7F800000#32 = true ∧ sign32 0x7F800000#32 = false := by decide
  have ht : isInf32 threshold = false := by decide
  refine ⟨?_, ?_, ?_⟩
  · rw [extended32, if_pos hi.1, if_pos hi.2]
    exact EReal.bot_lt_coe _
  · rw [extended32, if_pos hp.1, if_neg (by simp [hp.2])]
    exact EReal.coe_lt_top _
  · rw [extended32, if_neg (by simp [ht])]

theorem witness_ExpOperationByOperation :
    ∀ a ∈ [0x42B17216#32, 0xC2B17216#32, 0x80000000#32, 0x00000001#32],
      isFinite32 a = true ∧ -(val32 threshold) ≤ val32 a ∧ val32 a ≤ val32 threshold := by
  simp only [List.forall_mem_cons, List.not_mem_nil, false_implies, implies_true, and_true]
  decide +kernel

theorem witness_ExpSpecialOperands :
    isNaN32 0x7F800001#32 = true ∧ isZero32 0x80000000#32 = true ∧ isZero32 0x00000000#32 = true := by decide

/-- ±THR, both zeros, a tie-free integer of `z`. -/
theorem witness_MagicRoundingExact :
    (∀ a ∈ [0x42B17216#32, 0xC2B17216#32, 0x00000000#32, 0x80000000#32, 0x80000001#32],
      isFinite32 a = true ∧ |val32 a| ≤ val32 threshold) ∧
    val64 (expScaled markedDraw 0#32) = int64 (expRounded markedDraw (expShifted markedDraw (expScaled markedDraw 0#32))) ∧
    (0#32 : Word) ≠ 0x80000000#32 ∧ int64 (expRounded markedDraw (expShifted markedDraw (expScaled markedDraw 0#32))) = 0 := by
  simp only [List.forall_mem_cons, List.not_mem_nil, false_implies, implies_true, and_true]
  decide +kernel

theorem witness_ScaleReadFromBits :
    ∀ a ∈ [0x42B17216#32, 0xC2B17216#32], isFinite32 a = true ∧ |val32 a| ≤ val32 threshold ∧
      expIndex (int64 (expRounded markedDraw (expShifted markedDraw (expScaled markedDraw a)))) = 0 := by
  simp only [List.forall_mem_cons, List.not_mem_nil, false_implies, implies_true, and_true]
  decide +kernel

theorem witness_ExponentInjectionStaysInField : (-4096 : Int) ≤ -4096 ∧ (-4096 : Int) ≤ 4096 ∧ (4096 : Int) ≤ 4096 ∧
    exp64 (expScale (-4096)) = 0x37F#11 ∧ exp64 (expScale 4096) = 0x47F#11 := by decide +kernel

/-! ### Witnesses: the arithmetic primitives -/

theorem witness_AdditionRoundsOnce_binary32 :
    isNaN32 0x7F800001#32 = true ∧
    (isInf32 0x7F800000#32 = true ∧ isInf32 0xFF800000#32 = true ∧ sign32 0x7F800000#32 ≠ sign32 0xFF800000#32) ∧
    (isNaN32 0x7F800000#32 = false ∧ (isInf32 0x7F800000#32 = true → sign32 0x7F800000#32 = sign32 0x7F800000#32)) ∧
    (isFinite32 0x7F7FFFFF#32 = true) ∧ (isZero32 0x00000000#32 = true ∧ isZero32 0x80000000#32 = true) ∧
    (val32 0x3F800000#32 + val32 0xBF800000#32 = 0 ∧ isZero32 0x3F800000#32 = false) ∧
    (val32 0x7F7FFFFF#32 + val32 0x73000000#32 = 2 ^ 128 - 2 ^ 103) := by decide +kernel

theorem witness_AdditionRoundsOnce_binary64 :
    isNaN64 0x7FF0000000000001#64 = true ∧
    (isInf64 0x7FF0000000000000#64 = true ∧ isInf64 0xFFF0000000000000#64 = true ∧
      sign64 0x7FF0000000000000#64 ≠ sign64 0xFFF0000000000000#64) ∧
    (isNaN64 0x7FF0000000000000#64 = false ∧ isFinite64 0x7FEFFFFFFFFFFFFF#64 = true) ∧
    (isZero64 0x0000000000000000#64 = true ∧ isZero64 0x8000000000000000#64 = true) ∧
    (val64 0x3FF0000000000000#64 + val64 0xBFF0000000000000#64 = 0 ∧ isZero64 0x3FF0000000000000#64 = false) ∧
    (val64 0x7FEFFFFFFFFFFFFF#64 + val64 0x7C90000000000000#64 = 2 ^ 1024 - 2 ^ 970) := by decide +kernel

theorem witness_MultiplicationRoundsOnce_binary32 :
    (isInf32 0x7F800000#32 = true ∧ isZero32 0x80000000#32 = true ∧ isNaN32 0x7FC00000#32 = true) ∧
    (isNaN32 0xFF800000#32 = false ∧ isInf32 0xFF800000#32 = true ∧ isZero32 0x00000001#32 = false ∧
      isNaN32 0x00000001#32 = false) ∧
    (isFinite32 0x80000000#32 = true ∧ isFinite32 0x7F7FFFFF#32 = true) ∧
    (isFinite32 0x80000001#32 = true ∧ isZero32 0x80000001#32 = false ∧ isFinite32 0x3F000000#32 = true ∧
      isZero32 0x3F000000#32 = false) := by decide +kernel

theorem witness_MultiplicationRoundsOnce_binary64 :
    (isInf64 0x7FF0000000000000#64 = true ∧ isZero64 0x8000000000000000#64 = true ∧
      isNaN64 0x7FF0000000000001#64 = true) ∧
    (isNaN64 0xFFF0000000000000#64 = false ∧ isInf64 0xFFF0000000000000#64 = true ∧
      isZero64 0x0000000000000001#64 = false ∧ isNaN64 0x0000000000000001#64 = false) ∧
    (isFinite64 0x8000000000000000#64 = true ∧ isFinite64 0x7FEFFFFFFFFFFFFF#64 = true) ∧
    (isFinite64 0x8000000000000001#64 = true ∧ isZero64 0x8000000000000001#64 = false ∧
      isFinite64 0x3FE0000000000000#64 = true ∧ isZero64 0x3FE0000000000000#64 = false) := by decide +kernel

theorem witness_DivisionRoundsOnce :
    (isZero32 0x80000000#32 = true ∧ isInf32 0xFF800000#32 = true ∧ isNaN32 0x7FC00000#32 = true) ∧
    (isFinite32 0x00000000#32 = true ∧ isFinite32 0x00000001#32 = true ∧ isZero32 0x00000001#32 = false) ∧
    (isFinite32 0x7F7FFFFF#32 = true ∧ isZero32 0x7F7FFFFF#32 = false) := by decide +kernel

theorem witness_WidenIsExact : isNaN32 0x7F800001#32 = true ∧ isInf32 0xFF800000#32 = true ∧ isZero32 0x80000000#32 = true ∧
    (isFinite32 0x00000001#32 = true ∧ isZero32 0x00000001#32 = false) ∧
    (isFinite32 0xFF7FFFFF#32 = true ∧ isZero32 0xFF7FFFFF#32 = false) := by decide +kernel

theorem witness_NarrowRoundsOnce : isNaN64 0x7FF0000000000001#64 = true ∧ isInf64 0xFFF0000000000000#64 = true ∧
    isZero64 0x8000000000000000#64 = true ∧
    (∀ y ∈ [0x0000000000000001#64, 0xFFEFFFFFFFFFFFFF#64, 0x47EFFFFFF0000000#64],
      isFinite64 y = true ∧ isZero64 y = false) := by
  simp only [List.forall_mem_cons, List.not_mem_nil, false_implies, implies_true, and_true]
  decide +kernel

theorem witness_FloatToIntegerTruncates : f2i 0x3F7FFFFF#32 = some 0 ∧ f2i 0x80000001#32 = some 0 ∧
    (0 ≤ val32 0x80000000#32) ∧ val32 0x80000001#32 < 0 ∧ 0 ≤ val32 0x3F7FFFFF#32 := by decide +kernel

theorem witness_IntegerToFloatExactOnTruncation :
    ((-2 ^ 31 : Int) ≤ -2 ^ 31 ∧ (2 ^ 31 - 1 : Int) ≤ 2 ^ 31 - 1 ∧ (1 : Int) ≠ 0) ∧
    f2i 0x4B000000#32 = some 8388608 ∧ 2 ^ 23 ≤ |val32 0x4B000000#32| ∧ f2i 0xCF000000#32 = some (-2147483648) := by
  decide +kernel

/-- `u = -0` with REF's coefficients, and a NaN argument, in both formats. -/
theorem witness_HornerEvaluates :
    (isZero32 0x80000000#32 = true ∧ isFinite32 referenceCoeffs.sinC.c5 = true ∧
      (∀ c ∈ [referenceCoeffs.sinC.c4, 0x80000000#32], isFinite32 c = true) ∧
      isFinite32 referenceCoeffs.sinC.c0 = true ∧ isZero32 referenceCoeffs.sinC.c0 = false ∧
      isNaN32 0x7F800001#32 = true) ∧
    (isZero64 0x8000000000000000#64 = true ∧ isFinite64 referenceCoeffs.expC.c3 = true ∧
      (∀ c ∈ [referenceCoeffs.expC.c2, 0x8000000000000000#64], isFinite64 c = true) ∧
      isFinite64 referenceCoeffs.expC.c0 = true ∧ isZero64 referenceCoeffs.expC.c0 = false ∧
      isNaN64 0x7FF0000000000001#64 = true) := by
  simp only [List.forall_mem_cons, List.not_mem_nil, false_implies, implies_true, and_true]
  decide +kernel

theorem witness_NaNPatternIsFree : isNaN32 0xFF800001#32 = true ∧ isNaN64 0xFFFFFFFFFFFFFFFF#64 = true := by decide +kernel

/-- REF meets the constraints on the OPEN vectors (43_poly_kernels.md R152, 44_exp_engine.md R182), with (f) on magnitudes of
96_test_vectors_kernels.md section 2.6. -/
theorem witness_ConfigurationMeetsConstraints :
    referenceCoeffs.admissible [0x00000000#32, 0x00000001#32, 0x3F000000#32, 0x41200000#32, 0x7F800000#32] = true := by
  decide +kernel

/-- A vector whose `ERFMAG` is negative at 0.5 breaks (f) there: `y = 1/2`, so `1 - 1/y8 = -255`. -/
theorem test_modes_disagree :
    let k : Coeffs := { referenceCoeffs with erfC := ⟨0x3F000000#32, 0, 0, 0, 0, 0, 0⟩ }
    erfMag k.erfC markedDraw 0x3F000000#32 = 0xC37F0000#32 ∧ k.modesAgreeOn [0x3F000000#32] = false ∧
      erfUOp k markedDraw 0x3F000000#32 ≠ erfSOp k markedDraw 0x3F000000#32 := by decide +kernel

theorem witness_ErfModesAgreeWhereUsed :
    (referenceCoeffs.modesAgreeOn [0x3F000000#32] = true ∧ mag32 0xBF000000#32 ∈ [0x3F000000#32] ∧
      isNaN32 0xBF000000#32 = false ∧ (0xBF000000#32 : Word) ≠ 0) ∧
    (mag32 0xC1200000#32 ∈ Config.erfWords ∧ isNaN32 0xC1200000#32 = false ∧ (0xC1200000#32 : Word) ≠ 0) ∧
    (mag32 0x80000000#32 ∈ Config.erfWords ∧ isNaN32 0x80000000#32 = false ∧ (0x80000000#32 : Word) ≠ 0) := by
  refine ⟨by decide +kernel, ⟨?_, by decide, by decide⟩, ?_, by decide, by decide⟩
  · exact List.mem_append_left _ (by decide)
  · exact List.mem_append_left _ (by decide)

end Sys2Proof.Tests
end

section
/-! PROOFS. The decoder accepts exactly the legal command words (30_encoding.md R55, R57), and the step answers the head of
`REQQ` with `EXEC` of it (10_state.md R18). -/

namespace Sys2Proof

open Sys2Proof.Machine Sys2Proof.Claims

/-- The command map assigns `OP` up to `0x9` whatever the mode bit and the operand words (30_encoding.md R57). -/
theorem isSome_commandOf (m : BitVec 1) (op : BitVec 4) (a b : Word) :
    (commandOf m op a b).isSome = decide (op ≤ 0x9) := by
  obtain ⟨n, hn⟩ := op
  interval_cases n <;> rfl

/-- The decoder accepts a request when the three checks on its command word's fields pass (30_encoding.md R55). -/
theorem exists_decode_ok_iff_wellFormed (q : Request) :
    (∃ i, decode q = .ok i) ↔ (splitCommand q.cmd).wellFormed = true := by
  have hop := isSome_commandOf (splitCommand q.cmd).m (splitCommand q.cmd).op q.a q.b
  rw [CommandFields.wellFormed, CommandFields.opAssigned, ← hop]
  obtain ⟨hr, hd⟩ | ⟨hr, hm, hd⟩ | ⟨hr, hm, ⟨hc, hd⟩ | ⟨i, hc, hd⟩⟩ := decode_cases q
  · simp [hd, hr]
  · simp [hd, hm]
  · simp [hd, hc]
  · simp [hd, hr, hm, hc]

theorem wellFormed_splitCommand_iff_mem_legalWords (c : CommandWord) :
    (splitCommand c).wellFormed = true ↔ c ∈ legalWords := by
  revert c
  decide +kernel

/-- The legal command words are those of the table's rows (30_encoding.md R53). -/
theorem exists_decode_ok_iff_mem_legalWords (q : Request) : (∃ i, decode q = .ok i) ↔ q.cmd ∈ legalWords :=
  (exists_decode_ok_iff_wellFormed q).trans (wellFormed_splitCommand_iff_mem_legalWords q.cmd)

theorem exists_decode_error_of_notMem_legalWords {q : Request} (h : q.cmd ∉ legalWords) :
    ∃ e, decode q = .error e := by
  cases hd : decode q with
  | error e => exact ⟨e, rfl⟩
  | ok i => exact absurd ((exists_decode_ok_iff_mem_legalWords q).mp ⟨i, hd⟩) h

/-- `EXEC` of an illegal command word (10_state.md R18, 60_exceptions.md R201). -/
theorem transaction_of_notMem_legalWords {q : Request} (h : q.cmd ∉ legalWords) (k : Coeffs) (d : Draw) :
    transaction k d q = { r := d.unspec32, ill := true } := by
  obtain ⟨e, he⟩ := exists_decode_error_of_notMem_legalWords h
  exact transaction_error he k d

/-- With no turn scheduled the step is the unit's, and it answers the head of `REQQ` (10_state.md R16, R18). -/
theorem step_unscheduled_cons {s : State} {q : Request} {rest : List Request} (hs : s.schedule = [])
    (hq : s.reqq = q :: rest) :
    step s = .next ((s.withReqq rest).respond (transaction Config.coeffs s.draw q)) :=
  (step_unscheduled hs).trans (unitExec_cons hq)

/-- Settles O9: a legal word by `transaction_ok`, an illegal one because the decoder rejects it, and the step by what the unit's
turn does with the head of `REQQ`. -/
theorem stepAnswersWithTransaction : Obligations.StepAnswersWithTransaction := by
  refine ⟨fun k d q => ⟨fun i hi => ?legal, fun hc => ?illegal⟩, fun s q rest hs hq => ?step⟩
  case legal => exact transaction_ok hi k d
  case illegal => exact transaction_of_notMem_legalWords hc k d
  case step => exact step_unscheduled_cons hs hq

end Sys2Proof
end

section
/-! PROOFS. The rows of the opcode map are what the decoder reads (30_encoding.md R53, R55), and a one-operand command's response
does not depend on `b` (R56). -/

namespace Sys2Proof

open Sys2Proof.Machine Sys2Proof.Claims

/-! ### The rows of the table -/

/-- A command word that passes R55's three checks decodes to the command its fields name. -/
theorem decode_of_commandOf {q : Request} {i : Instr} (hw : (splitCommand q.cmd).wellFormed = true)
    (hc : commandOf (splitCommand q.cmd).m (splitCommand q.cmd).op q.a q.b = some i) : decode q = .ok i := by
  simp only [CommandFields.wellFormed, Bool.and_eq_true] at hw
  obtain ⟨⟨hr, hm⟩, -⟩ := hw
  rw [decode_op hr hm, hc]

theorem splitCommand_of_mem_commandTable : ∀ r ∈ commandTable, splitCommand r.1 = r.2.1 := by
  simp only [commandTable, List.forall_mem_cons]
  decide

/-- The map from `M` and `OP` to commands has R53's rows, with the operands each row names. -/
theorem commandOf_of_mem_commandTable :
    ∀ r ∈ commandTable, ∀ a b : Word, commandOf r.2.1.m r.2.1.op a b = some (r.2.2 a b) := by
  simp only [commandTable, List.forall_mem_cons]
  exact ⟨fun _ _ => rfl, fun _ _ => rfl, fun _ _ => rfl, fun _ _ => rfl, fun _ _ => rfl, fun _ _ => rfl,
    fun _ _ => rfl, fun _ _ => rfl, fun _ _ => rfl, fun _ _ => rfl, fun _ _ => rfl, List.forall_mem_nil _⟩

theorem decode_of_mem_commandTable {r : CommandWord × CommandFields × (Word → Word → Instr)} (hr : r ∈ commandTable)
    (a b : Word) : decode ⟨r.1, a, b⟩ = .ok (r.2.2 a b) := by
  have hlegal : r.1 ∈ legalWords := List.mem_map_of_mem hr
  refine decode_of_commandOf ((wellFormed_splitCommand_iff_mem_legalWords r.1).mpr hlegal) ?_
  rw [splitCommand_of_mem_commandTable r hr]
  exact commandOf_of_mem_commandTable r hr a b

/-- Settles O1: the fields and the command row by row of the table, and the legal words because they are the ones whose fields
pass the decoder's three checks. -/
theorem commandWordsDecodeAsTabled : Obligations.CommandWordsDecodeAsTabled :=
  ⟨fun r hr => ⟨splitCommand_of_mem_commandTable r hr, decode_of_mem_commandTable hr⟩,
    exists_decode_ok_iff_mem_legalWords⟩

/-! ### The second operand word -/

/-- Only CSGN (`OP = 0x6`) and HYPOT (`OP = 0x8`) carry `b` into the command (30_encoding.md R54, R56). -/
theorem commandOf_congr_b {op : BitVec 4} (hcsgn : op ≠ 0x6) (hhypot : op ≠ 0x8) (m : BitVec 1) (a b b' : Word) :
    commandOf m op a b = commandOf m op a b' := by
  obtain ⟨n, hn⟩ := op
  interval_cases n
  -- The goals stand in the order of `OP` from 0, so the seventh is CSGN's and the ninth HYPOT's.
  on_goal 9 => exact absurd rfl hhypot
  on_goal 7 => exact absurd rfl hcsgn
  all_goals rfl

theorem decode_congr_b {c : CommandWord} (hcsgn : (splitCommand c).op ≠ 0x6) (hhypot : (splitCommand c).op ≠ 0x8)
    (a b b' : Word) : decode ⟨c, a, b⟩ = decode ⟨c, a, b'⟩ := by
  simp only [decode, commandOf_congr_b hcsgn hhypot _ a b b']

/-- `EXEC` reads a request only through the decoder (10_state.md R18). -/
theorem transaction_congr {q q' : Request} (h : decode q = decode q') (k : Coeffs) (d : Draw) :
    transaction k d q = transaction k d q' := by
  simp only [transaction, illBit, h]

theorem op_ne_of_oneOperand : ∀ c ∈ [0x00#8, 0x01#8, 0x02#8, 0x03#8, 0x13#8, 0x04#8, 0x05#8, 0x07#8, 0x09#8],
    (splitCommand c).op ≠ 0x6 ∧ (splitCommand c).op ≠ 0x8 := by
  decide

/-- Settles O4: a one-operand command word decodes to the same command with any `b`, and `EXEC` reads nothing else of it. -/
theorem oneOperandCommandsIgnoreB : Obligations.OneOperandCommandsIgnoreB := by
  intro k d a b b' c hc
  obtain ⟨hcsgn, hhypot⟩ := op_ne_of_oneOperand c hc
  exact transaction_congr (decode_congr_b hcsgn hhypot a b b') k d

end Sys2Proof
end

section
/-! PROOFS. Rounding to nearest, for a format (40_fp_numerics.md R76): the significand that `RN_fmt` picks is nearest to the value
among all the format's values, and packing keeps it below the overflow bound and gives the infinity from the bound on. -/

namespace Sys2Proof.Machine

/-! ### Formats -/

/-- What binary32 and binary64 (R70, R71) have in common. -/
structure Fmt.Valid (f : Fmt) : Prop where
  two_le_p : 2 ≤ f.p
  one_le_bias : 1 ≤ f.bias
  expMax_eq : f.expMax = 2 * f.bias + 1

theorem binary32_valid : binary32.Valid := ⟨by decide, by decide, rfl⟩

theorem binary64_valid : binary64.Valid := ⟨by decide, by decide, rfl⟩

/-- The unit in the last place at exponent `e`, R76's `u`. -/
noncomputable def Fmt.ulp (f : Fmt) (e : Int) : ℝ := 2 ^ (e - (f.p - 1 : Nat))

/-- The magnitude from which on R76 gives an infinity: the largest finite value plus half its last place. -/
noncomputable def Fmt.overflowBound (f : Fmt) : ℝ := 2 ^ (f.emax + 1) - 2 ^ (f.emax - f.p)

/-- `n * 2^x` is the magnitude of a finite word of the format (R73). -/
structure Fmt.Holds (f : Fmt) (n : Nat) (x : Int) : Prop where
  lt_pow : n < 2 ^ f.p
  le_exp : f.emin - (f.p - 1 : Nat) ≤ x
  exp_le : x ≤ f.emax - (f.p - 1 : Nat)

theorem Fmt.ulp_pos (f : Fmt) (e : Int) : 0 < f.ulp e := by
  unfold Fmt.ulp
  positivity

/-- The binade of exponent `e` begins at the significand `2^(p-1)`. -/
theorem Fmt.pow_mul_ulp (f : Fmt) (e : Int) : (2 : ℝ) ^ (f.p - 1) * f.ulp e = 2 ^ e := by
  rw [Fmt.ulp, ← zpow_natCast, ← zpow_add₀ (by norm_num)]
  congr 1
  ring

/-- It ends at the significand `2^p`. -/
theorem Fmt.Valid.pow_p_mul_ulp {f : Fmt} (hf : f.Valid) (e : Int) : (2 : ℝ) ^ f.p * f.ulp e = 2 ^ (e + 1) := by
  have hp := hf.two_le_p
  rw [Fmt.ulp, ← zpow_natCast, ← zpow_add₀ (by norm_num)]
  congr 1
  omega

/-- The overflow bound in units of the last binade. -/
theorem Fmt.Valid.overflowBound_eq {f : Fmt} (hf : f.Valid) :
    f.overflowBound = 2 ^ f.p * f.ulp f.emax - f.ulp f.emax / 2 := by
  have hp := hf.two_le_p
  have half : f.ulp f.emax / 2 = 2 ^ (f.emax - f.p) := by
    rw [Fmt.ulp, div_eq_iff (by norm_num), ← zpow_add_one₀ (by norm_num)]
    congr 1
    omega
  rw [Fmt.overflowBound, hf.pow_p_mul_ulp, half]

theorem Fmt.pow_emax_le_overflowBound (f : Fmt) : (2 : ℝ) ^ f.emax ≤ f.overflowBound := by
  have h1 : (2 : ℝ) ^ (f.emax - f.p) ≤ 2 ^ f.emax := zpow_le_zpow_right₀ (by norm_num) (by omega)
  have h2 : (2 : ℝ) ^ (f.emax + 1) = 2 ^ f.emax * 2 := zpow_add_one₀ (by norm_num) _
  rw [Fmt.overflowBound, h2]
  linarith

theorem binary32_overflowBound : binary32.overflowBound = 2 ^ 128 - 2 ^ 103 := by
  norm_num [Fmt.overflowBound, Fmt.emax, binary32]

theorem binary64_overflowBound : binary64.overflowBound = 2 ^ 1024 - 2 ^ 970 := by
  norm_num [Fmt.overflowBound, Fmt.emax, binary64]

/-! ### The real a datum stands for -/

/-- The factor `(-1)^s` of R73. -/
def signFactor (s : Bool) : ℝ := if s then -1 else 1

theorem signedInt_cast (s : Bool) (m : Nat) : ((signedInt s m : Int) : ℝ) = signFactor s * m := by
  cases s <;> simp [signedInt, signFactor]

theorem Datum.val_fin (s : Bool) (m : Nat) (x : Int) : ((Datum.fin s m x).val : ℝ) = signFactor s * (m * 2 ^ x) := by
  rw [Datum.val]
  push_cast
  rw [signedInt_cast, mul_assoc]

theorem abs_signFactor_mul (s : Bool) (r : ℝ) : |signFactor s * r| = |r| := by
  cases s <;> simp [signFactor]

theorem signFactor_mul_self (s : Bool) : signFactor s * signFactor s = 1 := by
  cases s <;> simp [signFactor]

theorem signFactor_xor (s t : Bool) : signFactor (s ^^ t) = signFactor s * signFactor t := by
  cases s <;> cases t <;> simp [signFactor]

theorem signFactor_mul_neg_iff (s : Bool) {r : ℝ} (hr : 0 < r) : signFactor s * r < 0 ↔ s = true := by
  cases s <;> simp [signFactor, hr, hr.le]

/-- Every finite datum of the format's fields is held by the format, and it is zero only when both fields are. -/
theorem exists_datumOf_eq_fin {f : Fmt} (hf : f.Valid) (s : Bool) {E m : Nat} (hE : E < f.expMax) (hm : m < 2 ^ (f.p - 1)) :
    ∃ n x, datumOf f s E m = .fin s n x ∧ f.Holds n x ∧ (n = 0 ↔ E = 0 ∧ m = 0) := by
  obtain ⟨hp, hb, hx⟩ := hf
  have hemin : f.emin = 1 - (f.bias : Int) := rfl
  have hemax : f.emax = f.bias := rfl
  have hpow : 2 ^ f.p = 2 ^ (f.p - 1) * 2 := by rw [← pow_succ, show f.p - 1 + 1 = f.p by omega]
  have hpos : 0 < 2 ^ (f.p - 1) := by positivity
  rw [datumOf, if_neg hE.ne]
  by_cases h0 : E = 0
  · rw [if_pos h0]
    exact ⟨m, _, rfl, ⟨by omega, le_rfl, by omega⟩, by simp [h0]⟩
  · rw [if_neg h0]
    exact ⟨_, _, rfl, ⟨by omega, by omega, by omega⟩, by omega⟩

/-- A value with exponent field 0 is below the least normal. -/
theorem abs_val_datumOf_zero_lt {f : Fmt} (hf : f.Valid) (s : Bool) {m : Nat} (hm : m < 2 ^ (f.p - 1)) :
    |((datumOf f s 0 m).val : ℝ)| < 2 ^ f.emin := by
  have hx := hf.expMax_eq
  rw [datumOf, if_neg (by omega), if_pos rfl, Datum.val_fin, abs_signFactor_mul, abs_of_nonneg (by positivity),
    ← f.pow_mul_ulp f.emin]
  have hmr : (m : ℝ) < 2 ^ (f.p - 1) := by exact_mod_cast hm
  have hu := f.ulp_pos f.emin
  exact mul_lt_mul_of_pos_right hmr hu

/-! ### The significand picked -/

/-- What R76 computes before packing the magnitude `μ`: the significand `i` at exponent `e`, the binade of `μ` clamped at `emin`,
is within half a unit of `μ`, and even when exactly half a unit away. -/
structure NearestSignificand (f : Fmt) (μ : ℝ) (i : Nat) (e : Int) : Prop where
  emin_le : f.emin ≤ e
  le_pow : i ≤ 2 ^ f.p
  binade : e = f.emin ∨ (2 ^ (f.p - 1) ≤ i ∧ (2 : ℝ) ^ e ≤ μ)
  lt : μ < 2 ^ (e + 1)
  near : |μ - i * f.ulp e| ≤ f.ulp e / 2
  even : |μ - i * f.ulp e| = f.ulp e / 2 → i % 2 = 0

/-- The rounding of a rational picks such a significand. -/
theorem roundRat_nearest {f : Fmt} (hf : f.Valid) (s : Bool) {num den : Nat} (hn : 0 < num) (hd : 0 < den) (x : Int) :
    ∃ i e, roundRat f s num den x = finishRound f s i e ∧ NearestSignificand f ((num : ℝ) / den * 2 ^ x) i e := by
  have hp := hf.two_le_p
  obtain ⟨e, i, heq, hmin, hi, hbin, hlt, hnear, heven⟩ := roundRat_spec f (by omega) s hn hd x
  have hμ : (num : ℝ) / den * 2 ^ x = ((num / den * 2 ^ x : ℚ) : ℝ) := by push_cast; rfl
  have hr : (i : ℝ) * f.ulp e = ((i * 2 ^ (e - (f.p - 1 : Nat)) : ℚ) : ℝ) := by rw [Fmt.ulp]; push_cast; rfl
  have hu : f.ulp e / 2 = ((2 ^ (e - (f.p - 1 : Nat)) / 2 : ℚ) : ℝ) := by rw [Fmt.ulp]; push_cast; rfl
  have hpow (z : Int) : (2 : ℝ) ^ z = ((2 ^ z : ℚ) : ℝ) := by push_cast; rfl
  refine ⟨i, e, heq, hmin, hi, hbin.imp_right fun h => ⟨h.1, ?_⟩, ?_, ?_, ?_⟩
  · rw [hμ, hpow]
    exact Rat.cast_le.2 h.2
  · rw [hμ, hpow]
    exact Rat.cast_lt.2 hlt
  · rw [hμ, hr, hu, ← Rat.cast_sub, ← Rat.cast_abs]
    exact Rat.cast_le.2 hnear
  · rw [hμ, hr, hu, ← Rat.cast_sub, ← Rat.cast_abs]
    exact fun h => heven (Rat.cast_injective h)

/-- No other multiple of the unit is nearer, and the significand is even when one is as near: two multiples are a unit apart. -/
theorem NearestSignificand.nearest_multiple {f : Fmt} {μ : ℝ} {i : Nat} {e : Int} (h : NearestSignificand f μ i e) (k : Int) :
    |μ - i * f.ulp e| ≤ |μ - k * f.ulp e| ∧
      (k * f.ulp e ≠ i * f.ulp e → |μ - k * f.ulp e| = |μ - i * f.ulp e| → i % 2 = 0) := by
  have hu := f.ulp_pos e
  have hnear := h.near
  rcases eq_or_ne k i with rfl | hk
  · simp
  · have h1 : (1 : ℝ) ≤ |(k : ℝ) - i| := by
      have : (1 : Int) ≤ |k - i| := Int.one_le_abs (sub_ne_zero.2 hk)
      exact_mod_cast this
    have apart : f.ulp e ≤ |k * f.ulp e - i * f.ulp e| := by
      rw [← sub_mul, abs_mul, abs_of_pos hu]
      nlinarith
    have triangle : |k * f.ulp e - i * f.ulp e| ≤ |μ - i * f.ulp e| + |μ - k * f.ulp e| := by
      rw [abs_sub_comm μ (k * f.ulp e), add_comm]
      exact abs_sub_le _ _ _
    exact ⟨by linarith, fun _ heq => h.even (by linarith)⟩

/-- A magnitude the format holds is a multiple of the unit or lies below the binade. -/
theorem Fmt.Holds.multiple_or_lt {f : Fmt} (hf : f.Valid) {n : Nat} {x : Int} (h : f.Holds n x) (e : Int) :
    (∃ k : Nat, (n : ℝ) * 2 ^ x = k * f.ulp e) ∨ ((n : ℝ) * 2 ^ x < 2 ^ e ∧ f.emin < e) := by
  have hp := hf.two_le_p
  have hle := h.le_exp
  rcases le_or_gt (e - (f.p - 1 : Nat)) x with hx | hx
  · left
    refine ⟨n * 2 ^ (x - (e - (f.p - 1 : Nat))).toNat, ?_⟩
    have hz : x = ((x - (e - (f.p - 1 : Nat))).toNat : Int) + (e - (f.p - 1 : Nat)) := by omega
    push_cast
    rw [Fmt.ulp, mul_assoc, ← zpow_natCast, ← zpow_add₀ (by norm_num), ← hz]
  · right
    have hn : (n : ℝ) < 2 ^ f.p := by exact_mod_cast h.lt_pow
    refine ⟨?_, by omega⟩
    calc (n : ℝ) * 2 ^ x < 2 ^ f.p * 2 ^ x := by gcongr
      _ = 2 ^ ((f.p : Int) + x) := by rw [← zpow_natCast, ← zpow_add₀ (by norm_num)]
      _ ≤ 2 ^ e := zpow_le_zpow_right₀ (by norm_num) (by omega)

/-- No value of the format is nearer, and the significand is even when another is as near. -/
theorem NearestSignificand.nearest {f : Fmt} (hf : f.Valid) {μ : ℝ} {i : Nat} {e : Int} (h : NearestSignificand f μ i e)
    (s : Bool) {n : Nat} {x : Int} (hx : f.Holds n x) :
    |μ - i * f.ulp e| ≤ |μ - signFactor s * (n * 2 ^ x)| ∧
      (signFactor s * (n * 2 ^ x) ≠ i * f.ulp e → |μ - signFactor s * (n * 2 ^ x)| = |μ - i * f.ulp e| → i % 2 = 0) := by
  rcases hx.multiple_or_lt hf e with ⟨k, hk⟩ | ⟨hlt, he⟩
  · have hmul : signFactor s * (n * 2 ^ x) = ((signedInt s k : Int) : ℝ) * f.ulp e := by
      rw [hk, signedInt_cast, mul_assoc]
    rw [hmul]
    exact h.nearest_multiple _
  · have hle : (2 : ℝ) ^ e ≤ μ := (h.binade.resolve_left he.ne').2
    have hbegin := (h.nearest_multiple ((2 ^ (f.p - 1) : Nat) : Int)).1
    push_cast at hbegin
    rw [f.pow_mul_ulp, abs_of_nonneg (sub_nonneg.2 hle)] at hbegin
    have hs : signFactor s * (n * 2 ^ x) < 2 ^ e :=
      (le_abs_self _).trans_lt (by rwa [abs_signFactor_mul, abs_of_nonneg (by positivity)])
    rw [abs_of_pos (sub_pos.2 (hs.trans_le hle))]
    exact ⟨by linarith, fun _ heq => by linarith⟩

/-- Below the overflow bound the significand stays below the next power of two. -/
theorem NearestSignificand.mul_ulp_lt {f : Fmt} (hf : f.Valid) {μ : ℝ} {i : Nat} {e : Int} (h : NearestSignificand f μ i e)
    (hμ : μ < f.overflowBound) : (i : ℝ) * f.ulp e < 2 ^ (f.emax + 1) := by
  have hb := hf.one_le_bias
  have hemin : f.emin = 1 - (f.bias : Int) := rfl
  have hemax : f.emax = f.bias := rfl
  have hi : (i : ℝ) ≤ 2 ^ f.p := by exact_mod_cast h.le_pow
  have hu := f.ulp_pos e
  have hle : (i : ℝ) * f.ulp e ≤ 2 ^ (e + 1) := (mul_le_mul_of_nonneg_right hi hu.le).trans_eq (hf.pow_p_mul_ulp e)
  rcases lt_trichotomy e f.emax with hlt | rfl | hgt
  · exact hle.trans_lt (zpow_lt_zpow_right₀ (by norm_num) (by omega))
  · rw [hf.overflowBound_eq, hf.pow_p_mul_ulp] at hμ
    have := (abs_le.1 h.near).1
    linarith
  · have hbin := (h.binade.resolve_left (by omega)).2
    have h1 : (2 : ℝ) ^ (f.emax + 1) ≤ 2 ^ e := zpow_le_zpow_right₀ (by norm_num) (by omega)
    have h2 : f.overflowBound ≤ 2 ^ (f.emax + 1) := sub_le_self _ (by positivity)
    linarith

/-- From the overflow bound on it reaches the next power of two. -/
theorem NearestSignificand.le_mul_ulp {f : Fmt} (hf : f.Valid) {μ : ℝ} {i : Nat} {e : Int} (h : NearestSignificand f μ i e)
    (hμ : f.overflowBound ≤ μ) : (2 : ℝ) ^ (f.emax + 1) ≤ i * f.ulp e := by
  have hb := hf.one_le_bias
  have hp := hf.two_le_p
  have hemin : f.emin = 1 - (f.bias : Int) := rfl
  have hemax : f.emax = f.bias := rfl
  have hu := f.ulp_pos e
  have he : f.emax < e + 1 :=
    (zpow_lt_zpow_iff_right₀ (by norm_num : (1 : ℝ) < 2)).1 ((f.pow_emax_le_overflowBound.trans hμ).trans_lt h.lt)
  rcases eq_or_lt_of_le (show f.emax ≤ e by omega) with rfl | hgt
  · rw [hf.overflowBound_eq] at hμ
    have hnear := abs_le.1 h.near
    have hge : (2 : ℝ) ^ f.p - 1 ≤ i := by nlinarith
    have hpow : ((2 ^ f.p : Nat) : ℝ) = 2 ^ f.p := by push_cast; rfl
    have hne : i + 1 ≠ 2 ^ f.p := by
      intro hi
      have hir : (2 : ℝ) ^ f.p = i + 1 := by exact_mod_cast hi.symm
      rw [hir] at hμ
      have hodd := h.even (le_antisymm h.near ((by linarith : _ ≤ _).trans (le_abs_self _)))
      have : 2 ^ f.p % 2 = 0 := by rw [show f.p = f.p - 1 + 1 by omega, pow_succ, Nat.mul_mod_left]
      omega
    have hle : 2 ^ f.p ≤ i := by
      have : 2 ^ f.p ≤ i + 1 := by exact_mod_cast (by linarith : (2 : ℝ) ^ f.p ≤ i + 1)
      omega
    rw [← hf.pow_p_mul_ulp]
    have : (2 : ℝ) ^ f.p ≤ i := by exact_mod_cast hle
    gcongr
  · have hbin := (h.binade.resolve_left (by omega)).1
    have hr : (2 : ℝ) ^ (f.p - 1) ≤ i := by exact_mod_cast hbin
    calc (2 : ℝ) ^ (f.emax + 1) ≤ 2 ^ e := zpow_le_zpow_right₀ (by norm_num) (by omega)
      _ = 2 ^ (f.p - 1) * f.ulp e := (f.pow_mul_ulp e).symm
      _ ≤ i * f.ulp e := by gcongr

/-! ### The fields packed -/

/-- The fields `s`, `E`, `m` are those of `RN_fmt(v)` for the real `v ≠ 0` (R76). -/
structure RoundsToFields (f : Fmt) (v : ℝ) (s : Bool) (E m : Nat) : Prop where
  exp_le : E ≤ f.expMax
  frac_lt : m < 2 ^ (f.p - 1)
  sign : s = true ↔ v < 0
  finite : |v| < f.overflowBound → E ≠ f.expMax
  nearest : |v| < f.overflowBound → ∀ t n x, f.Holds n x →
    |v - (datumOf f s E m).val| ≤ |v - (Datum.fin t n x).val| ∧
      ((Datum.fin t n x).val ≠ (datumOf f s E m).val →
        |v - (Datum.fin t n x).val| = |v - (datumOf f s E m).val| → m % 2 = 0)
  overflow : f.overflowBound ≤ |v| → E = f.expMax ∧ m = 0

/-- The result `r` is `RN_fmt(v)`. -/
def Enc.RoundsTo (f : Fmt) (v : ℝ) (r : Enc) : Prop := ∃ s E m, r = .fields s E m ∧ RoundsToFields f v s E m

/-- Packing the significand picked for a positive magnitude gives `RN_fmt` of the value with the sign. -/
theorem finishRound_roundsTo {f : Fmt} (hf : f.Valid) {μ : ℝ} (hμ : 0 < μ) (s : Bool) {i : Nat} {e : Int}
    (h : NearestSignificand f μ i e) : (finishRound f s i e).RoundsTo f (signFactor s * μ) := by
  obtain ⟨E, m, heq, hE, hm, hfin, hinf⟩ := finishRound_spec f hf.two_le_p hf.one_le_bias hf.expMax_eq s h.le_pow h.emin_le
    (h.binade.imp_right And.left)
  have habs : |signFactor s * μ| = μ := by rw [abs_signFactor_mul, abs_of_pos hμ]
  have hiu : (i : ℝ) * f.ulp e = ((i * 2 ^ (e - (f.p - 1 : Nat)) : ℚ) : ℝ) := by rw [Fmt.ulp]; push_cast; rfl
  have hpow : (2 : ℝ) ^ (f.emax + 1) = ((2 ^ (f.emax + 1) : ℚ) : ℝ) := by push_cast; rfl
  have small : |signFactor s * μ| < f.overflowBound → (i : ℚ) * 2 ^ (e - (f.p - 1 : Nat)) < 2 ^ (f.emax + 1) := by
    intro hv
    have hlt := h.mul_ulp_lt hf (habs ▸ hv)
    rw [hiu, hpow] at hlt
    exact Rat.cast_lt.1 hlt
  refine ⟨s, E, m, heq, hE, hm, (signFactor_mul_neg_iff s hμ).symm, fun hv => (hfin (small hv)).1, ?_, ?_⟩
  · intro hv t n x hx
    obtain ⟨-, hpar, n', x', hd, hval⟩ := hfin (small hv)
    have hr : ((datumOf f s E m).val : ℝ) = signFactor s * (i * f.ulp e) := by
      rw [hd, Datum.val_fin, hiu, ← hval]
      push_cast
      rfl
    have flip : ∀ r : ℝ, |signFactor s * μ - r| = |μ - signFactor s * r| := by
      intro r
      rw [← abs_signFactor_mul s, mul_sub, ← mul_assoc, signFactor_mul_self, one_mul]
    have hw : signFactor s * ((Datum.fin t n x).val : ℝ) = signFactor (s ^^ t) * (n * 2 ^ x) := by
      rw [Datum.val_fin, signFactor_xor, mul_assoc]
    have hr' : signFactor s * ((datumOf f s E m).val : ℝ) = i * f.ulp e := by
      rw [hr, ← mul_assoc, signFactor_mul_self, one_mul]
    obtain ⟨hle, htie⟩ := h.nearest hf (s ^^ t) hx
    rw [flip, flip, hw, hr']
    refine ⟨hle, fun hne heq => hpar.trans (htie (fun hc => hne ?_) heq)⟩
    rw [← hw, ← hr'] at hc
    have hs : signFactor s ≠ 0 := fun h0 => by simpa [h0] using signFactor_mul_self s
    exact_mod_cast mul_left_cancel₀ hs hc
  · intro hv
    have hle := h.le_mul_ulp hf (habs ▸ hv)
    rw [hiu, hpow] at hle
    exact hinf (Rat.cast_le.1 hle)

/-- `roundRat` is `RN_fmt` on rationals. -/
theorem roundRat_roundsTo {f : Fmt} (hf : f.Valid) (s : Bool) {num den : Nat} (hn : 0 < num) (hd : 0 < den) (x : Int) :
    (roundRat f s num den x).RoundsTo f (signFactor s * (num / den * 2 ^ x)) := by
  obtain ⟨i, e, heq, h⟩ := roundRat_nearest hf s hn hd x
  have hn' : (0 : ℝ) < num := by exact_mod_cast hn
  have hd' : (0 : ℝ) < den := by exact_mod_cast hd
  rw [heq]
  exact finishRound_roundsTo hf (by positivity) s h

/-- `roundRat` on a dyadic value. -/
theorem roundRat_one_roundsTo {f : Fmt} (hf : f.Valid) (s : Bool) {n : Nat} (hn : n ≠ 0) (x : Int) :
    (roundRat f s n 1 x).RoundsTo f (Datum.fin s n x).val := by
  rw [Datum.val_fin]
  simpa using roundRat_roundsTo hf s (Nat.pos_of_ne_zero hn) one_pos x

/-! ### Values that are rounded to themselves -/

/-- A value the format holds is below the overflow bound. -/
theorem Fmt.Holds.abs_val_lt {f : Fmt} (hf : f.Valid) {n : Nat} {x : Int} (h : f.Holds n x) (s : Bool) :
    |((Datum.fin s n x).val : ℝ)| < f.overflowBound := by
  have hpos := f.ulp_pos f.emax
  have hn : (n : ℝ) ≤ 2 ^ f.p - 1 := by
    have : n + 1 ≤ 2 ^ f.p := h.lt_pow
    have : (n : ℝ) + 1 ≤ 2 ^ f.p := by exact_mod_cast this
    linarith
  have hx : (2 : ℝ) ^ x ≤ f.ulp f.emax := zpow_le_zpow_right₀ (by norm_num) h.exp_le
  rw [Datum.val_fin, abs_signFactor_mul, abs_of_nonneg (by positivity), hf.overflowBound_eq]
  calc (n : ℝ) * 2 ^ x ≤ n * f.ulp f.emax := by gcongr
    _ ≤ (2 ^ f.p - 1) * f.ulp f.emax := by gcongr
    _ < 2 ^ f.p * f.ulp f.emax - f.ulp f.emax / 2 := by linarith

/-- A value the format holds is rounded to itself. -/
theorem RoundsToFields.val_eq {f : Fmt} (hf : f.Valid) {s t : Bool} {n E m : Nat} {x : Int}
    (h : RoundsToFields f (Datum.fin t n x).val s E m) (hx : f.Holds n x) :
    (datumOf f s E m).val = (Datum.fin t n x).val := by
  have h0 := (h.nearest (hx.abs_val_lt hf t) t n x hx).1
  rw [sub_self, abs_zero] at h0
  exact_mod_cast (sub_eq_zero.1 (abs_nonpos_iff.1 h0)).symm

end Sys2Proof.Machine
end

section
/-! PROOFS. What the rounded results are as words: the classes of 40_fp_numerics.md R72 as packed words and as data the format
holds, and the word of a result that is `RN_fmt(v)` is the one R76 describes, in both formats. -/

namespace Sys2Proof.Machine

open Sys2Proof.Claims

/-! ### binary32 -/

theorem eq_pack32_of_isInf32 {w : Word} (h : isInf32 w = true) : w = pack32 (sign32 w) 255#8 0#23 := by
  simp only [isInf32, Bool.and_eq_true, beq_iff_eq] at h
  apply word_ext <;> simp [h]

theorem eq_pack32_of_isZero32 {w : Word} (h : isZero32 w = true) : w = pack32 (sign32 w) 0#8 0#23 := by
  simp only [isZero32, Bool.and_eq_true, beq_iff_eq] at h
  apply word_ext <;> simp [h]

theorem isFinite32_of_isZero32 {w : Word} (h : isZero32 w = true) : isFinite32 w = true := by
  simp only [isZero32, Bool.and_eq_true, beq_iff_eq] at h
  simp [isFinite32, h]

theorem isInf32_eq_false_of_isFinite32 {w : Word} (h : isFinite32 w = true) : isInf32 w = false := by
  simp only [isFinite32, bne_iff_ne, ne_eq] at h
  simp [isInf32, h]

/-- A word that is no NaN is an infinity or finite (R72). -/
theorem isInf32_or_isFinite32 {w : Word} (h : isNaN32 w = false) : isInf32 w = true ∨ isFinite32 w = true := by
  simp only [isNaN32, isInf32, isFinite32] at h ⊢
  cases he : (exp32 w == 255#8) <;> simp_all

/-- A finite word stands for a value binary32 holds, and for 0 exactly when it is a zero (R73). -/
theorem datum32_of_isFinite32 {w : Word} (h : isFinite32 w = true) :
    ∃ n x, datum32 w = .fin (sign32 w) n x ∧ binary32.Holds n x ∧ (n = 0 ↔ isZero32 w = true) := by
  have hE : (exp32 w).toNat < binary32.expMax := by
    have hne := datumOf_eq_fin.1 ((isFinite32_iff w).1 h)
    have hmax : binary32.expMax = 255 := rfl
    omega
  obtain ⟨n, x, hd, hx, h0⟩ := exists_datumOf_eq_fin binary32_valid (sign32 w) hE (frac32 w).isLt
  refine ⟨n, x, hd, hx, h0.trans ?_⟩
  simp [isZero32, ← BitVec.toNat_inj]

/-- A zero stands for the integer significand 0 (R73). -/
theorem datum32_of_isZero32 {w : Word} (h : isZero32 w = true) : ∃ x, datum32 w = .fin (sign32 w) 0 x := by
  obtain ⟨n, x, hd, -, h0⟩ := datum32_of_isFinite32 (isFinite32_of_isZero32 h)
  exact ⟨x, by rw [hd, h0.2 h]⟩

/-- A finite word that is no zero has a significand that is not 0 (R73). -/
theorem datum32_of_nonzero {w : Word} (h : isFinite32 w = true) (hz : isZero32 w = false) :
    ∃ n x, datum32 w = .fin (sign32 w) n x ∧ binary32.Holds n x ∧ n ≠ 0 := by
  obtain ⟨n, x, hd, hx, h0⟩ := datum32_of_isFinite32 h
  exact ⟨n, x, hd, hx, fun hn => by simp [h0.1 hn] at hz⟩

theorem RoundsToFields.datum32_word32 {v : ℝ} {s : Bool} {E m : Nat} (h : RoundsToFields binary32 v s E m) (d : Draw) :
    datum32 ((Enc.fields s E m).word32 d) = datumOf binary32 s E m :=
  Machine.datum32_word32 d (lt_of_le_of_lt h.exp_le (by decide)) h.frac_lt

/-- The word of a result that is `RN_32(v)` is the one R76 describes. -/
theorem Enc.RoundsTo.word32 {v : ℝ} {r : Enc} (h : r.RoundsTo binary32 v) (d : Draw) : RoundsTo32 v (r.word32 d) := by
  obtain ⟨s, E, m, rfl, h⟩ := h
  have hd := h.datum32_word32 d
  set w := (Enc.fields s E m).word32 d with hw
  have hs : sign32 w = s := sign32_pack32 _ _ _
  have hm : (frac32 w).toNat = m := by
    rw [hw, Enc.word32, frac32_pack32, BitVec.toNat_ofNat]
    exact Nat.mod_eq_of_lt h.frac_lt
  have hval : val32 w = (datumOf binary32 s E m).val := by rw [val32, hd]
  rw [RoundsTo32, ← binary32_overflowBound]
  refine ⟨by rw [hs]; exact h.sign, fun hv => ⟨?_, fun u hu => ?_⟩, fun hv => ?_⟩
  · rw [isFinite32_iff, hd, hs]
    exact datumOf_eq_fin.2 (h.finite hv)
  · obtain ⟨n, x, hu, hx, -⟩ := datum32_of_isFinite32 hu
    rw [hval, hm, val32, hu]
    exact h.nearest hv _ n x hx
  · rw [isInf32_iff, hd, hs]
    obtain ⟨hE, h0⟩ := h.overflow hv
    exact datumOf_eq_inf.2 ⟨hE, h0, rfl⟩

/-! ### binary64 -/

theorem dword_ext {v w : DWord} (hs : sign64 v = sign64 w) (he : exp64 v = exp64 w) (hf : frac64 v = frac64 w) : v = w := by
  rw [← pack64_fields v, ← pack64_fields w, hs, he, hf]

theorem eq_pack64_of_isInf64 {w : DWord} (h : isInf64 w = true) : w = pack64 (sign64 w) 2047#11 0#52 := by
  simp only [isInf64, Bool.and_eq_true, beq_iff_eq] at h
  apply dword_ext <;> simp [h]

theorem eq_pack64_of_isZero64 {w : DWord} (h : isZero64 w = true) : w = pack64 (sign64 w) 0#11 0#52 := by
  simp only [isZero64, Bool.and_eq_true, beq_iff_eq] at h
  apply dword_ext <;> simp [h]

theorem isFinite64_of_isZero64 {w : DWord} (h : isZero64 w = true) : isFinite64 w = true := by
  simp only [isZero64, Bool.and_eq_true, beq_iff_eq] at h
  simp [isFinite64, h]

theorem isInf64_eq_false_of_isFinite64 {w : DWord} (h : isFinite64 w = true) : isInf64 w = false := by
  simp only [isFinite64, bne_iff_ne, ne_eq] at h
  simp [isInf64, h]

theorem isInf64_iff (w : DWord) : isInf64 w = true ↔ datum64 w = .inf (sign64 w) := by
  have hmax : binary64.expMax = (2047#11).toNat := rfl
  simp [isInf64, datum64, datumOf_eq_inf, hmax, ← BitVec.toNat_inj]

/-- A word that is no NaN is an infinity or finite (R72). -/
theorem isInf64_or_isFinite64 {w : DWord} (h : isNaN64 w = false) : isInf64 w = true ∨ isFinite64 w = true := by
  simp only [isNaN64, isInf64, isFinite64] at h ⊢
  cases he : (exp64 w == 2047#11) <;> simp_all

/-- A finite word stands for a value binary64 holds, and for 0 exactly when it is a zero (R73). -/
theorem datum64_of_isFinite64 {w : DWord} (h : isFinite64 w = true) :
    ∃ n x, datum64 w = .fin (sign64 w) n x ∧ binary64.Holds n x ∧ (n = 0 ↔ isZero64 w = true) := by
  have hE : (exp64 w).toNat < binary64.expMax := by
    have hne := datumOf_eq_fin.1 ((isFinite64_iff w).1 h)
    have hmax : binary64.expMax = 2047 := rfl
    omega
  obtain ⟨n, x, hd, hx, h0⟩ := exists_datumOf_eq_fin binary64_valid (sign64 w) hE (frac64 w).isLt
  refine ⟨n, x, hd, hx, h0.trans ?_⟩
  simp [isZero64, ← BitVec.toNat_inj]

/-- A zero stands for the integer significand 0 (R73). -/
theorem datum64_of_isZero64 {w : DWord} (h : isZero64 w = true) : ∃ x, datum64 w = .fin (sign64 w) 0 x := by
  obtain ⟨n, x, hd, -, h0⟩ := datum64_of_isFinite64 (isFinite64_of_isZero64 h)
  exact ⟨x, by rw [hd, h0.2 h]⟩

/-- A finite word that is no zero has a significand that is not 0 (R73). -/
theorem datum64_of_nonzero {w : DWord} (h : isFinite64 w = true) (hz : isZero64 w = false) :
    ∃ n x, datum64 w = .fin (sign64 w) n x ∧ binary64.Holds n x ∧ n ≠ 0 := by
  obtain ⟨n, x, hd, hx, h0⟩ := datum64_of_isFinite64 h
  exact ⟨n, x, hd, hx, fun hn => by simp [h0.1 hn] at hz⟩

theorem RoundsToFields.datum64_word64 {v : ℝ} {s : Bool} {E m : Nat} (h : RoundsToFields binary64 v s E m) (d : Draw) :
    datum64 ((Enc.fields s E m).word64 d) = datumOf binary64 s E m :=
  Machine.datum64_word64 d (lt_of_le_of_lt h.exp_le (by decide)) h.frac_lt

/-- The word of a result that is `RN_64(v)` is the one R76 describes. -/
theorem Enc.RoundsTo.word64 {v : ℝ} {r : Enc} (h : r.RoundsTo binary64 v) (d : Draw) : RoundsTo64 v (r.word64 d) := by
  obtain ⟨s, E, m, rfl, h⟩ := h
  have hd := h.datum64_word64 d
  set w := (Enc.fields s E m).word64 d with hw
  have hs : sign64 w = s := sign64_pack64 _ _ _
  have hm : (frac64 w).toNat = m := by
    rw [hw, Enc.word64, frac64_pack64, BitVec.toNat_ofNat]
    exact Nat.mod_eq_of_lt h.frac_lt
  have hval : val64 w = (datumOf binary64 s E m).val := by rw [val64, hd]
  rw [RoundsTo64, ← binary64_overflowBound]
  refine ⟨by rw [hs]; exact h.sign, fun hv => ⟨?_, fun u hu => ?_⟩, fun hv => ?_⟩
  · rw [isFinite64_iff, hd, hs]
    exact datumOf_eq_fin.2 (h.finite hv)
  · obtain ⟨n, x, hu, hx, -⟩ := datum64_of_isFinite64 hu
    rw [hval, hm, val64, hu]
    exact h.nearest hv _ n x hx
  · rw [isInf64_iff, hd, hs]
    obtain ⟨hE, h0⟩ := h.overflow hv
    exact datumOf_eq_inf.2 ⟨hE, h0, rfl⟩

end Sys2Proof.Machine
end

section
/-! PROOFS. The arithmetic primitives on finite data (40_fp_numerics.md R77, R78, R81): the exact sum and product are rounded once,
and aligned integers compare as the values do. -/

namespace Sys2Proof.Machine

/-- An aligned integer in units of `2^z` is the value. -/
theorem alignedInt_mul_zpow (s : Bool) (m : Nat) {x z : Int} (hz : z ≤ x) :
    (alignedInt s m x z : ℝ) * 2 ^ z = (Datum.fin s m x).val := by
  have hx : x = ((x - z).toNat : Int) + z := by omega
  rw [alignedInt, signedInt_cast, Datum.val_fin, mul_assoc]
  congr 1
  push_cast
  rw [mul_assoc, ← zpow_natCast, ← zpow_add₀ (by norm_num), ← hx]

/-- The exact sum of two finite data in units of the smaller exponent. -/
theorem alignedInt_add_mul_zpow (s : Bool) (m : Nat) (x : Int) (t : Bool) (n : Nat) (y : Int) :
    ((alignedInt s m x (min x y) + alignedInt t n y (min x y) : Int) : ℝ) * 2 ^ min x y =
      (Datum.fin s m x).val + (Datum.fin t n y).val := by
  push_cast
  rw [add_mul, alignedInt_mul_zpow _ _ (min_le_left x y), alignedInt_mul_zpow _ _ (min_le_right x y)]

theorem signedInt_neg_natAbs (v : Int) : signedInt (decide (v < 0)) v.natAbs = v := by
  unfold signedInt
  by_cases h : v < 0
  · rw [if_pos (decide_eq_true h)]
    omega
  · rw [if_neg (by simpa using h)]
    omega

/-- Rounding a signed integer times a power of two. -/
theorem roundRat_int_roundsTo {f : Fmt} (hf : f.Valid) {v : Int} (hv : v ≠ 0) (z : Int) :
    (roundRat f (decide (v < 0)) v.natAbs 1 z).RoundsTo f ((v : ℝ) * 2 ^ z) := by
  have h := roundRat_one_roundsTo hf (decide (v < 0)) (Int.natAbs_ne_zero.2 hv) z
  rwa [Datum.val_fin, ← mul_assoc, ← signedInt_cast, signedInt_neg_natAbs] at h

/-- A zero sum of values that are not both zero is `+0` (R77). -/
theorem addFinite_eq_zero {f : Fmt} {s t : Bool} {m n : Nat} {x y : Int} (h : ¬(m = 0 ∧ n = 0))
    (hv : ((Datum.fin s m x).val : ℝ) + (Datum.fin t n y).val = 0) : addFinite f s m x t n y = .zero false := by
  rw [← alignedInt_add_mul_zpow, mul_eq_zero, or_iff_left (by positivity), Int.cast_eq_zero] at hv
  simp [addFinite, h, hv]

/-- Any other sum of values that are not both zero is rounded once (R77). -/
theorem addFinite_roundsTo {f : Fmt} (hf : f.Valid) {s t : Bool} {m n : Nat} {x y : Int} (h : ¬(m = 0 ∧ n = 0))
    (hv : ((Datum.fin s m x).val : ℝ) + (Datum.fin t n y).val ≠ 0) :
    (addFinite f s m x t n y).RoundsTo f ((Datum.fin s m x).val + (Datum.fin t n y).val) := by
  rw [← alignedInt_add_mul_zpow] at hv ⊢
  have hne : alignedInt s m x (min x y) + alignedInt t n y (min x y) ≠ 0 := by
    rintro h0
    simp [h0] at hv
  simp only [addFinite, if_neg h, if_neg hne]
  exact roundRat_int_roundsTo hf hne _

/-- The product of two finite non-zero values is rounded once (R78). -/
theorem mulDatum_fin_roundsTo {f : Fmt} (hf : f.Valid) (s t : Bool) {m n : Nat} (x y : Int) (hm : m ≠ 0) (hn : n ≠ 0) :
    (mulDatum f (.fin s m x) (.fin t n y)).RoundsTo f ((Datum.fin s m x).val * (Datum.fin t n y).val) := by
  have hval : ((Datum.fin s m x).val : ℝ) * (Datum.fin t n y).val = (Datum.fin (s ^^ t) (m * n) (x + y)).val := by
    rw [Datum.val_fin, Datum.val_fin, Datum.val_fin, signFactor_xor, zpow_add₀ (by norm_num)]
    push_cast
    ring
  rw [hval, mulDatum, if_neg (by simp [hm, hn])]
  exact roundRat_one_roundsTo hf _ (Nat.mul_ne_zero hm hn) _

/-- The sign of a finite non-zero product is the exclusive-or of the signs (R78). -/
theorem val_fin_mul_val_fin_neg_iff (s t : Bool) {m n : Nat} (x y : Int) (hm : m ≠ 0) (hn : n ≠ 0) :
    ((Datum.fin s m x).val : ℝ) * (Datum.fin t n y).val < 0 ↔ (s ^^ t) = true := by
  have hpos : (0 : ℝ) < m * 2 ^ x * (n * 2 ^ y) := by positivity
  rw [← signFactor_mul_neg_iff _ hpos, signFactor_xor, Datum.val_fin, Datum.val_fin, mul_mul_mul_comm]

/-- Finite data compare as their values (R81). -/
theorem ltDatum_fin_iff (s t : Bool) (m n : Nat) (x y : Int) :
    ltDatum (.fin s m x) (.fin t n y) = true ↔ ((Datum.fin s m x).val : ℝ) < (Datum.fin t n y).val := by
  rw [← alignedInt_mul_zpow s m (min_le_left x y), ← alignedInt_mul_zpow t n (min_le_right x y),
    mul_lt_mul_iff_of_pos_right (by positivity), Int.cast_lt]
  exact decide_eq_true_iff

end Sys2Proof.Machine
end

section
/-! PROOFS. Addition and multiplication case by case in both formats (40_fp_numerics.md R77, R78). -/

namespace Sys2Proof.Machine

open Sys2Proof.Claims

/-! ### binary32 addition (R77) -/

theorem fadd32_of_inf_opposite (d : Draw) {a b : Word} (ha : isInf32 a = true) (hb : isInf32 b = true)
    (hs : sign32 a ≠ sign32 b) : isNaN32 (fadd32 d a b) = true := by
  rw [fadd32, (isInf32_iff a).1 ha, (isInf32_iff b).1 hb, addDatum, if_neg hs]
  exact isNaN32_word32_anyNaN d

theorem fadd32_of_inf_left (d : Draw) {a b : Word} (ha : isInf32 a = true) (hb : isNaN32 b = false)
    (hs : isInf32 b = true → sign32 a = sign32 b) : fadd32 d a b = a := by
  have hres : (Enc.inf binary32 (sign32 a)).word32 d = a := (eq_pack32_of_isInf32 ha).symm
  rcases isInf32_or_isFinite32 hb with hb | hb
  · rw [fadd32, (isInf32_iff a).1 ha, (isInf32_iff b).1 hb, addDatum, if_pos (hs hb), hres]
  · obtain ⟨n, y, hb, -⟩ := datum32_of_isFinite32 hb
    rw [fadd32, (isInf32_iff a).1 ha, hb, addDatum, hres]

theorem fadd32_of_inf_right (d : Draw) {a b : Word} (hb : isInf32 b = true) (ha : isFinite32 a = true) :
    fadd32 d a b = b := by
  obtain ⟨m, x, ha, -⟩ := datum32_of_isFinite32 ha
  rw [fadd32, ha, (isInf32_iff b).1 hb, addDatum]
  exact (eq_pack32_of_isInf32 hb).symm

theorem fadd32_of_zeros (d : Draw) {a b : Word} (ha : isZero32 a = true) (hb : isZero32 b = true) :
    fadd32 d a b = if sign32 a = sign32 b then a else 0#32 := by
  obtain ⟨x, hda⟩ := datum32_of_isZero32 ha
  obtain ⟨y, hdb⟩ := datum32_of_isZero32 hb
  have hsum : fadd32 d a b = (Enc.zero (sign32 a && sign32 b)).word32 d := by
    rw [fadd32, hda, hdb, addDatum, addFinite, if_pos ⟨rfl, rfl⟩]
  rw [hsum]
  by_cases hs : sign32 a = sign32 b
  · rw [if_pos hs, ← hs, Bool.and_self]
    exact (eq_pack32_of_isZero32 ha).symm
  · have hand : (sign32 a && sign32 b) = false := by
      cases ha : sign32 a <;> cases hb : sign32 b <;> simp_all
    rw [if_neg hs, hand]
    rfl

theorem fadd32_of_finite (d : Draw) {a b : Word} (ha : isFinite32 a = true) (hb : isFinite32 b = true)
    (hz : ¬(isZero32 a = true ∧ isZero32 b = true)) :
    (val32 a + val32 b = 0 → fadd32 d a b = 0#32) ∧
      (val32 a + val32 b ≠ 0 → RoundsTo32 ((val32 a : ℝ) + val32 b) (fadd32 d a b)) := by
  obtain ⟨m, x, hda, -, hm⟩ := datum32_of_isFinite32 ha
  obtain ⟨n, y, hdb, -, hn⟩ := datum32_of_isFinite32 hb
  rw [← hm, ← hn] at hz
  simp only [fadd32, val32, hda, hdb, addDatum]
  refine ⟨fun h0 => ?_, fun h0 => ?_⟩
  · rw [addFinite_eq_zero hz (by exact_mod_cast h0)]
    rfl
  · exact (addFinite_roundsTo binary32_valid hz (by exact_mod_cast h0)).word32 d

/-! ### binary64 addition (R77) -/

theorem fadd64_of_inf_opposite (d : Draw) {a b : DWord} (ha : isInf64 a = true) (hb : isInf64 b = true)
    (hs : sign64 a ≠ sign64 b) : isNaN64 (fadd64 d a b) = true := by
  rw [fadd64, (isInf64_iff a).1 ha, (isInf64_iff b).1 hb, addDatum, if_neg hs]
  exact isNaN64_word64_anyNaN d

theorem fadd64_of_inf_left (d : Draw) {a b : DWord} (ha : isInf64 a = true) (hb : isNaN64 b = false)
    (hs : isInf64 b = true → sign64 a = sign64 b) : fadd64 d a b = a := by
  have hres : (Enc.inf binary64 (sign64 a)).word64 d = a := (eq_pack64_of_isInf64 ha).symm
  rcases isInf64_or_isFinite64 hb with hb | hb
  · rw [fadd64, (isInf64_iff a).1 ha, (isInf64_iff b).1 hb, addDatum, if_pos (hs hb), hres]
  · obtain ⟨n, y, hb, -⟩ := datum64_of_isFinite64 hb
    rw [fadd64, (isInf64_iff a).1 ha, hb, addDatum, hres]

theorem fadd64_of_inf_right (d : Draw) {a b : DWord} (hb : isInf64 b = true) (ha : isFinite64 a = true) :
    fadd64 d a b = b := by
  obtain ⟨m, x, ha, -⟩ := datum64_of_isFinite64 ha
  rw [fadd64, ha, (isInf64_iff b).1 hb, addDatum]
  exact (eq_pack64_of_isInf64 hb).symm

theorem fadd64_of_zeros (d : Draw) {a b : DWord} (ha : isZero64 a = true) (hb : isZero64 b = true) :
    fadd64 d a b = if sign64 a = sign64 b then a else 0#64 := by
  obtain ⟨x, hda⟩ := datum64_of_isZero64 ha
  obtain ⟨y, hdb⟩ := datum64_of_isZero64 hb
  have hsum : fadd64 d a b = (Enc.zero (sign64 a && sign64 b)).word64 d := by
    rw [fadd64, hda, hdb, addDatum, addFinite, if_pos ⟨rfl, rfl⟩]
  rw [hsum]
  by_cases hs : sign64 a = sign64 b
  · rw [if_pos hs, ← hs, Bool.and_self]
    exact (eq_pack64_of_isZero64 ha).symm
  · have hand : (sign64 a && sign64 b) = false := by
      cases ha : sign64 a <;> cases hb : sign64 b <;> simp_all
    rw [if_neg hs, hand]
    rfl

theorem fadd64_of_finite (d : Draw) {a b : DWord} (ha : isFinite64 a = true) (hb : isFinite64 b = true)
    (hz : ¬(isZero64 a = true ∧ isZero64 b = true)) :
    (val64 a + val64 b = 0 → fadd64 d a b = 0#64) ∧
      (val64 a + val64 b ≠ 0 → RoundsTo64 ((val64 a : ℝ) + val64 b) (fadd64 d a b)) := by
  obtain ⟨m, x, hda, -, hm⟩ := datum64_of_isFinite64 ha
  obtain ⟨n, y, hdb, -, hn⟩ := datum64_of_isFinite64 hb
  rw [← hm, ← hn] at hz
  simp only [fadd64, val64, hda, hdb, addDatum]
  refine ⟨fun h0 => ?_, fun h0 => ?_⟩
  · rw [addFinite_eq_zero hz (by exact_mod_cast h0)]
    rfl
  · exact (addFinite_roundsTo binary64_valid hz (by exact_mod_cast h0)).word64 d

/-! ### binary32 multiplication (R78) -/

theorem fmul32_of_inf_zero (d : Draw) {a b : Word}
    (h : isInf32 a = true ∧ isZero32 b = true ∨ isZero32 a = true ∧ isInf32 b = true) :
    isNaN32 (fmul32 d a b) = true := by
  rcases h with ⟨ha, hb⟩ | ⟨ha, hb⟩
  · obtain ⟨y, hb⟩ := datum32_of_isZero32 hb
    rw [fmul32, (isInf32_iff a).1 ha, hb, mulDatum, if_pos rfl]
    exact isNaN32_word32_anyNaN d
  · obtain ⟨x, ha⟩ := datum32_of_isZero32 ha
    rw [fmul32, ha, (isInf32_iff b).1 hb, mulDatum, if_pos rfl]
    exact isNaN32_word32_anyNaN d

theorem fmul32_of_inf (d : Draw) {a b : Word} (ha : isNaN32 a = false) (hb : isNaN32 b = false)
    (h : isInf32 a = true ∨ isInf32 b = true) (hz : ¬(isZero32 a = true ∨ isZero32 b = true)) :
    fmul32 d a b = pack32 (sign32 a ^^ sign32 b) 255#8 0#23 := by
  have hres : fmul32 d a b = (Enc.inf binary32 (sign32 a ^^ sign32 b)).word32 d := by
    rcases isInf32_or_isFinite32 ha with ha | ha <;> rcases isInf32_or_isFinite32 hb with hb | hb
    · rw [fmul32, (isInf32_iff a).1 ha, (isInf32_iff b).1 hb, mulDatum]
    · obtain ⟨n, y, hb, -, hn⟩ := datum32_of_isFinite32 hb
      rw [fmul32, (isInf32_iff a).1 ha, hb, mulDatum, if_neg fun h0 => hz (.inr (hn.1 h0))]
    · obtain ⟨m, x, ha, -, hm⟩ := datum32_of_isFinite32 ha
      rw [fmul32, ha, (isInf32_iff b).1 hb, mulDatum, if_neg fun h0 => hz (.inl (hm.1 h0))]
    · simp [isInf32_eq_false_of_isFinite32 ha, isInf32_eq_false_of_isFinite32 hb] at h
  exact hres

theorem fmul32_of_zero (d : Draw) {a b : Word} (ha : isFinite32 a = true) (hb : isFinite32 b = true)
    (hz : isZero32 a = true ∨ isZero32 b = true) :
    fmul32 d a b = pack32 (sign32 a ^^ sign32 b) 0#8 0#23 := by
  obtain ⟨m, x, hda, -, hm⟩ := datum32_of_isFinite32 ha
  obtain ⟨n, y, hdb, -, hn⟩ := datum32_of_isFinite32 hb
  rw [← hm, ← hn] at hz
  rw [fmul32, hda, hdb, mulDatum, if_pos hz]
  rfl

theorem fmul32_of_finite (d : Draw) {a b : Word} (ha : isFinite32 a = true) (hb : isFinite32 b = true)
    (hza : isZero32 a = false) (hzb : isZero32 b = false) :
    RoundsTo32 ((val32 a : ℝ) * val32 b) (fmul32 d a b) ∧
      sign32 (fmul32 d a b) = (sign32 a ^^ sign32 b) := by
  obtain ⟨m, x, hda, -, hm0⟩ := datum32_of_nonzero ha hza
  obtain ⟨n, y, hdb, -, hn0⟩ := datum32_of_nonzero hb hzb
  have hr : RoundsTo32 ((val32 a : ℝ) * val32 b) (fmul32 d a b) := by
    rw [fmul32, val32, val32, hda, hdb]
    exact (mulDatum_fin_roundsTo binary32_valid _ _ x y hm0 hn0).word32 d
  refine ⟨hr, Bool.eq_iff_iff.2 (hr.1.trans ?_)⟩
  rw [val32, val32, hda, hdb]
  exact val_fin_mul_val_fin_neg_iff _ _ x y hm0 hn0

/-! ### binary64 multiplication (R78) -/

theorem fmul64_of_inf_zero (d : Draw) {a b : DWord}
    (h : isInf64 a = true ∧ isZero64 b = true ∨ isZero64 a = true ∧ isInf64 b = true) :
    isNaN64 (fmul64 d a b) = true := by
  rcases h with ⟨ha, hb⟩ | ⟨ha, hb⟩
  · obtain ⟨y, hb⟩ := datum64_of_isZero64 hb
    rw [fmul64, (isInf64_iff a).1 ha, hb, mulDatum, if_pos rfl]
    exact isNaN64_word64_anyNaN d
  · obtain ⟨x, ha⟩ := datum64_of_isZero64 ha
    rw [fmul64, ha, (isInf64_iff b).1 hb, mulDatum, if_pos rfl]
    exact isNaN64_word64_anyNaN d

theorem fmul64_of_inf (d : Draw) {a b : DWord} (ha : isNaN64 a = false) (hb : isNaN64 b = false)
    (h : isInf64 a = true ∨ isInf64 b = true) (hz : ¬(isZero64 a = true ∨ isZero64 b = true)) :
    fmul64 d a b = pack64 (sign64 a ^^ sign64 b) 2047#11 0#52 := by
  have hres : fmul64 d a b = (Enc.inf binary64 (sign64 a ^^ sign64 b)).word64 d := by
    rcases isInf64_or_isFinite64 ha with ha | ha <;> rcases isInf64_or_isFinite64 hb with hb | hb
    · rw [fmul64, (isInf64_iff a).1 ha, (isInf64_iff b).1 hb, mulDatum]
    · obtain ⟨n, y, hb, -, hn⟩ := datum64_of_isFinite64 hb
      rw [fmul64, (isInf64_iff a).1 ha, hb, mulDatum, if_neg fun h0 => hz (.inr (hn.1 h0))]
    · obtain ⟨m, x, ha, -, hm⟩ := datum64_of_isFinite64 ha
      rw [fmul64, ha, (isInf64_iff b).1 hb, mulDatum, if_neg fun h0 => hz (.inl (hm.1 h0))]
    · simp [isInf64_eq_false_of_isFinite64 ha, isInf64_eq_false_of_isFinite64 hb] at h
  exact hres

theorem fmul64_of_zero (d : Draw) {a b : DWord} (ha : isFinite64 a = true) (hb : isFinite64 b = true)
    (hz : isZero64 a = true ∨ isZero64 b = true) :
    fmul64 d a b = pack64 (sign64 a ^^ sign64 b) 0#11 0#52 := by
  obtain ⟨m, x, hda, -, hm⟩ := datum64_of_isFinite64 ha
  obtain ⟨n, y, hdb, -, hn⟩ := datum64_of_isFinite64 hb
  rw [← hm, ← hn] at hz
  rw [fmul64, hda, hdb, mulDatum, if_pos hz]
  rfl

theorem fmul64_of_finite (d : Draw) {a b : DWord} (ha : isFinite64 a = true) (hb : isFinite64 b = true)
    (hza : isZero64 a = false) (hzb : isZero64 b = false) :
    RoundsTo64 ((val64 a : ℝ) * val64 b) (fmul64 d a b) ∧
      sign64 (fmul64 d a b) = (sign64 a ^^ sign64 b) := by
  obtain ⟨m, x, hda, -, hm0⟩ := datum64_of_nonzero ha hza
  obtain ⟨n, y, hdb, -, hn0⟩ := datum64_of_nonzero hb hzb
  have hr : RoundsTo64 ((val64 a : ℝ) * val64 b) (fmul64 d a b) := by
    rw [fmul64, val64, val64, hda, hdb]
    exact (mulDatum_fin_roundsTo binary64_valid _ _ x y hm0 hn0).word64 d
  refine ⟨hr, Bool.eq_iff_iff.2 (hr.1.trans ?_)⟩
  rw [val64, val64, hda, hdb]
  exact val_fin_mul_val_fin_neg_iff _ _ x y hm0 hn0

end Sys2Proof.Machine

namespace Sys2Proof

open Sys2Proof.Machine Sys2Proof.Claims

/-- Settles O45, case by case of R77: the exact sum is an integer in units of the smaller exponent, rounded once. -/
theorem additionRoundsOnce : Obligations.AdditionRoundsOnce :=
  ⟨fun d _ _ => ⟨rfl, fadd32_isNaN d, fadd32_of_inf_opposite d, fadd32_of_inf_left d, fadd32_of_inf_right d,
      fadd32_of_zeros d, fadd32_of_finite d⟩,
    fun d _ _ => ⟨rfl, fadd64_isNaN d, fadd64_of_inf_opposite d, fadd64_of_inf_left d, fadd64_of_inf_right d,
      fadd64_of_zeros d, fadd64_of_finite d⟩⟩

/-- Settles O46, case by case of R78: the exact product is the product of the significands, rounded once. -/
theorem multiplicationRoundsOnce : Obligations.MultiplicationRoundsOnce :=
  ⟨fun d _ _ => ⟨fmul32_isNaN d, fmul32_of_inf_zero d, fmul32_of_inf d, fmul32_of_zero d, fmul32_of_finite d⟩,
    fun d _ _ => ⟨fmul64_isNaN d, fmul64_of_inf_zero d, fmul64_of_inf d, fmul64_of_zero d, fmul64_of_finite d⟩⟩

end Sys2Proof
end

section
/-! PROOFS. Comparisons (40_fp_numerics.md R81). -/

namespace Sys2Proof.Machine

open Sys2Proof.Claims

theorem ltDatum_nan_right (a : Datum) : ltDatum a .nan = false := by cases a <;> rfl

theorem flt32_of_isNaN32 {a b : Word} (h : isNaN32 a = true ∨ isNaN32 b = true) : flt32 a b = false := by
  rcases h with h | h
  · rw [flt32, (isNaN32_iff a).1 h, ltDatum]
  · rw [flt32, (isNaN32_iff b).1 h, ltDatum_nan_right]

theorem extended32_of_isInf32 {w : Word} (h : isInf32 w = true) :
    extended32 w = if sign32 w = true then ⊥ else ⊤ := if_pos h

theorem extended32_of_isFinite32 {w : Word} (h : isFinite32 w = true) : extended32 w = ((val32 w : ℝ) : EReal) :=
  if_neg (by simp [isInf32_eq_false_of_isFinite32 h])

/-- On words that are no NaNs `flt32` is the order of the extended reals, class by class. -/
theorem flt32_iff_extended32_lt {a b : Word} (ha : isNaN32 a = false) (hb : isNaN32 b = false) :
    flt32 a b = true ↔ extended32 a < extended32 b := by
  rcases isInf32_or_isFinite32 ha with ha | ha <;> rcases isInf32_or_isFinite32 hb with hb | hb
  · rw [flt32, (isInf32_iff a).1 ha, (isInf32_iff b).1 hb, extended32_of_isInf32 ha, extended32_of_isInf32 hb]
    cases sign32 a <;> cases sign32 b <;> simp [ltDatum]
  · obtain ⟨n, y, hdb, -⟩ := datum32_of_isFinite32 hb
    rw [flt32, (isInf32_iff a).1 ha, hdb, extended32_of_isInf32 ha, extended32_of_isFinite32 hb]
    cases sign32 a <;> simp [ltDatum, EReal.bot_lt_coe]
  · obtain ⟨m, x, hda, -⟩ := datum32_of_isFinite32 ha
    rw [flt32, hda, (isInf32_iff b).1 hb, extended32_of_isFinite32 ha, extended32_of_isInf32 hb]
    cases sign32 b <;> simp [ltDatum, EReal.coe_lt_top]
  · obtain ⟨m, x, hda, -⟩ := datum32_of_isFinite32 ha
    obtain ⟨n, y, hdb, -⟩ := datum32_of_isFinite32 hb
    rw [extended32_of_isFinite32 ha, extended32_of_isFinite32 hb, EReal.coe_lt_coe_iff, flt32, val32, val32, hda, hdb]
    exact ltDatum_fin_iff _ _ _ _ _ _

end Sys2Proof.Machine

namespace Sys2Proof

open Sys2Proof.Machine Sys2Proof.Claims

/-- Settles O48: a NaN compares false, and every other pair of words compares as its extended reals. -/
theorem comparisonsFollowExtendedReals : Obligations.ComparisonsFollowExtendedReals := by
  refine fun a b => ⟨?_, rfl⟩
  cases ha : isNaN32 a
  · cases hb : isNaN32 b
    · simpa using flt32_iff_extended32_lt ha hb
    · simp [flt32_of_isNaN32 (.inr hb)]
  · simp [flt32_of_isNaN32 (.inl ha)]

end Sys2Proof
end

section
/-! PROOFS. Conversions between the formats and from integers (40_fp_numerics.md R82, R83, R85). -/

namespace Sys2Proof.Machine

open Sys2Proof.Claims

/-! ### Results that are exact or normal -/

/-- From the least normal magnitude on the exponent field is not 0: the least normal is nearer than any subnormal. -/
theorem RoundsToFields.exp_ne_zero {f : Fmt} (hf : f.Valid) {v : ℝ} {s : Bool} {E m : Nat} (h : RoundsToFields f v s E m)
    (hv : |v| < f.overflowBound) (hmin : (2 : ℝ) ^ f.emin ≤ |v|) : E ≠ 0 := by
  rintro rfl
  have hp := hf.two_le_p
  have hb := hf.one_le_bias
  have hemin : f.emin = 1 - (f.bias : Int) := rfl
  have hemax : f.emax = f.bias := rfl
  have hle := (h.nearest hv s (2 ^ (f.p - 1)) (f.emin - (f.p - 1 : Nat))
    ⟨Nat.pow_lt_pow_right (by norm_num) (by omega), le_rfl, by omega⟩).1
  have hleast : ((Datum.fin s (2 ^ (f.p - 1)) (f.emin - (f.p - 1 : Nat))).val : ℝ) = signFactor s * 2 ^ f.emin := by
    rw [Datum.val_fin, ← f.pow_mul_ulp f.emin, Fmt.ulp]
    push_cast
    rfl
  have hsign : v = signFactor s * |v| := by
    cases s
    · rw [abs_of_nonneg (not_lt.1 fun hn => by simpa using h.sign.2 hn)]
      simp [signFactor]
    · rw [abs_of_neg (h.sign.1 rfl)]
      simp [signFactor]
  have hdist : |v - signFactor s * 2 ^ f.emin| = |v| - 2 ^ f.emin := by
    conv_lhs => rw [hsign]
    rw [← mul_sub, abs_signFactor_mul, abs_of_nonneg (sub_nonneg.2 hmin)]
  have hsub := abs_val_datumOf_zero_lt hf s h.frac_lt
  have := abs_sub_abs_le_abs_sub v (datumOf f s 0 m).val
  rw [hleast, hdist] at hle
  linarith

theorem Enc.RoundsTo.isNormal32 {v : ℝ} {r : Enc} (h : r.RoundsTo binary32 v) (d : Draw)
    (hv : |v| < binary32.overflowBound) (hmin : (2 : ℝ) ^ binary32.emin ≤ |v|) : isNormal32 (r.word32 d) = true := by
  obtain ⟨s, E, m, rfl, h⟩ := h
  have hE : (exp32 ((Enc.fields s E m).word32 d)).toNat = E := by
    rw [Enc.word32, exp32_pack32, BitVec.toNat_ofNat]
    exact Nat.mod_eq_of_lt (lt_of_le_of_lt h.exp_le (by decide))
  have hmax : E ≠ 255 := h.finite hv
  simp [Machine.isNormal32, ← BitVec.toNat_inj, hE, h.exp_ne_zero binary32_valid hv hmin, hmax]

theorem Enc.RoundsTo.isNormal64 {v : ℝ} {r : Enc} (h : r.RoundsTo binary64 v) (d : Draw)
    (hv : |v| < binary64.overflowBound) (hmin : (2 : ℝ) ^ binary64.emin ≤ |v|) : isNormal64 (r.word64 d) = true := by
  obtain ⟨s, E, m, rfl, h⟩ := h
  have hE : (exp64 ((Enc.fields s E m).word64 d)).toNat = E := by
    rw [Enc.word64, exp64_pack64, BitVec.toNat_ofNat]
    exact Nat.mod_eq_of_lt (lt_of_le_of_lt h.exp_le (by decide))
  have hmax : E ≠ 2047 := h.finite hv
  simp [Machine.isNormal64, ← BitVec.toNat_inj, hE, h.exp_ne_zero binary64_valid hv hmin, hmax]

/-- A value binary32 holds is the value of the word it is rounded to. -/
theorem Enc.RoundsTo.val32_eq {s : Bool} {n : Nat} {x : Int} {r : Enc} (h : r.RoundsTo binary32 (Datum.fin s n x).val)
    (hx : binary32.Holds n x) (d : Draw) : val32 (r.word32 d) = (Datum.fin s n x).val := by
  obtain ⟨t, E, m, rfl, h⟩ := h
  rw [val32, h.datum32_word32]
  exact h.val_eq binary32_valid hx

/-- A value binary64 holds is the value of the word it is rounded to. -/
theorem Enc.RoundsTo.val64_eq {s : Bool} {n : Nat} {x : Int} {r : Enc} (h : r.RoundsTo binary64 (Datum.fin s n x).val)
    (hx : binary64.Holds n x) (d : Draw) : val64 (r.word64 d) = (Datum.fin s n x).val := by
  obtain ⟨t, E, m, rfl, h⟩ := h
  rw [val64, h.datum64_word64]
  exact h.val_eq binary64_valid hx

/-! ### Widening and narrowing -/

/-- A finite non-zero value is rounded once by a conversion (R82, R83). -/
theorem convertDatum_fin_roundsTo {f : Fmt} (hf : f.Valid) (s : Bool) {n : Nat} (hn : n ≠ 0) (x : Int) :
    (convertDatum f (.fin s n x)).RoundsTo f (Datum.fin s n x).val := by
  rw [convertDatum, if_neg hn]
  exact roundRat_one_roundsTo hf s hn x

/-- binary64 holds every value of binary32. -/
theorem Fmt.Holds.binary64_of_binary32 {n : Nat} {x : Int} (h : binary32.Holds n x) : binary64.Holds n x := by
  obtain ⟨hn, hlo, hhi⟩ := h
  simp only [binary32, Fmt.emin, Fmt.emax] at hn hlo hhi
  exact ⟨hn.trans (by decide), by simp only [binary64, Fmt.emin]; omega, by simp only [binary64, Fmt.emax]; omega⟩

/-- Every non-zero value of binary32 is at least the least normal of binary64. -/
theorem Fmt.Holds.pow_emin_binary64_le {n : Nat} {x : Int} (h : binary32.Holds n x) (hn : n ≠ 0) (s : Bool) :
    (2 : ℝ) ^ binary64.emin ≤ |((Datum.fin s n x).val : ℝ)| := by
  have hn1 : (1 : ℝ) ≤ n := by exact_mod_cast Nat.one_le_iff_ne_zero.2 hn
  have hx : binary64.emin ≤ x := le_trans (by decide) h.le_exp
  rw [Datum.val_fin, abs_signFactor_mul, abs_of_nonneg (by positivity)]
  calc (2 : ℝ) ^ binary64.emin ≤ 2 ^ x := zpow_le_zpow_right₀ (by norm_num) hx
    _ ≤ n * 2 ^ x := le_mul_of_one_le_left (by positivity) hn1

theorem widen_of_isNaN32 (d : Draw) {a : Word} (h : isNaN32 a = true) : isNaN64 (widen d a) = true := by
  rw [widen, (isNaN32_iff a).1 h, convertDatum]
  exact isNaN64_word64_anyNaN d

theorem widen_of_isInf32 (d : Draw) {a : Word} (h : isInf32 a = true) : widen d a = pack64 (sign32 a) 2047#11 0#52 := by
  rw [widen, (isInf32_iff a).1 h, convertDatum]
  rfl

theorem widen_of_isZero32 (d : Draw) {a : Word} (h : isZero32 a = true) : widen d a = pack64 (sign32 a) 0#11 0#52 := by
  obtain ⟨x, hd⟩ := datum32_of_isZero32 h
  rw [widen, hd, convertDatum, if_pos rfl]
  rfl

theorem widen_of_finite (d : Draw) {a : Word} (h : isFinite32 a = true) (hz : isZero32 a = false) :
    isNormal64 (widen d a) = true ∧ val64 (widen d a) = val32 a := by
  obtain ⟨n, x, hd, hx, hn0⟩ := datum32_of_nonzero h hz
  have hr := convertDatum_fin_roundsTo binary64_valid (sign32 a) hn0 x
  rw [widen, val32, hd]
  exact ⟨hr.isNormal64 d (hx.binary64_of_binary32.abs_val_lt binary64_valid _) (hx.pow_emin_binary64_le hn0 _),
    hr.val64_eq hx.binary64_of_binary32 d⟩

theorem narrow_of_isNaN64 (d : Draw) {y : DWord} (h : isNaN64 y = true) : isNaN32 (narrow d y) = true := by
  rw [narrow, (isNaN64_iff y).1 h, convertDatum]
  exact isNaN32_word32_anyNaN d

theorem narrow_of_isInf64 (d : Draw) {y : DWord} (h : isInf64 y = true) : narrow d y = pack32 (sign64 y) 255#8 0#23 := by
  rw [narrow, (isInf64_iff y).1 h, convertDatum]
  rfl

theorem narrow_of_isZero64 (d : Draw) {y : DWord} (h : isZero64 y = true) : narrow d y = pack32 (sign64 y) 0#8 0#23 := by
  obtain ⟨x, hd⟩ := datum64_of_isZero64 h
  rw [narrow, hd, convertDatum, if_pos rfl]
  rfl

theorem narrow_of_finite (d : Draw) {y : DWord} (h : isFinite64 y = true) (hz : isZero64 y = false) :
    RoundsTo32 (val64 y : ℝ) (narrow d y) := by
  obtain ⟨n, x, hd, -, hn0⟩ := datum64_of_nonzero h hz
  rw [narrow, val64, hd]
  exact (convertDatum_fin_roundsTo binary32_valid (sign64 y) hn0 x).word32 d

/-! ### Integers -/

theorem i2f_zero (d : Draw) : i2f d 0 = 0x00000000#32 := rfl

/-- `i2f` of a non-zero integer is the integer rounded to binary32 (R85). -/
theorem i2f_of_ne_zero (d : Draw) {t : Int} (ht : t ≠ 0) : ∃ r : Enc, i2f d t = r.word32 d ∧ r.RoundsTo binary32 t :=
  ⟨_, by rw [i2f, if_neg ht], by simpa using roundRat_int_roundsTo binary32_valid ht 0⟩

/-- `i2f` is exact on an integer that is a value of binary32. -/
theorem val32_i2f_of_holds (d : Draw) {t : Int} {s : Bool} {n : Nat} {x : Int} (hx : binary32.Holds n x)
    (ht : (t : ℝ) = (Datum.fin s n x).val) : val32 (i2f d t) = t := by
  have htq : (Datum.fin s n x).val = (t : ℚ) := by exact_mod_cast ht.symm
  by_cases h0 : t = 0
  · subst h0
    rw [i2f_zero]
    decide +kernel
  · obtain ⟨r, heq, hr⟩ := i2f_of_ne_zero d h0
    rw [ht] at hr
    rw [heq, hr.val32_eq hx d, htq]

/-- What `f2i` answers (R84). -/
theorem f2i_eq_some {a : Word} {t : Int} (h : f2i a = some t) :
    ∃ m x, datum32 a = .fin (sign32 a) m x ∧ binary32.Holds m x ∧ t = truncInt (sign32 a) m x := by
  have hfin : isFinite32 a = true := by
    cases hn : isNaN32 a
    · refine (isInf32_or_isFinite32 hn).resolve_left fun hi => ?_
      simp [f2i, (isInf32_iff a).1 hi] at h
    · simp [f2i, (isNaN32_iff a).1 hn] at h
  obtain ⟨m, x, hd, hx, -⟩ := datum32_of_isFinite32 hfin
  simp only [f2i, hd, Option.ite_none_right_eq_some, Option.some.injEq] at h
  exact ⟨m, x, hd, hx, h.2.symm⟩

/-- With a non-negative exponent nothing is truncated. -/
theorem truncInt_of_nonneg (s : Bool) (m : Nat) {x : Int} (hx : 0 ≤ x) :
    (truncInt s m x : ℝ) = (Datum.fin s m x).val := by
  rw [truncInt, if_pos hx, signedInt_cast, Datum.val_fin]
  push_cast
  rw [← zpow_natCast, Int.toNat_of_nonneg hx]

/-- The truncated value of a binary32 word is a value of binary32: its significand is no longer than the word's. -/
theorem exists_holds_truncInt (s : Bool) {m : Nat} {x : Int} (hx : binary32.Holds m x) :
    ∃ n y, binary32.Holds n y ∧ (truncInt s m x : ℝ) = (Datum.fin s n y).val := by
  rcases le_or_gt 0 x with h0 | h0
  · exact ⟨m, x, hx, truncInt_of_nonneg s m h0⟩
  · refine ⟨m / 2 ^ (-x).toNat, 0, ⟨(Nat.div_le_self _ _).trans_lt hx.lt_pow, by decide, by decide⟩, ?_⟩
    rw [truncInt, if_neg (not_le.2 h0), signedInt_cast, Datum.val_fin, zpow_zero, mul_one]

/-- From `2^23` on a binary32 word is an integer. -/
theorem exp_nonneg_of_le_abs_val {s : Bool} {m : Nat} {x : Int} (hx : binary32.Holds m x)
    (h : (2 : ℝ) ^ 23 ≤ |((Datum.fin s m x).val : ℝ)|) : 0 ≤ x := by
  by_contra hneg
  have hm : (m : ℝ) < 2 ^ 24 := by exact_mod_cast hx.lt_pow
  have hpow : (2 : ℝ) ^ x ≤ 2 ^ (-1 : Int) := zpow_le_zpow_right₀ (by norm_num) (by omega)
  rw [Datum.val_fin, abs_signFactor_mul, abs_of_nonneg (by positivity)] at h
  have : (m : ℝ) * 2 ^ x < 2 ^ 23 := by
    calc (m : ℝ) * 2 ^ x < 2 ^ 24 * 2 ^ x := by gcongr
      _ ≤ 2 ^ 24 * 2 ^ (-1 : Int) := by gcongr
      _ = 2 ^ 23 := by norm_num
  linarith

theorem val32_i2f_of_f2i (d : Draw) {a : Word} {t : Int} (h : f2i a = some t) : val32 (i2f d t) = t := by
  obtain ⟨m, x, -, hx, rfl⟩ := f2i_eq_some h
  obtain ⟨n, y, hy, hval⟩ := exists_holds_truncInt (sign32 a) hx
  exact val32_i2f_of_holds d hy hval

theorem f2i_exact {a : Word} {t : Int} (h : f2i a = some t) (ha : 2 ^ 23 ≤ |val32 a|) : (t : ℚ) = val32 a := by
  obtain ⟨m, x, hd, hx, rfl⟩ := f2i_eq_some h
  rw [val32, hd] at ha ⊢
  have hx0 : 0 ≤ x := exp_nonneg_of_le_abs_val (s := sign32 a) hx (by exact_mod_cast ha)
  exact_mod_cast truncInt_of_nonneg (sign32 a) m hx0

end Sys2Proof.Machine

namespace Sys2Proof

open Sys2Proof.Machine Sys2Proof.Claims

/-- Settles O49: binary64 holds every value of binary32, so the rounding changes nothing, and none is below the least normal. -/
theorem widenIsExact : Obligations.WidenIsExact :=
  fun d _ => ⟨widen_of_isNaN32 d, widen_of_isInf32 d, widen_of_isZero32 d, widen_of_finite d⟩

/-- Settles O50, case by case of R83. -/
theorem narrowRoundsOnce : Obligations.NarrowRoundsOnce :=
  fun d _ => ⟨narrow_of_isNaN64 d, narrow_of_isInf64 d, narrow_of_isZero64 d, narrow_of_finite d⟩

/-- Settles O52: the truncated value of a binary32 word is a value of binary32, so it is rounded to itself, and from `2^23` on the
word was an integer. -/
theorem integerToFloatExactOnTruncation : Obligations.IntegerToFloatExactOnTruncation := by
  refine fun d => ⟨i2f_zero d, fun t _ _ ht => ?rounds, fun a t h => ⟨val32_i2f_of_f2i d h, fun ha => ?exact⟩⟩
  case rounds =>
    obtain ⟨r, heq, hr⟩ := i2f_of_ne_zero d ht
    exact heq ▸ hr.word32 d
  case exact => rw [val32_i2f_of_f2i d h, f2i_exact h ha]

end Sys2Proof
end

section
/-! PROOFS. The square root (40_fp_numerics.md R80, 41_bitops.md R114): the integer square root picks the nearest significand. -/

namespace Sys2Proof.Machine

open Sys2Proof.Claims

/-- The integer next to `√v`: `isqrt v`, or one more when `v` is past the square of the midpoint (R80's rounding of `n`). -/
def nearestRoot (k v : Nat) : Nat := if isqrt k v < v - isqrt k v * isqrt k v then isqrt k v + 1 else isqrt k v

/-- `√v` is strictly within half a unit of `nearestRoot`: no integer is the square of a midpoint. -/
theorem abs_sqrt_sub_nearestRoot_lt {k v : Nat} (h : v < 2 ^ k * 2 ^ k) : |√(v : ℝ) - nearestRoot k v| < 1 / 2 := by
  obtain ⟨hlo, hhi⟩ := isqrt_spec h
  rw [nearestRoot]
  set r := isqrt k v
  have hr0 : (0 : ℝ) ≤ r := r.cast_nonneg
  by_cases hc : r < v - r * r
  · have hge : (r : ℝ) * r + r + 1 ≤ v := by exact_mod_cast (by omega : r * r + r + 1 ≤ v)
    have hlt : (v : ℝ) < (r + 1) * (r + 1) := by exact_mod_cast hhi
    have h1 : (r : ℝ) + 1 / 2 < √v := Real.lt_sqrt_of_sq_lt (by nlinarith)
    have h2 : √(v : ℝ) < r + 1 := (Real.sqrt_lt' (by linarith)).2 (by nlinarith)
    rw [if_pos hc, abs_lt]
    push_cast
    constructor <;> linarith
  · have hle : (v : ℝ) ≤ r * r + r := by exact_mod_cast (by omega : v ≤ r * r + r)
    have hge : (r : ℝ) * r ≤ v := by exact_mod_cast hlo
    have h1 : (r : ℝ) ≤ √v := Real.le_sqrt_of_sq_le (by nlinarith)
    have h2 : √(v : ℝ) < r + 1 / 2 := (Real.sqrt_lt' (by linarith)).2 (by nlinarith)
    rw [if_neg hc, abs_lt]
    constructor <;> linarith

/-- Bounds on the radicand that are squares bound the root. -/
theorem nearestRoot_bounds {k v b : Nat} (h : v < 2 ^ k * 2 ^ k) (hb : b * b ≤ v) :
    b ≤ nearestRoot k v ∧ nearestRoot k v ≤ 2 ^ k := by
  obtain ⟨hlo, hhi⟩ := isqrt_spec h
  have h1 : b < isqrt k v + 1 := Nat.mul_self_lt_mul_self_iff.1 (hb.trans_lt hhi)
  have h2 : isqrt k v < 2 ^ k := Nat.mul_self_lt_mul_self_iff.1 (hlo.trans_lt h)
  rw [nearestRoot]
  split <;> omega

/-- The rounding of a square root picks the nearest significand, at an exponent where the root is a normal. -/
theorem roundSqrt_nearest {f : Fmt} (hf : f.Valid) (hb : f.p ≤ f.bias) {m : Nat} {x : Int} (hm : m ≠ 0) (hx : f.Holds m x) :
    ∃ i e, roundSqrt f m x = finishRound f false i e ∧ NearestSignificand f √((m : ℝ) * 2 ^ x) i e := by
  have hp := hf.two_le_p
  have hemin : f.emin = 1 - (f.bias : Int) := rfl
  have hxlo := hx.le_exp
  have hlog : Nat.log2 m < f.p := (Nat.log2_lt hm).2 hx.lt_pow
  set L := Nat.log2 m with hL
  set e : Int := ((L : Int) + x) / 2 with he
  set j := (x - 2 * (e - (f.p - 1 : Nat))).toNat with hj
  have hjx : (j : Int) = x - 2 * (e - (f.p - 1 : Nat)) := by omega
  set v := m * 2 ^ j with hv
  have hlt : v < 2 ^ f.p * 2 ^ f.p := by
    calc v < 2 ^ (L + 1) * 2 ^ j := Nat.mul_lt_mul_of_pos_right Nat.lt_log2_self (by positivity)
      _ = 2 ^ (L + 1 + j) := (pow_add _ _ _).symm
      _ ≤ 2 ^ (f.p + f.p) := Nat.pow_le_pow_right (by norm_num) (by omega)
      _ = 2 ^ f.p * 2 ^ f.p := pow_add _ _ _
  have hge : 2 ^ (f.p - 1) * 2 ^ (f.p - 1) ≤ v := by
    calc 2 ^ (f.p - 1) * 2 ^ (f.p - 1) = 2 ^ (f.p - 1 + (f.p - 1)) := (pow_add _ _ _).symm
      _ ≤ 2 ^ (L + j) := Nat.pow_le_pow_right (by norm_num) (by omega)
      _ = 2 ^ L * 2 ^ j := pow_add _ _ _
      _ ≤ v := Nat.mul_le_mul_right _ (Nat.log2_self_le hm)
  have hu := f.ulp_pos e
  have hroot : √((m : ℝ) * 2 ^ x) = √(v : ℝ) * f.ulp e := by
    have hsq : (m : ℝ) * 2 ^ x = v * f.ulp e ^ 2 := by
      rw [hv, Fmt.ulp, ← zpow_natCast (2 ^ _ : ℝ), ← zpow_mul]
      push_cast
      rw [mul_assoc, ← zpow_natCast, ← zpow_add₀ (by norm_num), hjx]
      congr 2
      ring
    rw [hsq, Real.sqrt_mul v.cast_nonneg, Real.sqrt_sq hu.le]
  have hdist : |√(v : ℝ) * f.ulp e - nearestRoot f.p v * f.ulp e| < f.ulp e / 2 := by
    rw [← sub_mul, abs_mul, abs_of_pos hu]
    have := abs_sqrt_sub_nearestRoot_lt hlt
    nlinarith
  obtain ⟨hlow, hhigh⟩ := nearestRoot_bounds hlt hge
  refine ⟨nearestRoot f.p v, e, rfl, by omega, hhigh, .inr ⟨hlow, ?_⟩, ?_, ?_, ?_⟩
  · rw [hroot, ← f.pow_mul_ulp e]
    have : (2 : ℝ) ^ (f.p - 1) ≤ √v := Real.le_sqrt_of_sq_le (by rw [sq]; exact_mod_cast hge)
    gcongr
  · rw [hroot, ← hf.pow_p_mul_ulp e]
    have : √(v : ℝ) < 2 ^ f.p := (Real.sqrt_lt' (by positivity)).2 (by rw [sq]; exact_mod_cast hlt)
    gcongr
  · rw [hroot]
    exact hdist.le
  · rw [hroot]
    exact fun h => absurd h hdist.ne

/-- `roundSqrt` is `RN_fmt` of the square root (R80). -/
theorem roundSqrt_roundsTo {f : Fmt} (hf : f.Valid) (hb : f.p ≤ f.bias) {m : Nat} {x : Int} (hm : m ≠ 0) (hx : f.Holds m x) :
    (roundSqrt f m x).RoundsTo f √((Datum.fin false m x).val : ℝ) := by
  obtain ⟨i, e, heq, h⟩ := roundSqrt_nearest hf hb hm hx
  have hr := finishRound_roundsTo hf (Real.sqrt_pos.2 (by positivity)) false h
  rw [heq, Datum.val_fin]
  simpa [signFactor] using hr

/-- A square root is never below the least normal: the exponent is halved. -/
theorem Fmt.Holds.pow_emin_le_sqrt {f : Fmt} (hf : f.Valid) (hb : f.p ≤ f.bias) {m : Nat} {x : Int} (h : f.Holds m x)
    (hm : m ≠ 0) : (2 : ℝ) ^ f.emin ≤ √((Datum.fin false m x).val : ℝ) := by
  have hp := hf.two_le_p
  have hemin : f.emin = 1 - (f.bias : Int) := rfl
  have hlo := h.le_exp
  have hm1 : (1 : ℝ) ≤ m := by exact_mod_cast Nat.one_le_iff_ne_zero.2 hm
  refine Real.le_sqrt_of_sq_le ?_
  rw [Datum.val_fin, signFactor, if_neg (by decide), one_mul, ← zpow_natCast, ← zpow_mul]
  calc (2 : ℝ) ^ (f.emin * (2 : Nat)) ≤ 2 ^ x := zpow_le_zpow_right₀ (by norm_num) (by push_cast; omega)
    _ ≤ m * 2 ^ x := le_mul_of_one_le_left (by positivity) hm1

/-- A square root never overflows: it is at most the larger of its operand and 1. -/
theorem Fmt.Holds.sqrt_lt_overflowBound {f : Fmt} (hf : f.Valid) {m : Nat} {x : Int} (h : f.Holds m x) (s : Bool) :
    √((Datum.fin s m x).val : ℝ) < f.overflowBound := by
  have hone : (1 : ℝ) ≤ f.overflowBound :=
    (one_le_zpow₀ (by norm_num) (by simp [Fmt.emax])).trans f.pow_emax_le_overflowBound
  have hval := (le_abs_self _).trans_lt (h.abs_val_lt hf s)
  exact (Real.sqrt_lt' (by linarith)).2 (hval.trans_le (by nlinarith))

/-! ### `fsqrt32` case by case -/

theorem fsqrt32_of_isZero32 (d : Draw) {a : Word} (h : isZero32 a = true) : fsqrt32 d a = a := by
  obtain ⟨x, hd⟩ := datum32_of_isZero32 h
  rw [fsqrt32, hd, sqrtDatum, if_pos rfl]
  exact (eq_pack32_of_isZero32 h).symm

theorem fsqrt32_infinity (d : Draw) : fsqrt32 d 0x7F800000#32 = 0x7F800000#32 := by
  have hd : datum32 0x7F800000#32 = .inf false := by decide
  rw [fsqrt32, hd, sqrtDatum, if_neg (by decide)]
  rfl

/-- A negative operand that is no zero gives a NaN, `-inf` included. -/
theorem fsqrt32_of_negative (d : Draw) {a : Word} (hs : sign32 a = true) (hz : isZero32 a = false) :
    isNaN32 (fsqrt32 d a) = true := by
  cases hn : isNaN32 a
  · have hnan : sqrtDatum binary32 (datum32 a) = .anyNaN := by
      rcases isInf32_or_isFinite32 hn with h | h
      · rw [(isInf32_iff a).1 h, hs, sqrtDatum, if_pos rfl]
      · obtain ⟨m, x, hd, -, hm0⟩ := datum32_of_nonzero h hz
        rw [hd, hs, sqrtDatum, if_neg hm0, if_pos rfl]
    rw [fsqrt32, hnan]
    exact isNaN32_word32_anyNaN d
  · exact fsqrt32_isNaN d hn

theorem fsqrt32_of_positive (d : Draw) {a : Word} (h : isFinite32 a = true) (hs : sign32 a = false) (hz : isZero32 a = false) :
    isNormal32 (fsqrt32 d a) = true ∧ sign32 (fsqrt32 d a) = false ∧ RoundsTo32 √(val32 a : ℝ) (fsqrt32 d a) := by
  obtain ⟨m, x, hd, hx, hm0⟩ := datum32_of_nonzero h hz
  rw [hs] at hd
  have hbias : binary32.p ≤ binary32.bias := by decide
  have hr := roundSqrt_roundsTo binary32_valid hbias hm0 hx
  have habs := abs_of_nonneg (Real.sqrt_nonneg ((Datum.fin false m x).val : ℝ))
  have hres : fsqrt32 d a = (roundSqrt binary32 m x).word32 d := by
    rw [fsqrt32, hd, sqrtDatum, if_neg hm0, if_neg (by decide)]
  rw [hres, val32, hd]
  refine ⟨hr.isNormal32 d ?_ ?_, ?_, hr.word32 d⟩
  · rw [habs]
    exact hx.sqrt_lt_overflowBound binary32_valid false
  · rw [habs]
    exact hx.pow_emin_le_sqrt binary32_valid hbias hm0
  · exact Bool.eq_false_iff.2 fun hneg => not_lt.2 (Real.sqrt_nonneg _) ((hr.word32 d).1.1 hneg)

end Sys2Proof.Machine

namespace Sys2Proof

open Sys2Proof.Machine Sys2Proof.Claims

theorem decode_sqrt (a b : Word) : decode ⟨0x04#8, a, b⟩ = .ok (.sqrt a) :=
  decode_of_mem_commandTable (r := (0x04#8, ⟨0b000#3, 0#1, 0x4#4⟩, fun a _ => .sqrt a)) (by simp [commandTable]) a b

/-- `SQRT` answers with `fsqrt32` on the transaction's draw (41_bitops.md R114). -/
theorem answers_sqrt (a : Word) (s : State) : Answers (.sqrt a) s (fsqrt32 s.draw a) := exec_eq (.sqrt a) s

/-- Settles O24, case by case of R80: the root is an integer square root at the halved exponent, never halfway between two
significands, never subnormal and never too large. -/
theorem sqrtCorrectlyRounded : Obligations.SqrtCorrectlyRounded := by
  refine fun a b s => ⟨decode_sqrt a b, ?same, ?nan, ?rounded⟩
  case same =>
    intro h
    have hans := answers_sqrt a s
    rcases h with h | rfl
    · rwa [fsqrt32_of_isZero32 _ h] at hans
    · rwa [fsqrt32_infinity] at hans
  case nan =>
    exact fun h => ⟨_, answers_sqrt a s, h.elim (fsqrt32_isNaN _) fun h => fsqrt32_of_negative _ h.1 h.2⟩
  case rounded => exact fun h hs hz => ⟨_, answers_sqrt a s, fsqrt32_of_positive _ h hs hz⟩

end Sys2Proof
end

section
/-! PROOFS. The magnitude bits of finite words order as their magnitudes (40_fp_numerics.md R70, R73, R75), so a bound on a value is a
bound on a word, and a non-zero value belongs to one word only. -/

namespace Sys2Proof.Machine

open Sys2Proof.Claims

/-! ### Fields -/

/-- The magnitude of subnormal fields and zeros (R73). -/
theorem abs_val_datumOf_zero {f : Fmt} (hf : f.Valid) (s : Bool) (m : Nat) :
    |((datumOf f s 0 m).val : ℝ)| = m * f.ulp f.emin := by
  have hx := hf.expMax_eq
  rw [datumOf, if_neg (by omega), if_pos rfl, Datum.val_fin, abs_signFactor_mul, abs_of_nonneg (by positivity), Fmt.ulp]

/-- The magnitude of normal fields (R73). -/
theorem abs_val_datumOf_normal {f : Fmt} (s : Bool) {E : Nat} (h0 : E ≠ 0) (hE : E < f.expMax) (m : Nat) :
    |((datumOf f s E m).val : ℝ)| = (2 ^ (f.p - 1) + m) * f.ulp (E - f.bias) := by
  rw [datumOf, if_neg hE.ne, if_neg h0, Datum.val_fin, abs_signFactor_mul, abs_of_nonneg (by positivity), Fmt.ulp]
  push_cast
  rfl

/-- The exponent field bounds the magnitude by the end of its binade. -/
theorem abs_val_datumOf_lt {f : Fmt} (hf : f.Valid) (s : Bool) {E m : Nat} (hE : E < f.expMax) (hm : m < 2 ^ (f.p - 1)) :
    |((datumOf f s E m).val : ℝ)| < 2 ^ ((E : Int) + 1 - f.bias) := by
  rcases eq_or_ne E 0 with rfl | h0
  · simpa [Fmt.emin] using abs_val_datumOf_zero_lt hf s hm
  · have hu := f.ulp_pos (E - f.bias)
    have hmr : (m : ℝ) < 2 ^ (f.p - 1) := by exact_mod_cast hm
    rw [abs_val_datumOf_normal s h0 hE, show (E : Int) + 1 - f.bias = E - f.bias + 1 by ring, zpow_add_one₀ (by norm_num),
      ← f.pow_mul_ulp]
    nlinarith

/-- An exponent field that is not 0 bounds it from below by the beginning of its binade. -/
theorem pow_le_abs_val_datumOf {f : Fmt} (s : Bool) {E : Nat} (h0 : E ≠ 0) (hE : E < f.expMax) (m : Nat) :
    (2 : ℝ) ^ ((E : Int) - f.bias) ≤ |((datumOf f s E m).val : ℝ)| := by
  rw [abs_val_datumOf_normal s h0 hE, ← f.pow_mul_ulp]
  exact mul_le_mul_of_nonneg_right (le_add_of_nonneg_right m.cast_nonneg) (f.ulp_pos _).le

/-- Fields that differ in the exponent order by it: their binades do not meet. -/
theorem abs_val_datumOf_lt_of_exp_lt {f : Fmt} (hf : f.Valid) (s t : Bool) {E E' m : Nat} (h : E < E') (hE' : E' < f.expMax)
    (hm : m < 2 ^ (f.p - 1)) (m' : Nat) : |((datumOf f s E m).val : ℝ)| < |((datumOf f t E' m').val : ℝ)| :=
  calc |((datumOf f s E m).val : ℝ)| < 2 ^ ((E : Int) + 1 - f.bias) := abs_val_datumOf_lt hf s (h.trans hE') hm
    _ ≤ 2 ^ ((E' : Int) - f.bias) := zpow_le_zpow_right₀ (by norm_num) (by omega)
    _ ≤ _ := pow_le_abs_val_datumOf t (by omega) hE' m'

/-- Fields with the same exponent order by the fraction: they count the same unit. -/
theorem abs_val_datumOf_lt_iff_frac_lt {f : Fmt} (hf : f.Valid) (s t : Bool) {E : Nat} (hE : E < f.expMax) (m m' : Nat) :
    |((datumOf f s E m).val : ℝ)| < |((datumOf f t E m').val : ℝ)| ↔ m < m' := by
  rcases eq_or_ne E 0 with rfl | h0
  · rw [abs_val_datumOf_zero hf, abs_val_datumOf_zero hf, mul_lt_mul_iff_of_pos_right (f.ulp_pos _), Nat.cast_lt]
  · rw [abs_val_datumOf_normal s h0 hE, abs_val_datumOf_normal t h0 hE, mul_lt_mul_iff_of_pos_right (f.ulp_pos _),
      add_lt_add_iff_left, Nat.cast_lt]

/-- The magnitudes of finite fields order as the exponent and the fraction, read as one number. -/
theorem abs_val_datumOf_lt_iff {f : Fmt} (hf : f.Valid) (s t : Bool) {E E' m m' : Nat} (hE : E < f.expMax) (hE' : E' < f.expMax)
    (hm : m < 2 ^ (f.p - 1)) (hm' : m' < 2 ^ (f.p - 1)) :
    |((datumOf f s E m).val : ℝ)| < |((datumOf f t E' m').val : ℝ)| ↔ E < E' ∨ E = E' ∧ m < m' := by
  rcases lt_trichotomy E E' with h | rfl | h
  · simp [h, abs_val_datumOf_lt_of_exp_lt hf s t h hE' hm m']
  · simp [abs_val_datumOf_lt_iff_frac_lt hf s t hE m m']
  · simp [h.not_gt, h.ne', (abs_val_datumOf_lt_of_exp_lt hf t s h hE hm' m).le]

/-! ### binary32 words -/

/-- A word as a number: the three fields side by side. -/
theorem toNat_eq_fields32 (w : Word) :
    w.toNat = (sign32 w).toNat * 2 ^ 31 + (exp32 w).toNat * 2 ^ 23 + (frac32 w).toNat := by
  have hs : (sign32 w).toNat = w.toNat / 2 ^ 31 % 2 := by
    rw [sign32, BitVec.getLsbD, Nat.toNat_testBit]
  have he : (exp32 w).toNat = w.toNat / 2 ^ 23 % 2 ^ 8 := by
    rw [exp32, BitVec.extractLsb'_toNat, Nat.shiftRight_eq_div_pow]
  have hf : (frac32 w).toNat = w.toNat % 2 ^ 23 := by
    rw [frac32, BitVec.extractLsb'_toNat, Nat.shiftRight_zero]
  have := w.isLt
  omega

/-- The magnitude bits as a number. -/
theorem toNat_mag32 (w : Word) : (mag32 w).toNat = (exp32 w).toNat * 2 ^ 23 + (frac32 w).toNat := by
  simp [toNat_eq_fields32 (mag32 w)]

theorem isFinite32_eq_false_of_isNaN32 {w : Word} (h : isNaN32 w = true) : isFinite32 w = false := by
  simp only [isNaN32, Bool.and_eq_true, beq_iff_eq] at h
  simp [isFinite32, h]

theorem isFinite32_iff_exp_lt (w : Word) : isFinite32 w = true ↔ (exp32 w).toNat < 255 := by
  have := (exp32 w).isLt
  simp only [isFinite32, bne_iff_ne, ne_eq, ← BitVec.toNat_inj, BitVec.toNat_ofNat]
  omega

/-- The sign bit above the magnitude bits. -/
theorem toNat_eq_sign_add_mag32 (w : Word) : w.toNat = (sign32 w).toNat * 2 ^ 31 + (mag32 w).toNat := by
  rw [toNat_mag32, toNat_eq_fields32 w, add_assoc]

/-- The magnitude bits of a finite word are below those of the infinities. -/
theorem toNat_mag32_lt_of_isFinite32 {w : Word} (h : isFinite32 w = true) : (mag32 w).toNat < 0x7F800000 := by
  have he := (isFinite32_iff_exp_lt w).1 h
  have hf := (frac32 w).isLt
  rw [toNat_mag32]
  omega

/-- Finite words order by magnitude as their magnitude bits do. -/
theorem abs_val32_lt_iff {a b : Word} (ha : isFinite32 a = true) (hb : isFinite32 b = true) :
    |val32 a| < |val32 b| ↔ mag32 a < mag32 b := by
  have h := abs_val_datumOf_lt_iff binary32_valid (sign32 a) (sign32 b) ((isFinite32_iff_exp_lt a).1 ha)
    ((isFinite32_iff_exp_lt b).1 hb) (frac32 a).isLt (frac32 b).isLt
  have hfa := (frac32 a).isLt
  have hfb := (frac32 b).isLt
  rw [BitVec.lt_def, toNat_mag32, toNat_mag32, val32, val32, datum32, datum32, ← Rat.cast_lt (K := ℝ), Rat.cast_abs,
    Rat.cast_abs, h]
  omega

theorem abs_val32_le_iff {a b : Word} (ha : isFinite32 a = true) (hb : isFinite32 b = true) :
    |val32 a| ≤ |val32 b| ↔ mag32 a ≤ mag32 b := by
  rw [← not_lt, abs_val32_lt_iff hb ha, BitVec.not_lt]

/-- Finite words of one magnitude have the same magnitude bits. -/
theorem mag32_eq_of_abs_val32_eq {a b : Word} (ha : isFinite32 a = true) (hb : isFinite32 b = true)
    (h : |val32 a| = |val32 b|) : mag32 a = mag32 b :=
  BitVec.le_antisymm ((abs_val32_le_iff ha hb).1 h.le) ((abs_val32_le_iff hb ha).1 h.ge)

/-- A word is its sign and its magnitude bits. -/
theorem eq_of_mag32_eq {a b : Word} (h : mag32 a = mag32 b) (hs : sign32 a = sign32 b) : a = b :=
  word_ext hs (by rw [← exp32_mag32 a, h, exp32_mag32]) (by rw [← frac32_mag32 a, h, frac32_mag32])

/-! ### The sign of a value -/

/-- A word without a value (R73) has the model's 0. -/
theorem isFinite32_of_val32_ne_zero {a : Word} (h : val32 a ≠ 0) : isFinite32 a = true := by
  cases hn : isNaN32 a
  · exact (isInf32_or_isFinite32 hn).resolve_left fun hi => h (by rw [val32, (isInf32_iff a).1 hi]; rfl)
  · exact absurd (by rw [val32, (isNaN32_iff a).1 hn]; rfl) h

theorem val32_eq_signFactor_mul_abs (a : Word) : (val32 a : ℝ) = signFactor (sign32 a) * |(val32 a : ℝ)| := by
  by_cases h0 : val32 a = 0
  · simp [h0]
  · obtain ⟨m, x, hd, -⟩ := datum32_of_isFinite32 (isFinite32_of_val32_ne_zero h0)
    rw [val32, hd, Datum.val_fin, abs_signFactor_mul, abs_of_nonneg (by positivity)]

theorem val32_of_sign_false {a : Word} (h : sign32 a = false) : val32 a = |val32 a| := by
  have hv := val32_eq_signFactor_mul_abs a
  rw [h, signFactor, if_neg (by decide), one_mul] at hv
  exact_mod_cast hv

theorem val32_of_sign_true {a : Word} (h : sign32 a = true) : val32 a = -|val32 a| := by
  have hv := val32_eq_signFactor_mul_abs a
  rw [h, signFactor, if_pos rfl, neg_one_mul] at hv
  exact_mod_cast hv

/-- A value that is not 0 is negative exactly when the sign bit is set. -/
theorem val32_neg_iff {a : Word} (h : val32 a ≠ 0) : val32 a < 0 ↔ sign32 a = true := by
  have hpos := abs_pos.2 h
  cases hs : sign32 a
  · simpa using val32_of_sign_false hs ▸ hpos.le
  · rw [val32_of_sign_true hs]
    simpa using h

/-- A value that is not 0 belongs to one word only. -/
theorem eq_of_val32_eq {a b : Word} (h : val32 a = val32 b) (h0 : val32 a ≠ 0) : a = b := by
  have hb0 : val32 b ≠ 0 := h ▸ h0
  refine eq_of_mag32_eq (mag32_eq_of_abs_val32_eq (isFinite32_of_val32_ne_zero h0) (isFinite32_of_val32_ne_zero hb0)
    (by rw [h])) (Bool.eq_iff_iff.2 ?_)
  rw [← val32_neg_iff h0, ← val32_neg_iff hb0, h]

/-- The value is 0 exactly on the two zeros among the finite words. -/
theorem val32_eq_zero_iff {a : Word} (ha : isFinite32 a = true) : val32 a = 0 ↔ isZero32 a = true := by
  obtain ⟨m, x, hd, -, h0⟩ := datum32_of_isFinite32 ha
  rw [← h0, val32, hd, ← Rat.cast_eq_zero (α := ℝ), Datum.val_fin]
  cases sign32 a <;> simp [signFactor, zpow_ne_zero]

theorem eq_zero_of_val32_eq_zero {a : Word} (ha : isFinite32 a = true) (h : val32 a = 0) (hne : a ≠ 0x80000000#32) :
    a = 0x00000000#32 := by
  have hfields := eq_pack32_of_isZero32 ((val32_eq_zero_iff ha).1 h)
  cases hs : sign32 a
  · rw [hfields, hs]
    decide
  · rw [hs] at hfields
    exact absurd (hfields.trans (by decide)) hne

/-- A word that rounds a non-zero value of binary32 is the word of that value (R76). -/
theorem eq_of_roundsTo32_val32 {w r : Word} (h0 : val32 w ≠ 0) (h : RoundsTo32 (val32 w : ℝ) r) : r = w := by
  have hw := isFinite32_of_val32_ne_zero h0
  obtain ⟨m, x, hd, hx, -⟩ := datum32_of_isFinite32 hw
  have hlt := hx.abs_val_lt binary32_valid (sign32 w)
  rw [← hd, ← val32, binary32_overflowBound] at hlt
  have hle := ((h.2.1 hlt).2 w hw).1
  rw [sub_self, abs_zero, abs_nonpos_iff, sub_eq_zero] at hle
  exact (eq_of_val32_eq (by exact_mod_cast hle) h0).symm

end Sys2Proof.Machine
end

section
/-! PROOFS. The conversion to an integer and its domain (40_fp_numerics.md R84): truncation is the floor of a value with sign bit 0 and
the ceiling of one with sign bit 1. -/

namespace Sys2Proof.Machine

/-- The integer `f2i` truncates a word's value to. -/
def truncated32 (a : Word) : Int := if sign32 a then ⌈val32 a⌉ else ⌊val32 a⌋

theorem truncated32_of_sign_false {a : Word} (h : sign32 a = false) : truncated32 a = ⌊val32 a⌋ := by simp [truncated32, h]

theorem truncated32_of_sign_true {a : Word} (h : sign32 a = true) : truncated32 a = ⌈val32 a⌉ := by simp [truncated32, h]

/-- Shifting a significand right drops the fraction of `m * 2^x`. -/
theorem floor_mul_zpow (m : Nat) (x : Int) :
    ⌊(m : ℚ) * 2 ^ x⌋ = ((if 0 ≤ x then m * 2 ^ x.toNat else m / 2 ^ (-x).toNat : Nat) : Int) := by
  by_cases hx : 0 ≤ x
  · rw [if_pos hx]
    conv_lhs => rw [← Int.toNat_of_nonneg hx, zpow_natCast]
    exact_mod_cast Int.floor_natCast (R := ℚ) (m * 2 ^ x.toNat)
  · rw [if_neg hx]
    have hneg : x = -((-x).toNat : Int) := by omega
    conv_lhs => rw [hneg, zpow_neg, zpow_natCast, ← div_eq_mul_inv]
    simpa using Rat.floor_intCast_div_natCast m (2 ^ (-x).toNat)

/-- Truncation is the ceiling of a datum with sign bit 1 and the floor of one with sign bit 0. -/
theorem truncInt_eq (s : Bool) (m : Nat) (x : Int) :
    truncInt s m x = if s then ⌈(Datum.fin s m x).val⌉ else ⌊(Datum.fin s m x).val⌋ := by
  rw [truncInt, signedInt, ← floor_mul_zpow, Datum.val, signedInt]
  cases s <;> simp [Int.ceil_neg]

/-- `f2i` of a finite word (R84). -/
theorem f2i_of_isFinite32 {a : Word} (h : isFinite32 a = true) :
    f2i a = if -(2 ^ 31) ≤ truncated32 a ∧ truncated32 a ≤ 2 ^ 31 - 1 then some (truncated32 a) else none := by
  obtain ⟨m, x, hd, -⟩ := datum32_of_isFinite32 h
  rw [f2i, truncated32, val32, hd, ← truncInt_eq]

/-! ### The domain -/

/-- The words `f2i` converts (R84). -/
structure F2iDomain (a : Word) : Prop where
  finite : isFinite32 a = true
  lower : -2147483648 ≤ val32 a
  upper : val32 a ≤ 2147483520

/-- No value of binary32 lies between `2^31 - 128` and `2^31`: their words are neighbours (R84). -/
theorem abs_val32_lt_two_pow_31_iff {a : Word} (h : isFinite32 a = true) :
    |val32 a| < 2 ^ 31 ↔ |val32 a| ≤ 2147483520 := by
  have hval : |val32 0x4F000000#32| = 2 ^ 31 ∧ |val32 0x4EFFFFFF#32| = 2147483520 := by decide +kernel
  have hnext : (mag32 0x4F000000#32).toNat = (mag32 0x4EFFFFFF#32).toNat + 1 := by decide
  rw [← hval.1, ← hval.2, abs_val32_lt_iff h (by decide), abs_val32_le_iff h (by decide), BitVec.lt_def, BitVec.le_def, hnext,
    Nat.lt_succ_iff]

/-- None lies between `2^31` and `2^31 + 1` either. -/
theorem abs_val32_lt_two_pow_31_add_one_iff {a : Word} (h : isFinite32 a = true) :
    |val32 a| < 2 ^ 31 + 1 ↔ |val32 a| ≤ 2 ^ 31 := by
  have hval : |val32 0xCF000000#32| = 2 ^ 31 ∧ |val32 0xCF000001#32| = 2147483904 := by decide +kernel
  have hnext : (mag32 0xCF000001#32).toNat = (mag32 0xCF000000#32).toNat + 1 := by decide
  refine ⟨fun hlt => ?_, fun hle => by linarith⟩
  have hlt' : |val32 a| < |val32 0xCF000001#32| := by rw [hval.2]; linarith
  rw [abs_val32_lt_iff h (by decide), BitVec.lt_def, hnext, Nat.lt_succ_iff] at hlt'
  rwa [← hval.1, abs_val32_le_iff h (by decide), BitVec.le_def]

/-- The truncated value fits 32 bits exactly when the value lies in R84's range. -/
theorem truncated32_fits_iff {a : Word} (h : isFinite32 a = true) :
    -(2 ^ 31) ≤ truncated32 a ∧ truncated32 a ≤ 2 ^ 31 - 1 ↔ -2147483648 ≤ val32 a ∧ val32 a ≤ 2147483520 := by
  have hpos := abs_nonneg (val32 a)
  cases hs : sign32 a
  · rw [truncated32_of_sign_false hs, val32_of_sign_false hs]
    have hlo : 0 ≤ ⌊|val32 a|⌋ := Int.floor_nonneg.2 hpos
    have hhi : ⌊|val32 a|⌋ ≤ 2 ^ 31 - 1 ↔ |val32 a| ≤ 2147483520 := by
      rw [Int.le_sub_one_iff, Int.floor_lt, ← abs_val32_lt_two_pow_31_iff h]
      norm_num
    exact and_congr (iff_of_true (by omega) (by linarith)) hhi
  · rw [truncated32_of_sign_true hs, val32_of_sign_true hs]
    have hhi : ⌈-|val32 a|⌉ ≤ 0 := Int.ceil_nonpos.2 (neg_nonpos.2 hpos)
    have hlo : -(2 ^ 31) ≤ ⌈-|val32 a|⌉ ↔ -2147483648 ≤ -|val32 a| := by
      rw [← Int.sub_one_lt_iff, Int.lt_ceil, neg_le_neg_iff, show (2147483648 : ℚ) = 2 ^ 31 by norm_num,
        ← abs_val32_lt_two_pow_31_add_one_iff h, ← neg_lt_neg_iff, neg_neg]
      norm_num
    exact and_congr hlo (iff_of_true (by omega) (by linarith))

/-- `f2i` converts a word of its domain to the truncated value. -/
theorem f2i_of_domain {a : Word} (h : F2iDomain a) : f2i a = some (truncated32 a) := by
  rw [f2i_of_isFinite32 h.finite, if_pos ((truncated32_fits_iff h.finite).2 ⟨h.lower, h.upper⟩)]

/-- Outside its domain `f2i` gives no integer. -/
theorem f2i_of_not_domain {a : Word} (h : ¬F2iDomain a) : f2i a = none := by
  cases hf : isFinite32 a
  · rw [Option.eq_none_iff_forall_ne_some]
    intro t ht
    obtain ⟨m, x, hd, -⟩ := f2i_eq_some ht
    exact absurd ((isFinite32_iff a).2 ⟨m, x, hd⟩) (by simp [hf])
  · rw [f2i_of_isFinite32 hf, if_neg]
    intro hfit
    obtain ⟨hlo, hhi⟩ := (truncated32_fits_iff hf).1 hfit
    exact h ⟨hf, hlo, hhi⟩

/-! ### Truncation and the floor -/

/-- Truncation that raised the value gave the integer above it, at most 0: the value is a negative fraction. -/
theorem truncated32_of_val32_lt {a : Word} (h : val32 a < truncated32 a) :
    truncated32 a = ⌊val32 a⌋ + 1 ∧ truncated32 a ≤ 0 := by
  cases hs : sign32 a
  · rw [truncated32_of_sign_false hs] at h
    exact absurd h (Int.floor_le _).not_gt
  · rw [truncated32_of_sign_true hs] at h ⊢
    have hnonpos : val32 a ≤ 0 := by
      rw [val32_of_sign_true hs]
      exact neg_nonpos.2 (abs_nonneg _)
    have hlt : ⌊val32 a⌋ < ⌈val32 a⌉ := by exact_mod_cast (Int.floor_le (val32 a)).trans_lt h
    exact ⟨le_antisymm (Int.ceil_le_floor_add_one _) hlt, Int.ceil_nonpos.2 hnonpos⟩

/-- Truncation that did not raise the value gave its floor. -/
theorem truncated32_of_le_val32 {a : Word} (h : truncated32 a ≤ val32 a) : truncated32 a = ⌊val32 a⌋ := by
  cases hs : sign32 a
  · exact truncated32_of_sign_false hs
  · rw [truncated32_of_sign_true hs] at h ⊢
    exact le_antisymm (Int.le_floor.2 h) (Int.floor_le_ceil _)

/-- Inside the domain of `f2i` truncation gives the floor, unless it raised a negative fraction, whose magnitude is below
`2^23`. -/
theorem truncated32_cases {a : Word} (h : f2i a = some (truncated32 a)) :
    (¬ val32 a < truncated32 a ∧ truncated32 a = ⌊val32 a⌋) ∨
      (val32 a < truncated32 a ∧ truncated32 a = ⌊val32 a⌋ + 1 ∧ -2 ^ 23 < truncated32 a ∧ truncated32 a ≤ 0) := by
  by_cases hlt : val32 a < truncated32 a
  · obtain ⟨hfl, hle⟩ := truncated32_of_val32_lt hlt
    have hsmall : |val32 a| < 2 ^ 23 := not_le.1 fun hbig => hlt.ne' (f2i_exact h hbig)
    exact .inr ⟨hlt, hfl, by exact_mod_cast (abs_lt.1 hsmall).1.trans hlt, hle⟩
  · exact .inl ⟨hlt, truncated32_of_le_val32 (not_lt.1 hlt)⟩

/-! ### The words outside the domain -/

/-- Finite values from `2^31` on, as words. -/
theorem two_pow_31_le_val32_iff {a : Word} (h : isFinite32 a = true) :
    2 ^ 31 ≤ val32 a ↔ 0x4F000000#32 ≤ a ∧ a ≤ 0x7F7FFFFF#32 := by
  have hbound : |val32 0x4F000000#32| = 2 ^ 31 ∧ (mag32 0x4F000000#32).toNat = 0x4F000000 := by decide +kernel
  obtain ⟨hval, hmag⟩ := hbound
  have hinf := toNat_mag32_lt_of_isFinite32 h
  have hfields := toNat_eq_sign_add_mag32 a
  simp only [BitVec.le_def, BitVec.toNat_ofNat]
  cases hs : sign32 a
  · rw [hs, Bool.toNat_false] at hfields
    rw [val32_of_sign_false hs, ← hval, abs_val32_le_iff (by decide) h, BitVec.le_def, hmag]
    omega
  · rw [hs, Bool.toNat_true] at hfields
    have hnonpos := abs_nonneg (val32 a)
    rw [val32_of_sign_true hs]
    exact iff_of_false (by linarith) (by omega)

/-- Finite values below `-2^31`, as words. -/
theorem val32_lt_neg_two_pow_31_iff {a : Word} (h : isFinite32 a = true) :
    val32 a < -2 ^ 31 ↔ 0xCF000001#32 ≤ a ∧ a ≤ 0xFF7FFFFF#32 := by
  have hbound : |val32 0xCF000000#32| = 2 ^ 31 ∧ (mag32 0xCF000000#32).toNat = 0x4F000000 := by decide +kernel
  obtain ⟨hval, hmag⟩ := hbound
  have hinf := toNat_mag32_lt_of_isFinite32 h
  have hfields := toNat_eq_sign_add_mag32 a
  simp only [BitVec.le_def, BitVec.toNat_ofNat]
  cases hs : sign32 a
  · rw [hs, Bool.toNat_false] at hfields
    have hnonneg := abs_nonneg (val32 a)
    rw [val32_of_sign_false hs]
    exact iff_of_false (by linarith) (by omega)
  · rw [hs, Bool.toNat_true] at hfields
    rw [val32_of_sign_true hs, neg_lt_neg_iff, ← hval, abs_val32_lt_iff (by decide) h, BitVec.lt_def, hmag]
    omega

end Sys2Proof.Machine
end

section
/-! PROOFS. `FLOOR` (41_bitops.md R112, R113). -/

namespace Sys2Proof.Machine

/-- Finite words compare as their values (R81). -/
theorem flt32_iff_val32_lt {a b : Word} (ha : isFinite32 a = true) (hb : isFinite32 b = true) :
    flt32 a b = true ↔ val32 a < val32 b := by
  obtain ⟨m, x, hda, -⟩ := datum32_of_isFinite32 ha
  obtain ⟨n, y, hdb, -⟩ := datum32_of_isFinite32 hb
  rw [flt32, val32, val32, hda, hdb, ltDatum_fin_iff, Rat.cast_lt]

/-- A word that holds an integer is finite, `i2f 0` included. -/
theorem isFinite32_i2f (d : Draw) {t : Int} (h : val32 (i2f d t) = t) : isFinite32 (i2f d t) = true := by
  by_cases h0 : t = 0
  · subst h0
    rw [i2f_zero]
    decide
  · exact isFinite32_of_val32_ne_zero (by rw [h]; exact_mod_cast h0)

/-- binary32 holds every integer of 24 bits. -/
theorem val32_i2f_of_natAbs_lt (d : Draw) {t : Int} (h : t.natAbs < 2 ^ 24) : val32 (i2f d t) = t := by
  have hx : binary32.Holds t.natAbs 0 := ⟨h, by decide, by decide⟩
  refine val32_i2f_of_holds d (s := decide (t < 0)) hx ?_
  rw [Datum.val_fin, zpow_zero, mul_one, ← signedInt_cast, signedInt_neg_natAbs]

/-- Subtracting 1 from an integer is exact while both have 24 bits (C1). -/
theorem fsub32_i2f_one (d : Draw) {t : Int} (h : t.natAbs < 2 ^ 24) (h' : (t - 1).natAbs < 2 ^ 24) (h1 : t ≠ 1) :
    fsub32 d (i2f d t) one32 = i2f d (t - 1) := by
  have ht := val32_i2f_of_natAbs_lt d h
  have ht' := val32_i2f_of_natAbs_lt d h'
  have hone : val32 (flipSign32 one32) = -1 ∧ isFinite32 (flipSign32 one32) = true ∧ isZero32 (flipSign32 one32) = false := by
    decide +kernel
  obtain ⟨hval, hfin, hz⟩ := hone
  have hsum : val32 (i2f d t) + val32 (flipSign32 one32) = val32 (i2f d (t - 1)) := by
    rw [ht, ht', hval]
    push_cast
    ring
  have hne : val32 (i2f d (t - 1)) ≠ 0 := by
    rw [ht']
    exact_mod_cast sub_ne_zero.2 h1
  have hr := (fadd32_of_finite d (isFinite32_i2f d ht) hfin (by simp [hz])).2 (hsum ▸ hne)
  rw [← Rat.cast_add, hsum] at hr
  exact eq_of_roundsTo32_val32 hne hr

/-- `FLOORF` inside the domain of `f2i` gives the floor as a word, exactly (R112): the subtraction of 1 makes up for the truncation
of a negative fraction. -/
theorem floorFn_of_domain (d : Draw) {a : Word} (h : F2iDomain a) :
    floorFn d a = some (i2f d ⌊val32 a⌋) ∧ val32 (i2f d ⌊val32 a⌋) = ⌊val32 a⌋ := by
  have hf2i := f2i_of_domain h
  have hval := val32_i2f_of_f2i d hf2i
  have hgt : fgt32 (i2f d (truncated32 a)) a = true ↔ val32 a < truncated32 a := by
    rw [fgt32, flt32_iff_val32_lt h.finite (isFinite32_i2f d hval), hval]
  simp only [floorFn, hf2i, hgt]
  rcases truncated32_cases hf2i with ⟨hge, hfl⟩ | ⟨hlt, hfl, hbelow, hle⟩
  · rw [if_neg hge, ← hfl]
    exact ⟨rfl, hval⟩
  · have hfl' : ⌊val32 a⌋ = truncated32 a - 1 := by omega
    rw [if_pos hlt, fsub32_i2f_one d (by omega) (by omega) (by omega), hfl']
    exact ⟨rfl, val32_i2f_of_natAbs_lt d (by omega)⟩

/-- `FLOOR` inside the domain (R112). -/
theorem floorOp_of_domain (d : Draw) {a : Word} (h : F2iDomain a) :
    isFinite32 (floorOp d a) = true ∧ val32 (floorOp d a) = ⌊val32 a⌋ ∧
      (val32 (floorOp d a) = 0 → floorOp d a = 0x00000000#32) ∧
      (val32 a = ⌊val32 a⌋ → a ≠ 0x80000000#32 → floorOp d a = a) := by
  obtain ⟨hfn, hval⟩ := floorFn_of_domain d h
  have hop : floorOp d a = i2f d ⌊val32 a⌋ := by rw [floorOp, hfn, Option.getD_some]
  rw [hop]
  have hzero : val32 (i2f d ⌊val32 a⌋) = 0 → i2f d ⌊val32 a⌋ = 0x00000000#32 := by
    intro h0
    have hfloor : ⌊val32 a⌋ = 0 := by exact_mod_cast hval.symm.trans h0
    rw [hfloor, i2f_zero]
  refine ⟨isFinite32_i2f d hval, hval, hzero, fun hint hne => ?_⟩
  have hsame := hval.trans hint.symm
  by_cases h0 : val32 a = 0
  · rw [hzero (hsame.trans h0), eq_zero_of_val32_eq_zero h.finite h0 hne]
  · exact eq_of_val32_eq hsame (by rwa [hsame])

/-- `FLOOR` outside it (R113). -/
theorem floorOp_of_not_domain (d : Draw) {a : Word} (h : ¬F2iDomain a) : floorOp d a = d.unspec32 := by
  simp only [floorOp, floorFn, f2i_of_not_domain h, Option.getD_none]

end Sys2Proof.Machine

namespace Sys2Proof

open Sys2Proof.Machine Sys2Proof.Claims

theorem decode_floor (a b : Word) : decode ⟨0x07#8, a, b⟩ = .ok (.floor a) :=
  decode_of_mem_commandTable (r := (0x07#8, ⟨0b000#3, 0#1, 0x7#4⟩, fun a _ => .floor a)) (by simp [commandTable]) a b

/-- `FLOOR` answers with `floorOp` on the transaction's draw (R112). -/
theorem answers_floor (a : Word) (s : State) : Answers (.floor a) s (floorOp s.draw a) := exec_eq (.floor a) s

theorem answers_floor_of_not_domain {a : Word} (s : State) (h : ¬F2iDomain a) :
    Answers (.floor a) s (Config.unspec32 s.draws) := by
  have hans := answers_floor a s
  rwa [floorOp_of_not_domain s.draw h] at hans

/-- Settles O22: `i2f` of the truncated value is the floor or 1 more, the comparison tells which, and the subtraction is exact. -/
theorem floorIsMathematicalFloor : Obligations.FloorIsMathematicalFloor :=
  fun a b s => ⟨decode_floor a b,
    fun hf hlo hhi => ⟨_, answers_floor a s, floorOp_of_domain s.draw ⟨hf, hlo, hhi⟩⟩,
    fun hout => answers_floor_of_not_domain s fun h => hout ⟨h.finite, h.lower, h.upper⟩⟩

/-- Settles O23: words order as their values, so the ranges of words are ranges of values outside the domain of `f2i`. -/
theorem floorOutsideDomain : Obligations.FloorOutsideDomain := by
  refine ⟨fun a ha => ⟨two_pow_31_le_val32_iff ha, val32_lt_neg_two_pow_31_iff ha⟩, fun a s h => ?_⟩
  refine answers_floor_of_not_domain s ?_
  rintro ⟨hf, hlo, hhi⟩
  rcases h with hnan | rfl | rfl | hpos | hneg
  · exact absurd hf (by simp [isFinite32_eq_false_of_isNaN32 hnan])
  · exact absurd hf (by decide)
  · exact absurd hf (by decide)
  · linarith [(two_pow_31_le_val32_iff hf).2 hpos]
  · linarith [(val32_lt_neg_two_pow_31_iff hf).2 hneg]

end Sys2Proof
end

section
/-! PROOFS. `ABS` and `CSGN` (41_bitops.md R110, R111): the sign bit is set on its own, exponent and fraction are kept. -/

namespace Sys2Proof.Machine

@[simp] theorem sign32_absOp (a : Word) : sign32 (absOp a) = false := sign32_mag32 a

@[simp] theorem exp32_absOp (a : Word) : exp32 (absOp a) = exp32 a := exp32_mag32 a

@[simp] theorem frac32_absOp (a : Word) : frac32 (absOp a) = frac32 a := frac32_mag32 a

@[simp] theorem sign32_csgnOp (a b : Word) : sign32 (csgnOp a b) = sign32 b := by
  simp [sign32, csgnOp, mag32, signword32]

@[simp] theorem exp32_csgnOp (a b : Word) : exp32 (csgnOp a b) = exp32 a := by
  ext i hi
  simp only [exp32, csgnOp, mag32, signword32, BitVec.getElem_extractLsb', BitVec.getLsbD_or, BitVec.getLsbD_and]
  interval_cases i <;> simp

@[simp] theorem frac32_csgnOp (a b : Word) : frac32 (csgnOp a b) = frac32 a := by
  ext i hi
  simp only [frac32, csgnOp, mag32, signword32, BitVec.getElem_extractLsb', BitVec.getLsbD_or, BitVec.getLsbD_and]
  interval_cases i <;> simp

theorem absOp_absOp (a : Word) : absOp (absOp a) = absOp a := by
  apply word_ext <;> simp

theorem absOp_flipSign32 (a : Word) : absOp (flipSign32 a) = absOp a := by
  apply word_ext <;> simp

theorem csgnOp_self (a : Word) : csgnOp a a = a := by
  apply word_ext <;> simp

theorem csgnOp_zero (a : Word) : csgnOp a 0 = absOp a := by
  have h0 : sign32 0#32 = false := by decide
  apply word_ext <;> simp [h0]

theorem csgnOp_absOp (a b : Word) : csgnOp (absOp a) b = csgnOp a b := by
  apply word_ext <;> simp

end Sys2Proof.Machine

namespace Sys2Proof

open Sys2Proof.Machine Sys2Proof.Claims

theorem decode_abs (a b : Word) : decode ⟨0x05#8, a, b⟩ = .ok (.abs a) :=
  decode_of_mem_commandTable (r := (0x05#8, ⟨0b000#3, 0#1, 0x5#4⟩, fun a _ => .abs a)) (by simp [commandTable]) a b

theorem decode_csgn (a b : Word) : decode ⟨0x06#8, a, b⟩ = .ok (.csgn a b) :=
  decode_of_mem_commandTable (r := (0x06#8, ⟨0b000#3, 0#1, 0x6#4⟩, fun a b => .csgn a b)) (by simp [commandTable]) a b

/-- Settles O20: the result agrees with the operand in every field but the sign. -/
theorem absClearsSign : Obligations.AbsClearsSign :=
  fun a b s => ⟨decode_abs a b, exec_eq (.abs a) s, sign32_absOp a, exp32_absOp a, frac32_absOp a, absOp_absOp a,
    (absOp_flipSign32 a).symm⟩

/-- Settles O21: the result has the sign of `b` and the other two fields of `a`, and a word is its fields. -/
theorem csgnTakesSign : Obligations.CsgnTakesSign :=
  fun a b s => ⟨decode_csgn a b, exec_eq (.csgn a b) s, sign32_csgnOp a b, exp32_csgnOp a b, frac32_csgnOp a b,
    csgnOp_self a, csgnOp_zero a, csgnOp_absOp a b⟩

end Sys2Proof
end

section
/-! PROOFS. `SQ` (41_bitops.md R116), from the cases of the multiplication (40_fp_numerics.md R78) with both operands the same word. -/

namespace Sys2Proof.Machine

theorem isZero32_eq_false_of_isInf32 {w : Word} (h : isInf32 w = true) : isZero32 w = false := by
  simp only [isInf32, Bool.and_eq_true, beq_iff_eq] at h
  simp [isZero32, h]

theorem fmul32_self_of_isInf32 (d : Draw) {a : Word} (hn : isNaN32 a = false) (h : isInf32 a = true) :
    fmul32 d a a = 0x7F800000#32 := by
  rw [fmul32_of_inf d hn hn (.inl h) (by simp [isZero32_eq_false_of_isInf32 h]), Bool.xor_self]
  decide

theorem fmul32_self_of_isZero32 (d : Draw) {a : Word} (h : isZero32 a = true) : fmul32 d a a = 0x00000000#32 := by
  rw [fmul32_of_zero d (isFinite32_of_isZero32 h) (isFinite32_of_isZero32 h) (.inl h), Bool.xor_self]
  decide

/-- The two equal signs of a square cancel, class by class. -/
theorem sign32_fmul32_self (d : Draw) {a : Word} (hn : isNaN32 a = false) : sign32 (fmul32 d a a) = false := by
  rcases isInf32_or_isFinite32 hn with h | h
  · rw [fmul32_self_of_isInf32 d hn h]
    decide
  · cases hz : isZero32 a
    · rw [(fmul32_of_finite d h h hz hz).2, Bool.xor_self]
    · rw [fmul32_self_of_isZero32 d hz]
      decide

/-- From `2^64` on the square is past the overflow bound. -/
theorem fmul32_self_overflow (d : Draw) {a : Word} (hn : isNaN32 a = false) (h : 0x5F800000#32 ≤ mag32 a) :
    fmul32 d a a = 0x7F800000#32 := by
  rcases isInf32_or_isFinite32 hn with hinf | hfin
  · exact fmul32_self_of_isInf32 d hn hinf
  · have hbound : |val32 0x5F800000#32| = 2 ^ 64 ∧ mag32 0x5F800000#32 = 0x5F800000#32 := by decide +kernel
    obtain ⟨hval, hmag⟩ := hbound
    have habs : (2 : ℚ) ^ 64 ≤ |val32 a| := by
      rwa [← hval, abs_val32_le_iff (by decide) hfin, hmag]
    have hz : isZero32 a = false := by
      refine Bool.eq_false_iff.2 fun hz => ?_
      rw [(val32_eq_zero_iff hfin).2 hz] at habs
      norm_num at habs
    have hsq : (2 : ℝ) ^ 128 - 2 ^ 103 ≤ |(val32 a : ℝ) * val32 a| := by
      have habs' : (2 : ℝ) ^ 64 ≤ |(val32 a : ℝ)| := by exact_mod_cast habs
      rw [abs_mul]
      nlinarith
    have hinf := (fmul32_of_finite d hfin hfin hz hz).1.2.2 hsq
    rw [eq_pack32_of_isInf32 hinf, sign32_fmul32_self d hn]
    decide

end Sys2Proof.Machine

namespace Sys2Proof

open Sys2Proof.Machine Sys2Proof.Claims

theorem decode_sq (a b : Word) : decode ⟨0x09#8, a, b⟩ = .ok (.sq a) :=
  decode_of_mem_commandTable (r := (0x09#8, ⟨0b000#3, 0#1, 0x9#4⟩, fun a _ => .sq a)) (by simp [commandTable]) a b

/-- Settles O25, case by case of R78 at a product with equal factors: the signs cancel, and `2^128` is past the overflow bound. -/
theorem sqIsRoundedSquare : Obligations.SqIsRoundedSquare :=
  fun a b s => ⟨decode_sq a b, exec_eq (.sq a) s, fun d => ⟨fun h => fmul32_isNaN d (.inl h), sign32_fmul32_self d,
    fmul32_self_overflow d, fmul32_self_of_isZero32 d, fun h hz => (fmul32_of_finite d h h hz hz).1⟩⟩

end Sys2Proof
end

section
/-! PROOFS. Rounding to nearest keeps the order of the values rounded (40_fp_numerics.md R76), so addition and multiplication
do too (R77, R78). -/

namespace Sys2Proof.Machine

open Sys2Proof.Claims

/-- `r` is a finite word, and none is nearer to `v`: R76's choice but for ties and the sign of a zero. -/
structure NearestWord32 (v : ℝ) (r : Word) : Prop where
  finite : isFinite32 r = true
  near : ∀ w : Word, isFinite32 w = true → |v - val32 r| ≤ |v - val32 w|

theorem nearestWord32_of_roundsTo32 {v : ℝ} {r : Word} (h : RoundsTo32 v r) (hv : |v| < 2 ^ 128 - 2 ^ 103) :
    NearestWord32 v r :=
  ⟨(h.2.1 hv).1, fun w hw => ((h.2.1 hv).2 w hw).1⟩

theorem NearestWord32.of_val32_eq {v : ℝ} {r : Word} (hr : isFinite32 r = true) (h : (val32 r : ℝ) = v) :
    NearestWord32 v r :=
  ⟨hr, fun w _ => by rw [h, sub_self, abs_zero]; exact abs_nonneg _⟩

/-- The word nearest to a value of binary32 has that value. -/
theorem NearestWord32.val32_eq {a r : Word} (h : NearestWord32 (val32 a) r) (ha : isFinite32 a = true) :
    val32 r = val32 a := by
  have h0 := h.near a ha
  rw [sub_self, abs_zero, abs_nonpos_iff, sub_eq_zero] at h0
  exact_mod_cast h0.symm

/-- Of two values the smaller is not rounded above the larger: each would lie on the other's side of the midpoint. -/
theorem NearestWord32.val32_le_of_lt {v v' : ℝ} {r r' : Word} (h : NearestWord32 v r) (h' : NearestWord32 v' r')
    (hlt : v < v') : val32 r ≤ val32 r' := by
  by_contra hgt
  have hgt' : (val32 r' : ℝ) < val32 r := by exact_mod_cast not_le.1 hgt
  have hnear := sq_le_sq.2 (h.near r' h'.finite)
  have hnear' := sq_le_sq.2 (h'.near r h.finite)
  nlinarith

/-- Rounding at most doubles a magnitude, 0 being a word. -/
theorem NearestWord32.abs_val32_le {v : ℝ} {r : Word} (h : NearestWord32 v r) : |(val32 r : ℝ)| ≤ 2 * |v| := by
  have hzero : isFinite32 0#32 = true ∧ val32 0#32 = 0 := by decide +kernel
  have hnear := h.near 0#32 hzero.1
  rw [hzero.2, Rat.cast_zero, sub_zero] at hnear
  have htri := abs_sub_abs_le_abs_sub (val32 r : ℝ) v
  rw [abs_sub_comm] at htri
  linarith

/-- Finite words lie below the overflow bound (R76). -/
theorem abs_val32_lt_overflowBound {a : Word} (h : isFinite32 a = true) : |(val32 a : ℝ)| < 2 ^ 128 - 2 ^ 103 := by
  obtain ⟨m, x, hd, hx, -⟩ := datum32_of_isFinite32 h
  rw [val32, hd, ← binary32_overflowBound]
  exact hx.abs_val_lt binary32_valid _

/-! ### Products and sums -/

/-- A product below the overflow bound is a nearest word, a zero factor included (R78). -/
theorem fmul32_nearestWord32 (d : Draw) {a b : Word} (ha : isFinite32 a = true) (hb : isFinite32 b = true)
    (hv : |(val32 a : ℝ) * val32 b| < 2 ^ 128 - 2 ^ 103) : NearestWord32 ((val32 a : ℝ) * val32 b) (fmul32 d a b) := by
  by_cases hz : isZero32 a = true ∨ isZero32 b = true
  · have hprod : val32 a * val32 b = 0 := mul_eq_zero.2 (hz.imp (val32_eq_zero_iff ha).2 (val32_eq_zero_iff hb).2)
    have hzero : isZero32 (fmul32 d a b) = true := by
      rw [fmul32_of_zero d ha hb hz]
      simp [isZero32]
    have hfin := isFinite32_of_isZero32 hzero
    refine .of_val32_eq hfin ?_
    rw [(val32_eq_zero_iff hfin).2 hzero]
    exact_mod_cast hprod.symm
  · obtain ⟨hza, hzb⟩ := not_or.1 hz
    exact nearestWord32_of_roundsTo32 (fmul32_of_finite d ha hb (Bool.eq_false_iff.2 hza) (Bool.eq_false_iff.2 hzb)).1 hv

/-- A sum below the overflow bound is a nearest word, a zero sum included (R77). -/
theorem fadd32_nearestWord32 (d : Draw) {a b : Word} (ha : isFinite32 a = true) (hb : isFinite32 b = true)
    (hv : |(val32 a : ℝ) + val32 b| < 2 ^ 128 - 2 ^ 103) : NearestWord32 ((val32 a : ℝ) + val32 b) (fadd32 d a b) := by
  by_cases hs : val32 a + val32 b = 0
  · have hzero : isZero32 (fadd32 d a b) = true := by
      by_cases hz : isZero32 a = true ∧ isZero32 b = true
      · rw [fadd32_of_zeros d hz.1 hz.2]
        split
        · exact hz.1
        · decide
      · rw [(fadd32_of_finite d ha hb hz).1 hs]
        decide
    have hfin := isFinite32_of_isZero32 hzero
    refine .of_val32_eq hfin ?_
    rw [(val32_eq_zero_iff hfin).2 hzero]
    exact_mod_cast hs.symm
  · have hz : ¬(isZero32 a = true ∧ isZero32 b = true) := fun hz =>
      hs (by rw [(val32_eq_zero_iff ha).2 hz.1, (val32_eq_zero_iff hb).2 hz.2, add_zero])
    exact nearestWord32_of_roundsTo32 ((fadd32_of_finite d ha hb hz).2 hs) hv

/-- An operation that rounds a strictly increasing function once keeps the order: a value that is not 0 belongs to one word, and
both zeros give the value of the word `c`. -/
theorem val32_le_of_nearestWord32 {op : Word → Word} {g : ℝ → ℝ} {a a' c : Word} (hg : StrictMono g)
    (hc : isFinite32 c = true) (h0 : g 0 = val32 c) (h : NearestWord32 (g (val32 a)) (op a))
    (h' : NearestWord32 (g (val32 a')) (op a')) (hle : val32 a ≤ val32 a') : val32 (op a) ≤ val32 (op a') := by
  rcases hle.lt_or_eq with hlt | heq
  · exact h.val32_le_of_lt h' (hg (by exact_mod_cast hlt))
  · by_cases hz : val32 a' = 0
    · rw [heq, hz, Rat.cast_zero, h0] at h
      rw [hz, Rat.cast_zero, h0] at h'
      rw [h.val32_eq hc, h'.val32_eq hc]
    · rw [eq_of_val32_eq heq (heq ▸ hz)]

end Sys2Proof.Machine
end

section
/-! PROOFS. The domain of `REDUCE` (42_range_reducer.md R131): the quotient `t2` is finite and increases with the operand, so its
bounds are bounds on the operand, and four boundary words decide which. -/

namespace Sys2Proof.Machine

open Sys2Proof.Claims

/-! ### The two roundings of the quotient, on finite operands -/

theorem val32_inv2Pi_bounds : isFinite32 inv2Pi = true ∧ 0 < val32 inv2Pi ∧ val32 inv2Pi < 1 / 4 := by decide +kernel

theorem val32_half32 : isFinite32 half32 = true ∧ val32 half32 = 1 / 2 := by decide +kernel

/-- The product with `1/2π` is below a quarter of the operand. -/
theorem abs_mul_inv2Pi_le (x : Word) : |(val32 x : ℝ) * val32 inv2Pi| ≤ |(val32 x : ℝ)| / 4 := by
  obtain ⟨-, hpos, hlt⟩ := val32_inv2Pi_bounds
  have hpos' : (0 : ℝ) < val32 inv2Pi := by exact_mod_cast hpos
  have hlt' := (Rat.cast_lt (K := ℝ)).2 hlt
  push_cast at hlt'
  rw [abs_mul, abs_of_pos hpos']
  nlinarith [abs_nonneg (val32 x : ℝ)]

/-- The product does not overflow. -/
theorem fmul32_inv2Pi_nearestWord32 (d : Draw) {x : Word} (h : isFinite32 x = true) :
    NearestWord32 ((val32 x : ℝ) * val32 inv2Pi) (fmul32 d x inv2Pi) := by
  refine fmul32_nearestWord32 d h val32_inv2Pi_bounds.1 ?_
  linarith [abs_mul_inv2Pi_le x, abs_val32_lt_overflowBound h, abs_nonneg (val32 x : ℝ)]

/-- Neither does the sum. -/
theorem reduceQuotient_nearestWord32 (d : Draw) {x : Word} (h : isFinite32 x = true) :
    NearestWord32 ((val32 (fmul32 d x inv2Pi) : ℝ) + val32 half32) (reduceQuotient d x) := by
  obtain ⟨hfin, hval⟩ := val32_half32
  have hmul := fmul32_inv2Pi_nearestWord32 d h
  have htri := abs_add_le (val32 (fmul32 d x inv2Pi) : ℝ) (1 / 2)
  have hhalf : |(1 / 2 : ℝ)| = 1 / 2 := by norm_num
  refine fadd32_nearestWord32 d hmul.finite hfin ?_
  rw [hval]
  push_cast
  linarith [hmul.abs_val32_le, abs_mul_inv2Pi_le x, abs_val32_lt_overflowBound h]

/-- The quotient increases with the operand: both of its operations do. -/
theorem reduceQuotient_mono (d : Draw) {x y : Word} (hx : isFinite32 x = true) (hy : isFinite32 y = true)
    (hle : val32 x ≤ val32 y) : val32 (reduceQuotient d x) ≤ val32 (reduceQuotient d y) := by
  have hzero : isFinite32 0#32 = true ∧ val32 0#32 = 0 := by decide +kernel
  have hpos : (0 : ℝ) < val32 inv2Pi := by exact_mod_cast val32_inv2Pi_bounds.2.1
  have hmul : val32 (fmul32 d x inv2Pi) ≤ val32 (fmul32 d y inv2Pi) :=
    val32_le_of_nearestWord32 (op := (fmul32 d · inv2Pi)) (strictMono_mul_right_of_pos hpos) hzero.1 (by simp [hzero.2])
      (fmul32_inv2Pi_nearestWord32 d hx) (fmul32_inv2Pi_nearestWord32 d hy) hle
  exact val32_le_of_nearestWord32 (op := (fadd32 d · half32)) (fun _ _ h => add_lt_add_left h _) val32_half32.1 (zero_add _)
    (reduceQuotient_nearestWord32 d hx) (reduceQuotient_nearestWord32 d hy) hmul

/-! ### Which quotients are finite -/

/-- An infinity stays one and a NaN a NaN, so the quotient is finite exactly when the operand is. -/
theorem isFinite32_reduceQuotient (d : Draw) (x : Word) : isFinite32 (reduceQuotient d x) = isFinite32 x := by
  cases hfin : isFinite32 x
  · cases hnan : isNaN32 x
    · have hinf := (isInf32_or_isFinite32 hnan).resolve_right (by simp [hfin])
      have hmul : fmul32 d x inv2Pi = pack32 (sign32 x ^^ sign32 inv2Pi) 255#8 0#23 :=
        fmul32_of_inf d hnan (by decide) (.inl hinf)
          (by simp [isZero32_eq_false_of_isInf32 hinf, show isZero32 inv2Pi = false by decide])
      have hmulinf : isInf32 (fmul32 d x inv2Pi) = true := by simp [hmul, isInf32]
      rw [reduceQuotient, fadd32_of_inf_left d hmulinf (by decide) (fun h => absurd h (by decide)), hmul]
      simp [isFinite32]
    · exact isFinite32_eq_false_of_isNaN32 (fadd32_isNaN d (.inl (fmul32_isNaN d (.inl hnan))))
  · exact (reduceQuotient_nearestWord32 d hfin).finite

/-- On a finite operand the quotient does not depend on the draw: no step of it is a NaN (R86). -/
theorem reduceQuotient_draw (d d' : Draw) {x : Word} (h : isFinite32 x = true) : reduceQuotient d' x = reduceQuotient d x := by
  have hne {w : Word} (hw : isFinite32 w = true) : isNaN32 w = false :=
    Bool.eq_false_iff.2 fun hn => by simp [isFinite32_eq_false_of_isNaN32 hn] at hw
  have hmul := fmul32_draw (hne (fmul32_inv2Pi_nearestWord32 d h).finite) d'
  rw [reduceQuotient, hmul]
  exact fadd32_draw (hne (reduceQuotient_nearestWord32 d h).finite) d'

/-! ### The boundary words -/

/-- Between the magnitudes of two neighbouring words there is none. -/
theorem abs_val32_lt_iff_le_of_succ {a b x : Word} (ha : isFinite32 a = true) (hb : isFinite32 b = true)
    (hsucc : (mag32 b).toNat = (mag32 a).toNat + 1) (hx : isFinite32 x = true) :
    |val32 a| < |val32 x| ↔ |val32 b| ≤ |val32 x| := by
  rw [abs_val32_lt_iff ha hx, abs_val32_le_iff hb hx, BitVec.lt_def, BitVec.le_def, hsucc, Nat.succ_le_iff]

/-- The quotient is above the largest value `f2i` converts exactly when the operand is above that of `0x50490FDA`: then it is at
least that of the next word (R131). -/
theorem val32_reduceQuotient_le_iff (d : Draw) {x : Word} (h : isFinite32 x = true) :
    val32 (reduceQuotient d x) ≤ 2147483520 ↔ val32 x ≤ 13493037056 := by
  have hlast : val32 0x50490FDA#32 = 13493037056 ∧ val32 (reduceQuotient trialDraw 0x50490FDA#32) = 2147483520 := by
    decide +kernel
  have hnext : val32 0x50490FDB#32 = 13493038080 ∧ val32 (reduceQuotient trialDraw 0x50490FDB#32) = 2147483648 := by
    decide +kernel
  rw [reduceQuotient_draw trialDraw d h]
  constructor
  · intro hq
    by_contra! hgt
    have hstep := (abs_val32_lt_iff_le_of_succ (a := 0x50490FDA#32) (b := 0x50490FDB#32) (by decide) (by decide) (by decide) h).1
    rw [hlast.1, hnext.1, abs_of_pos (show 0 < val32 x by linarith), abs_of_pos (by norm_num), abs_of_pos (by norm_num)] at hstep
    linarith [reduceQuotient_mono trialDraw (by decide) h (hnext.1.trans_le (hstep hgt))]
  · intro hle
    rw [← hlast.2]
    exact reduceQuotient_mono trialDraw h (by decide) (hle.trans_eq hlast.1.symm)

/-- It is below the least exactly when the operand is below that of `0xD0490FDB`. -/
theorem le_val32_reduceQuotient_iff (d : Draw) {x : Word} (h : isFinite32 x = true) :
    -2147483648 ≤ val32 (reduceQuotient d x) ↔ -13493038080 ≤ val32 x := by
  have hlast : val32 0xD0490FDB#32 = -13493038080 ∧ val32 (reduceQuotient trialDraw 0xD0490FDB#32) = -2147483648 := by
    decide +kernel
  have hnext : val32 0xD0490FDC#32 = -13493039104 ∧ val32 (reduceQuotient trialDraw 0xD0490FDC#32) = -2147483904 := by
    decide +kernel
  rw [reduceQuotient_draw trialDraw d h]
  constructor
  · intro hq
    by_contra! hlt
    have hstep := (abs_val32_lt_iff_le_of_succ (a := 0xD0490FDB#32) (b := 0xD0490FDC#32) (by decide) (by decide) (by decide) h).1
    rw [hlast.1, hnext.1, abs_of_neg (show val32 x < 0 by linarith), abs_of_neg (by norm_num), abs_of_neg (by norm_num)] at hstep
    have hle : val32 x ≤ val32 0xD0490FDC#32 := by linarith [hstep (by linarith)]
    linarith [reduceQuotient_mono trialDraw h (by decide) hle]
  · intro hle
    rw [← hlast.2]
    exact reduceQuotient_mono trialDraw (by decide) h (hlast.1.trans_le hle)

/-! ### The domain of `REDUCE` -/

/-- `FLOORF` is the only operation of `REDUCE` that can be undefined (R130). -/
theorem isSome_reduce_iff (d : Draw) (x : Word) : (reduce d x).isSome = true ↔ F2iDomain (reduceQuotient d x) := by
  by_cases h : F2iDomain (reduceQuotient d x)
  · simp [reduce, (floorFn_of_domain d h).1, h]
  · simp [reduce, floorFn, f2i_of_not_domain h, h]

/-- The domain on operands (R131). -/
theorem f2iDomain_reduceQuotient_iff (d : Draw) (x : Word) :
    F2iDomain (reduceQuotient d x) ↔ isFinite32 x = true ∧ -13493038080 ≤ val32 x ∧ val32 x ≤ 13493037056 := by
  constructor
  · rintro ⟨hfin, hlo, hhi⟩
    rw [isFinite32_reduceQuotient] at hfin
    exact ⟨hfin, (le_val32_reduceQuotient_iff d hfin).1 hlo, (val32_reduceQuotient_le_iff d hfin).1 hhi⟩
  · rintro ⟨hfin, hlo, hhi⟩
    exact ⟨(isFinite32_reduceQuotient d x).trans hfin, (le_val32_reduceQuotient_iff d hfin).2 hlo,
      (val32_reduceQuotient_le_iff d hfin).2 hhi⟩

theorem sinOp_of_reduce_none (k : Coeffs) {d : Draw} {x : Word} (h : reduce d x = none) : sinOp k d x = d.unspec32 := by
  rw [sinOp, h]

theorem cosOp_of_reduce_none (k : Coeffs) {d : Draw} {x : Word} (h : reduce d x = none) : cosOp k d x = d.unspec32 := by
  rw [cosOp, h]

end Sys2Proof.Machine

namespace Sys2Proof

open Sys2Proof.Machine Sys2Proof.Claims

/-- `SIN` answers with `sinOp` on the transaction's draw (43_poly_kernels.md R142). -/
theorem answers_sin (a : Word) (s : State) : Answers (.sin a) s (sinOp Config.coeffs s.draw a) := exec_eq (.sin a) s

/-- `COS` answers with `cosOp` on the transaction's draw (R143). -/
theorem answers_cos (a : Word) (s : State) : Answers (.cos a) s (cosOp Config.coeffs s.draw a) := exec_eq (.cos a) s

/-- Settles O29: `REDUCE` is defined where `f2i` converts its quotient, the quotient increases with the operand, and at either end
two neighbouring operands have quotients on the two sides of the bound. -/
theorem reduceDomainExact : Obligations.ReduceDomainExact := by
  refine ⟨fun d x => ⟨?quotient, ?operand⟩, by decide +kernel, by decide +kernel, fun x s hout => ?outside⟩
  case quotient =>
    have hlo : (-2147483648 : ℚ) = -2 ^ 31 := by norm_num
    have hhi : (2147483520 : ℚ) = 2 ^ 31 - 128 := by norm_num
    rw [isSome_reduce_iff, ← hlo, ← hhi]
    exact ⟨fun ⟨hfin, hlo, hhi⟩ => ⟨hfin, hlo, hhi⟩, fun ⟨hfin, hlo, hhi⟩ => ⟨hfin, hlo, hhi⟩⟩
  case operand => exact (isSome_reduce_iff d x).trans (f2iDomain_reduceQuotient_iff d x)
  case outside =>
    rw [← f2iDomain_reduceQuotient_iff s.draw, ← isSome_reduce_iff, Option.not_isSome_iff_eq_none] at hout
    have hsin := answers_sin x s
    have hcos := answers_cos x s
    rw [sinOp_of_reduce_none _ hout] at hsin
    rw [cosOp_of_reduce_none _ hout] at hcos
    exact ⟨hsin, hcos⟩

end Sys2Proof
end

section
/-! PROOFS. `ERF.S` (43_poly_kernels.md R147, R149): its comparison with 0 reads the sign bit off the zeros and NaNs, so its two
arms are each other's mirror image; and the polynomial of R144 does not tell the two zeros apart but for the sign of a zero, which
the squarings of R145 remove. -/

namespace Sys2Proof.Machine

@[simp] theorem isZero32_flipSign32 (w : Word) : isZero32 (flipSign32 w) = isZero32 w := by simp [isZero32]

/-- The comparison of R147 on every word: the operand is above 0 when it is no NaN, no zero, and its sign bit is clear (R81). -/
theorem fgt32_zero_iff (a : Word) :
    fgt32 a 0x00000000#32 = true ↔ isNaN32 a = false ∧ isZero32 a = false ∧ sign32 a = false := by
  have h0 : isFinite32 0x00000000#32 = true ∧ val32 0x00000000#32 = 0 := by decide +kernel
  obtain ⟨hfin0, hval0⟩ := h0
  cases hn : isNaN32 a
  · rcases isInf32_or_isFinite32 hn with hinf | hfin
    · obtain ⟨n, x, hd, -⟩ := datum32_of_isFinite32 hfin0
      simp [fgt32, flt32, (isInf32_iff a).1 hinf, hd, ltDatum, isZero32_eq_false_of_isInf32 hinf]
    · rw [fgt32, flt32_iff_val32_lt hfin0 hfin, hval0]
      cases hz : isZero32 a
      · have hne : val32 a ≠ 0 := fun h => by simp [(val32_eq_zero_iff hfin).1 h] at hz
        have hneg := val32_neg_iff hne
        rw [← not_le, hne.le_iff_lt, hneg]
        simp
      · simp [(val32_eq_zero_iff hfin).2 hz]
  · simp [fgt32, flt32_of_isNaN32 (.inr hn)]

/-! ### The two arms (R147) -/

theorem erfSOp_of_positive (k : Coeffs) (d : Draw) {a : Word} (hn : isNaN32 a = false) (hz : isZero32 a = false)
    (hs : sign32 a = false) : erfSOp k d a = erfMag k.erfC d a := if_pos ((fgt32_zero_iff a).2 ⟨hn, hz, hs⟩)

theorem erfSOp_of_not_positive (k : Coeffs) (d : Draw) {a : Word}
    (h : isNaN32 a = true ∨ isZero32 a = true ∨ sign32 a = true) :
    erfSOp k d a = flipSign32 (erfMag k.erfC d (flipSign32 a)) := by
  refine if_neg fun hgt => ?_
  obtain ⟨hn, hz, hs⟩ := (fgt32_zero_iff a).1 hgt
  simp [hn, hz, hs] at h

/-- Of a word and its mirror image exactly one takes the first arm, and both call `ERFMAG` on that one. -/
theorem erfSOp_flipSign32 (k : Coeffs) (d : Draw) {a : Word} (hn : isNaN32 a = false) (hz : isZero32 a = false) :
    erfSOp k d (flipSign32 a) = flipSign32 (erfSOp k d a) := by
  cases hs : sign32 a
  · have hmirror : sign32 (flipSign32 a) = true := by simp [hs]
    rw [erfSOp_of_positive k d hn hz hs, erfSOp_of_not_positive k d (.inr (.inr hmirror)), flipSign32_flipSign32]
  · have hmirror : sign32 (flipSign32 a) = false := by simp [hs]
    rw [erfSOp_of_not_positive k d (.inr (.inr hs)), flipSign32_flipSign32,
      erfSOp_of_positive k d ((flipSign32_isNaN a).trans hn) ((isZero32_flipSign32 a).trans hz) hmirror]

/-! ### The Horner evaluator at a zero (R90) -/

theorem isZero32_fmul32_of_zero (d : Draw) {a u : Word} (ha : isFinite32 a = true) (hu : isZero32 u = true) :
    isZero32 (fmul32 d a u) = true := by
  rw [fmul32_of_zero d ha (isFinite32_of_isZero32 hu) (.inr hu)]
  simp [isZero32]

theorem isZero32_fadd32_of_zeros (d : Draw) {a b : Word} (ha : isZero32 a = true) (hb : isZero32 b = true) :
    isZero32 (fadd32 d a b) = true := by
  rw [fadd32_of_zeros d ha hb]
  split
  · exact ha
  · decide

/-- Adding a zero to a finite word that is no zero is exact (R77). -/
theorem fadd32_of_zero_left (d : Draw) {a c : Word} (ha : isZero32 a = true) (hc : isFinite32 c = true) (hz : isZero32 c = false) :
    fadd32 d a c = c := by
  have hfa := isFinite32_of_isZero32 ha
  have hne : val32 c ≠ 0 := fun h => by simp [(val32_eq_zero_iff hc).1 h] at hz
  have hr := (fadd32_of_finite d hfa hc (by simp [hz])).2
  rw [(val32_eq_zero_iff hfa).2 ha, zero_add, Rat.cast_zero, zero_add] at hr
  exact eq_of_roundsTo32_val32 hne (hr hne)

theorem isFinite32_fadd32_of_zero_left (d : Draw) {a c : Word} (ha : isZero32 a = true) (hc : isFinite32 c = true) :
    isFinite32 (fadd32 d a c) = true := by
  cases hz : isZero32 c
  · rwa [fadd32_of_zero_left d ha hc hz]
  · exact isFinite32_of_isZero32 (isZero32_fadd32_of_zeros d ha hz)

theorem isFinite32_horner32_of_zero (d : Draw) {u : Word} (hu : isZero32 u = true) {rest : List Word}
    (hrest : ∀ c ∈ rest, isFinite32 c = true) {lead : Word} (hlead : isFinite32 lead = true) :
    isFinite32 (horner32 d lead rest u) = true := by
  induction rest generalizing lead with
  | nil => exact hlead
  | cons c rest ih =>
    obtain ⟨hc, hrest⟩ := List.forall_mem_cons.1 hrest
    exact ih hrest (isFinite32_fadd32_of_zero_left d (isZero32_fmul32_of_zero d hlead hu) hc)

theorem horner32_append_singleton (d : Draw) (lead : Word) (rest : List Word) (c u : Word) :
    horner32 d lead (rest ++ [c]) u = fadd32 d (fmul32 d (horner32 d lead rest u) u) c := List.foldl_concat ..

section
variable (d : Draw) {u lead c0 : Word} {rest : List Word} (hu : isZero32 u = true) (hlead : isFinite32 lead = true)
  (hrest : ∀ c ∈ rest, isFinite32 c = true)
include hu hlead hrest

/-- At a zero the last product is a zero, so a constant term that is no zero is the result (90_conflicts.md C9). -/
theorem horner32_of_zero (hc : isFinite32 c0 = true) (hz : isZero32 c0 = false) : horner32 d lead (rest ++ [c0]) u = c0 := by
  rw [horner32_append_singleton]
  exact fadd32_of_zero_left d (isZero32_fmul32_of_zero d (isFinite32_horner32_of_zero d hu hrest hlead) hu) hc hz

theorem isZero32_horner32_of_zero (hz : isZero32 c0 = true) : isZero32 (horner32 d lead (rest ++ [c0]) u) = true := by
  rw [horner32_append_singleton]
  exact isZero32_fadd32_of_zeros d (isZero32_fmul32_of_zero d (isFinite32_horner32_of_zero d hu hrest hlead) hu) hz

end

/-! ### `ERFMAG` at the zeros (R144, R145) -/

theorem eighthPower_of_isZero32 (d : Draw) {y : Word} (h : isZero32 y = true) : eighthPower d y = 0x00000000#32 := by
  have h0 : fmul32 d 0x00000000#32 0x00000000#32 = 0x00000000#32 := fmul32_self_of_isZero32 d (by decide)
  simp only [eighthPower, fmul32_self_of_isZero32 d h, h0]

/-- The eighth power of the polynomial at a zero is settled by the constant term: its own, or `+0` when it is a zero. -/
theorem eighthPower_erfPoly_of_isZero32 {k : Coeff7} (hk : k.finite = true) (d : Draw) {u : Word} (hu : isZero32 u = true) :
    eighthPower d (erfPoly k d u) = if isZero32 k.c0 = true then 0x00000000#32 else eighthPower d k.c0 := by
  simp only [Coeff7.finite, Bool.and_eq_true] at hk
  obtain ⟨⟨⟨⟨⟨⟨h0, h1⟩, h2⟩, h3⟩, h4⟩, h5⟩, h6⟩ := hk
  have hrest : ∀ c ∈ [k.c5, k.c4, k.c3, k.c2, k.c1], isFinite32 c = true := by simp [h1, h2, h3, h4, h5]
  have hpoly : erfPoly k d u = horner32 d k.c6 ([k.c5, k.c4, k.c3, k.c2, k.c1] ++ [k.c0]) u := rfl
  rw [hpoly]
  split
  next hz => exact eighthPower_of_isZero32 d (isZero32_horner32_of_zero d hu h6 hrest hz)
  next hz => rw [horner32_of_zero d hu h6 hrest h0 (Bool.eq_false_iff.2 hz)]

/-- R151 (d) fixes `ERFMAG` at `+0`; at `-0` it is the same. -/
theorem erfMag_of_isZero32 {k : Coeffs} (h : k.erfAdmissible = true) (d : Draw) {u : Word} (hu : isZero32 u = true) :
    erfMag k.erfC d u = 0x00000000#32 := by
  have hfin : k.erfC.finite = true := by
    simp only [Coeffs.erfAdmissible, Bool.and_eq_true] at h
    exact h.1.1
  calc erfMag k.erfC d u
      = erfMag k.erfC d 0x00000000#32 := by
        rw [erfMag, erfMag, eighthPower_erfPoly_of_isZero32 hfin d hu, eighthPower_erfPoly_of_isZero32 hfin d (by decide)]
    _ = 0x00000000#32 := erfMag_zero h d

/-- Both zeros take the second arm. -/
theorem erfSOp_of_isZero32 {k : Coeffs} (h : k.erfAdmissible = true) (d : Draw) {a : Word} (ha : isZero32 a = true) :
    erfSOp k d a = 0x80000000#32 := by
  rw [erfSOp_of_not_positive k d (.inr (.inl ha)), erfMag_of_isZero32 h d ((isZero32_flipSign32 a).trans ha)]
  decide

end Sys2Proof.Machine

namespace Sys2Proof

open Sys2Proof.Machine

/-- Settles O35: off the zeros a word and its mirror image take different arms with one magnitude; at both zeros the second arm flips
the `+0` of `ERFMAG`. -/
theorem erfSortedOdd : Obligations.ErfSortedOdd := by
  refine fun k d => ⟨fun a => erfSOp_flipSign32 k d, fun hk => ?_⟩
  simp only [Coeffs.fixedConstraints, Bool.and_eq_true] at hk
  obtain ⟨⟨-, herf⟩, -⟩ := hk
  exact ⟨erfSOp_of_isZero32 herf d (by decide), erfSOp_of_isZero32 herf d (by decide)⟩

end Sys2Proof
end

section
/-! PROOFS. binary64 words read as values (40_fp_numerics.md R73, R75, R76): the sign bit flips the value, a word that rounds a value of
binary64 has that value, and between `2^52` and `2^53` the words are the integers. -/

namespace Sys2Proof.Machine

open Sys2Proof.Claims

/-! ### The sign bit -/

@[simp] theorem exp64_flipSign64 (w : DWord) : exp64 (flipSign64 w) = exp64 w := by
  ext i hi
  simp only [exp64, flipSign64, BitVec.getElem_extractLsb', BitVec.getLsbD_xor]
  interval_cases i <;> simp

@[simp] theorem frac64_flipSign64 (w : DWord) : frac64 (flipSign64 w) = frac64 w := by
  ext i hi
  simp only [frac64, flipSign64, BitVec.getElem_extractLsb', BitVec.getLsbD_xor]
  interval_cases i <;> simp

@[simp] theorem sign64_flipSign64 (w : DWord) : sign64 (flipSign64 w) = !sign64 w := by
  simp only [sign64, flipSign64, BitVec.getLsbD_xor]
  simp

@[simp] theorem isFinite64_flipSign64 (w : DWord) : isFinite64 (flipSign64 w) = isFinite64 w := by simp [isFinite64]

@[simp] theorem isZero64_flipSign64 (w : DWord) : isZero64 (flipSign64 w) = isZero64 w := by simp [isZero64]

theorem signedInt_not (s : Bool) (m : Nat) : signedInt (!s) m = -signedInt s m := by cases s <;> simp [signedInt]

/-- The opposite sign gives the opposite value (R73); without a value both sides are the model's 0. -/
theorem val_datumOf_not (f : Fmt) (s : Bool) (E m : Nat) : (datumOf f (!s) E m).val = -(datumOf f s E m).val := by
  unfold datumOf
  split_ifs <;> simp [Datum.val, signedInt_not]


@[simp] theorem val64_flipSign64 (w : DWord) : val64 (flipSign64 w) = -val64 w := by
  simp [val64, datum64, val_datumOf_not]

@[simp] theorem val32_flipSign32 (w : Word) : val32 (flipSign32 w) = -val32 w := by
  simp [val32, datum32, val_datumOf_not]

/-! ### The fields as numbers -/

/-- A word as a number: the three fields side by side. -/
theorem toNat_eq_fields64 (w : DWord) :
    w.toNat = (sign64 w).toNat * 2 ^ 63 + (exp64 w).toNat * 2 ^ 52 + (frac64 w).toNat := by
  have hs : (sign64 w).toNat = w.toNat / 2 ^ 63 % 2 := by
    rw [sign64, BitVec.getLsbD, Nat.toNat_testBit]
  have he : (exp64 w).toNat = w.toNat / 2 ^ 52 % 2 ^ 11 := by
    rw [exp64, BitVec.extractLsb'_toNat, Nat.shiftRight_eq_div_pow]
  have hf : (frac64 w).toNat = w.toNat % 2 ^ 52 := by
    rw [frac64, BitVec.extractLsb'_toNat, Nat.shiftRight_zero]
  have := w.isLt
  omega

theorem toNat_pack64 (s : Bool) (e : BitVec 11) (f : BitVec 52) :
    (pack64 s e f).toNat = s.toNat * 2 ^ 63 + e.toNat * 2 ^ 52 + f.toNat := by
  rw [toNat_eq_fields64, sign64_pack64, exp64_pack64, frac64_pack64]

/-! ### Finite words -/

theorem isFinite64_iff_exp_lt (w : DWord) : isFinite64 w = true ↔ (exp64 w).toNat < 2047 := by
  have := (exp64 w).isLt
  simp only [isFinite64, bne_iff_ne, ne_eq, ← BitVec.toNat_inj, BitVec.toNat_ofNat]
  omega

/-- A word without a value (R73) has the model's 0. -/
theorem isFinite64_of_val64_ne_zero {w : DWord} (h : val64 w ≠ 0) : isFinite64 w = true := by
  cases hn : isNaN64 w
  · exact (isInf64_or_isFinite64 hn).resolve_left fun hi => h (by rw [val64, (isInf64_iff w).1 hi]; rfl)
  · exact absurd (by rw [val64, (isNaN64_iff w).1 hn]; rfl) h

/-- The value is 0 exactly on the two zeros among the finite words. -/
theorem val64_eq_zero_iff {w : DWord} (hw : isFinite64 w = true) : val64 w = 0 ↔ isZero64 w = true := by
  obtain ⟨m, x, hd, -, h0⟩ := datum64_of_isFinite64 hw
  rw [← h0, val64, hd, ← Rat.cast_eq_zero (α := ℝ), Datum.val_fin]
  cases sign64 w <;> simp [signFactor, zpow_ne_zero]

theorem val64_of_isZero64 {w : DWord} (h : isZero64 w = true) : val64 w = 0 :=
  (val64_eq_zero_iff (isFinite64_of_isZero64 h)).2 h

/-- Finite words lie below the overflow bound (R76). -/
theorem abs_val64_lt_overflowBound {w : DWord} (h : isFinite64 w = true) : |val64 w| < 2 ^ 1024 - 2 ^ 970 := by
  obtain ⟨m, x, hd, hx, -⟩ := datum64_of_isFinite64 h
  have hlt := hx.abs_val_lt binary64_valid (sign64 w)
  rw [← hd, ← val64, binary64_overflowBound] at hlt
  exact_mod_cast hlt

/-- A magnitude the format holds is that of a word, with either sign. -/
theorem exists_val64_eq_of_holds (s : Bool) {n : Nat} {x : Int} (hx : binary64.Holds n x) :
    ∃ w, isFinite64 w = true ∧ val64 w = (Datum.fin s n x).val := by
  rcases eq_or_ne n 0 with rfl | hn
  · exact ⟨0#64, by decide, by rw [val64_of_isZero64 (by decide)]; simp [Datum.val, signedInt]⟩
  · have hval := (roundRat_one_roundsTo binary64_valid s hn x).val64_eq hx trialDraw
    refine ⟨_, isFinite64_of_val64_ne_zero fun h0 => ?_, hval⟩
    have hcast : ((Datum.fin s n x).val : ℝ) = 0 := by rw [← hval, h0, Rat.cast_zero]
    rw [Datum.val_fin] at hcast
    cases s <;> simp [signFactor, zpow_ne_zero, hn] at hcast

/-- binary64 has every integer multiple of a power of two that its precision and least exponent allow. -/
theorem exists_val64_eq_int_mul_zpow {n x : Int} (hn : |n| < 2 ^ 53) (hlo : -1074 ≤ x) (hhi : x ≤ 971) :
    ∃ w, isFinite64 w = true ∧ val64 w = n * 2 ^ x := by
  have hx : binary64.Holds n.natAbs x := ⟨by simp only [binary64]; zify; exact hn, hlo, hhi⟩
  obtain ⟨w, hw, hval⟩ := exists_val64_eq_of_holds (decide (n < 0)) hx
  exact ⟨w, hw, by rw [hval, Datum.val, signedInt_neg_natAbs]⟩

theorem exists_val64_eq_intCast {n : Int} (hn : |n| < 2 ^ 53) : ∃ w, isFinite64 w = true ∧ val64 w = n := by
  simpa using exists_val64_eq_int_mul_zpow hn (x := 0) (by norm_num) (by norm_num)

/-- The value of a normal word with sign bit 0 (R73). -/
theorem val64_pack64_of_normal {E : Nat} (h0 : E ≠ 0) (hE : E < 2047) (f : BitVec 52) :
    val64 (pack64 false (BitVec.ofNat 11 E) f) = (2 ^ 52 + f.toNat) * 2 ^ ((E : Int) - 1023 - 52) := by
  have hmod : E % 2 ^ 11 = E := Nat.mod_eq_of_lt (by omega)
  have hmax : binary64.expMax = 2047 := rfl
  rw [val64, datum64_pack64, BitVec.toNat_ofNat, hmod, datumOf, if_neg (hmax ▸ hE.ne), if_neg h0]
  norm_num [Datum.val, signedInt, binary64]

/-! ### Rounded values -/

/-- R76 below the overflow bound, on rationals. -/
theorem nearest_of_roundsTo64 {v : ℚ} {r : DWord} (h : RoundsTo64 v r) (hv : |v| < 2 ^ 1024 - 2 ^ 970) :
    isFinite64 r = true ∧ ∀ w, isFinite64 w = true → |v - val64 r| ≤ |v - val64 w| ∧
      (val64 w ≠ val64 r → |v - val64 w| = |v - val64 r| → (frac64 r).toNat % 2 = 0) := by
  obtain ⟨hfin, hnear⟩ := h.2.1 (by exact_mod_cast hv)
  exact ⟨hfin, fun w hw => by exact_mod_cast hnear w hw⟩

/-- A word that rounds a value of binary64 has that value. -/
theorem val64_eq_of_roundsTo64 {w r : DWord} (hw : isFinite64 w = true) (h : RoundsTo64 (val64 w) r) :
    isFinite64 r = true ∧ val64 r = val64 w := by
  obtain ⟨hfin, hnear⟩ := nearest_of_roundsTo64 h (abs_val64_lt_overflowBound hw)
  have hle := (hnear w hw).1
  rw [sub_self, abs_zero, abs_nonpos_iff, sub_eq_zero] at hle
  exact ⟨hfin, hle.symm⟩

/-- Rounding does not pass a magnitude of binary64. -/
theorem abs_val64_le_of_roundsTo64 {v : ℚ} {w r : DWord} (h : RoundsTo64 v r) (hw : isFinite64 w = true) (hv : |v| ≤ val64 w) :
    isFinite64 r = true ∧ |val64 r| ≤ val64 w := by
  have hlt := (le_abs_self _).trans_lt (abs_val64_lt_overflowBound hw)
  obtain ⟨hfin, hnear⟩ := nearest_of_roundsTo64 h (hv.trans_lt hlt)
  obtain ⟨hlo, hhi⟩ := abs_le.1 hv
  have habove := (hnear w hw).1
  have hbelow := (hnear (flipSign64 w) (by simpa using hw)).1
  rw [val64_flipSign64] at hbelow
  refine ⟨hfin, abs_le.2 ⟨?_, ?_⟩⟩
  · rw [abs_of_nonneg (show 0 ≤ v - -val64 w by linarith)] at hbelow
    linarith [le_abs_self (v - val64 r)]
  · rw [abs_of_nonpos (show v - val64 w ≤ 0 by linarith)] at habove
    linarith [neg_abs_le (v - val64 r)]

/-! ### The binade of the integers -/

/-- From `2^52` to `2^53` a word's value is `2^52` plus its fraction: there the unit in the last place is 1. -/
theorem val64_eq_add_frac64 {w : DWord} (hlo : 2 ^ 52 ≤ val64 w) (hhi : val64 w < 2 ^ 53) :
    val64 w = 2 ^ 52 + (frac64 w).toNat := by
  have hpos : 0 < val64 w := by linarith
  have hE := (isFinite64_iff_exp_lt w).1 (isFinite64_of_val64_ne_zero hpos.ne')
  have hval : (val64 w : ℝ) = |((datumOf binary64 (sign64 w) (exp64 w).toNat (frac64 w).toNat).val : ℝ)| := by
    rw [← datum64, ← val64, abs_of_pos (by exact_mod_cast hpos)]
  have hlo' : (2 : ℝ) ^ (52 : Int) ≤ val64 w := by exact_mod_cast hlo
  have hhi' : (val64 w : ℝ) < 2 ^ (53 : Int) := by exact_mod_cast hhi
  rw [hval] at hlo' hhi'
  have hge := (zpow_lt_zpow_iff_right₀ one_lt_two).1 (hlo'.trans_lt (abs_val_datumOf_lt binary64_valid _ hE (frac64 w).isLt))
  have hbias : binary64.bias = 1023 := rfl
  have h0 : (exp64 w).toNat ≠ 0 := by omega
  have hle := (zpow_lt_zpow_iff_right₀ one_lt_two).1 ((pow_le_abs_val_datumOf _ h0 hE _).trans_lt hhi')
  have hexp : (exp64 w).toNat = 1075 := by omega
  rw [abs_val_datumOf_normal _ h0 hE, hexp] at hval
  have hulp : binary64.ulp ((1075 : Nat) - binary64.bias) = 1 := by norm_num [Fmt.ulp, binary64]
  rw [hulp, mul_one] at hval
  exact_mod_cast hval

/-- Inside that binade rounding picks the nearest integer, at a tie the one with an even fraction field. -/
theorem val64_sub_le_half_of_roundsTo64 {v : ℚ} {r : DWord} (h : RoundsTo64 v r) (hlo : 2 ^ 52 + 1 ≤ v) (hhi : v ≤ 2 ^ 53 - 2) :
    isFinite64 r = true ∧ val64 r = 2 ^ 52 + (frac64 r).toNat ∧ |v - val64 r| ≤ 1 / 2 ∧
      (|v - val64 r| = 1 / 2 → (frac64 r).toNat % 2 = 0) := by
  have habs : |v| < 2 ^ 1024 - 2 ^ 970 := by
    rw [abs_of_pos (by linarith)]
    exact hhi.trans_lt (by decide +kernel)
  obtain ⟨hfin, hnear⟩ := nearest_of_roundsTo64 h habs
  have word : ∀ n : Int, |v - n| ≤ 1 / 2 → ∃ w, isFinite64 w = true ∧ val64 w = n := by
    intro n hn
    obtain ⟨h1, h2⟩ := abs_le.1 hn
    have hnlo : (-2 ^ 53 : ℚ) < n := by linarith
    have hnhi : (n : ℚ) < 2 ^ 53 := by linarith
    exact exists_val64_eq_intCast (abs_lt.2 ⟨by exact_mod_cast hnlo, by exact_mod_cast hnhi⟩)
  have hhalf : |v - val64 r| ≤ 1 / 2 := by
    obtain ⟨w, hw, hval⟩ := word (round v) (abs_sub_round v)
    exact ((hnear w hw).1).trans (hval ▸ abs_sub_round v)
  obtain ⟨h1, h2⟩ := abs_le.1 hhalf
  have hfrac := val64_eq_add_frac64 (w := r) (by linarith) (by linarith)
  refine ⟨hfin, hfrac, hhalf, fun htie => ?_⟩
  obtain ⟨m, hm⟩ : ∃ m : Int, val64 r = m := ⟨2 ^ 52 + (frac64 r).toNat, by push_cast; exact hfrac⟩
  rw [hm] at htie hnear
  -- The integer on the other side of `v` is as near.
  have hother : ∃ n : Int, n ≠ m ∧ |v - n| = 1 / 2 := by
    rcases abs_eq (by norm_num : (0 : ℚ) ≤ 1 / 2) |>.1 htie with hv | hv
    · refine ⟨m + 1, by omega, ?_⟩
      rw [show v - ((m + 1 : Int) : ℚ) = -(1 / 2) by push_cast; linarith, abs_neg]
      norm_num
    · refine ⟨m - 1, by omega, ?_⟩
      rw [show v - ((m - 1 : Int) : ℚ) = 1 / 2 by push_cast; linarith]
      norm_num
  obtain ⟨n, hne, hn⟩ := hother
  obtain ⟨w, hw, hval⟩ := word n hn.le
  exact (hnear w hw).2 (by rw [hval]; exact_mod_cast hne) (by rw [hval, hn, htie])

end Sys2Proof.Machine
end

section
/-! PROOFS. The exponential table (44_exp_engine.md R170): sign 0 and exponent `0x3FF` in every entry, so the exponent injection adds to
the exponent field alone and stays in it (R180). -/

namespace Sys2Proof.Machine

/-! ### The table -/

/-- Every entry is a value from 1 to 2: only its fraction is its own. -/
theorem tbl_eq_pack64 : ∀ i, tbl i = pack64 false 0x3FF#11 (frac64 (tbl i)) := by decide

/-- An entry's significand, `2^52` times its value. -/
def tblSignificand (i : Fin 32) : Nat := 2 ^ 52 + (frac64 (tbl i)).toNat

theorem val64_tbl (i : Fin 32) : val64 (tbl i) = tblSignificand i / 2 ^ 52 := by
  rw [tbl_eq_pack64, val64_pack64_of_normal (E := 0x3FF) (by decide) (by decide), tblSignificand]
  norm_num [div_eq_mul_inv]

/-- The bounds of R170 in half units of the last place, as integers. -/
theorem tblSignificand_brackets : ∀ i : Fin 32,
    (2 * (tblSignificand i : Int) - 1) ^ 32 < 2 ^ i.val * (2 ^ 53) ^ 32 ∧
      2 ^ i.val * (2 ^ 53) ^ 32 < (2 * (tblSignificand i : Int) + 1) ^ 32 := by
  decide +kernel

/-! ### The exponent injection -/

/-- The quotient of an integer in R173's range (R180). -/
theorem expQuotient_bounds {K : Int} (hlo : -4096 ≤ K) (hhi : K ≤ 4096) : -128 ≤ expQuotient K ∧ expQuotient K ≤ 128 := by
  unfold expQuotient
  omega

/-- While the exponent stays in its field the injection is an addition on that field (R177, R180). -/
theorem expScale_eq_pack64 {K : Int} {E : Nat} (hE : (E : Int) = 0x3FF + expQuotient K) (hlt : E < 2 ^ 11) :
    expScale K = pack64 false (BitVec.ofNat 11 E) (frac64 (tbl (expIndex K))) := by
  have hfrac := (frac64 (tbl (expIndex K))).isLt
  rw [expScale, tbl_eq_pack64, frac64_pack64]
  apply BitVec.eq_of_toNat_eq
  simp only [BitVec.toNat_add, BitVec.toNat_shiftLeft, BitVec.toNat_ofInt, toNat_pack64, BitVec.toNat_ofNat, Nat.shiftLeft_eq,
    Bool.toNat_false]
  omega

/-- The scale word is the table entry's value times `2^q`. -/
theorem val64_expScale {K : Int} {E : Nat} (hE : (E : Int) = 0x3FF + expQuotient K) (h0 : E ≠ 0) (hlt : E < 2047) :
    val64 (expScale K) = val64 (tbl (expIndex K)) * 2 ^ expQuotient K := by
  have hpow : (2 : ℚ) ^ ((E : Int) - 1023 - 52) = 2 ^ expQuotient K / 2 ^ 52 := by
    rw [hE, show (0x3FF + expQuotient K - 1023 - 52 : Int) = expQuotient K - (52 : Nat) by push_cast; ring,
      zpow_sub₀ (by norm_num), zpow_natCast]
  rw [val64_tbl, expScale_eq_pack64 hE (by omega), val64_pack64_of_normal h0 hlt, hpow, tblSignificand]
  push_cast
  ring

end Sys2Proof.Machine

namespace Sys2Proof

open Sys2Proof.Machine

/-- Settles O44: the fields are read off the 32 words, and the bounds are bounds on 32nd powers of integers. -/
theorem tableCorrectlyRounded : Obligations.TableCorrectlyRounded := by
  intro i
  obtain ⟨hlo, hhi⟩ := tblSignificand_brackets i
  have hbelow : val64 (tbl i) - 1 / 2 ^ 53 = (2 * tblSignificand i - 1) / 2 ^ 53 := by rw [val64_tbl]; ring
  have habove : val64 (tbl i) + 1 / 2 ^ 53 = (2 * tblSignificand i + 1) / 2 ^ 53 := by rw [val64_tbl]; ring
  refine ⟨by rw [tbl_eq_pack64, sign64_pack64], by rw [tbl_eq_pack64, exp64_pack64], ?_, ?_⟩
  · rw [hbelow, div_pow, div_lt_iff₀ (by positivity)]
    exact_mod_cast hlo
  · rw [habove, div_pow, lt_div_iff₀ (by positivity)]
    exact_mod_cast hhi

/-- Settles O43: `q` moves the exponent field within `0x37F` to `0x47F`. -/
theorem exponentInjectionStaysInField : Obligations.ExponentInjectionStaysInField := by
  intro K hlo hhi
  obtain ⟨hqlo, hqhi⟩ := expQuotient_bounds hlo hhi
  obtain ⟨E, hE⟩ : ∃ E : Nat, (E : Int) = 0x3FF + expQuotient K := ⟨(0x3FF + expQuotient K).toNat, by omega⟩
  have hpack := expScale_eq_pack64 hE (by omega)
  have hexp : (exp64 (expScale K)).toNat = E := by
    rw [hpack, exp64_pack64, BitVec.toNat_ofNat]
    omega
  refine ⟨hqlo, hqhi, ?_, by omega, by omega, by omega, ?_, ?_, val64_expScale hE (by omega) (by omega)⟩
  · rw [hpack, sign64_pack64]
  · simp only [isNormal64, Bool.and_eq_true, bne_iff_ne, ne_eq, ← BitVec.toNat_inj, hexp, BitVec.ofNat_eq_ofNat, BitVec.toNat_ofNat]
    omega
  · rw [hpack, frac64_pack64]

end Sys2Proof
end

section
/-! PROOFS. The saturation test of `EXP` (44_exp_engine.md R171). -/

namespace Sys2Proof.Machine

open Sys2Proof.Claims

theorem threshold_finite : isFinite32 threshold = true := by decide

theorem val32_threshold : val32 threshold = 11629078 / 131072 := by decide +kernel

/-- The first comparison, against `-THR`, on the extended reals. -/
theorem flt32_neg_threshold_iff {a : Word} (h : isNaN32 a = false) :
    flt32 a (flipSign32 threshold) = true ↔ extended32 a < ((-(val32 threshold) : ℝ) : EReal) := by
  have hext : extended32 (flipSign32 threshold) = ((-(val32 threshold) : ℝ) : EReal) := by
    rw [extended32_of_isFinite32 (by decide), val32_flipSign32, Rat.cast_neg]
  rw [← hext]
  exact flt32_iff_extended32_lt h (by decide)

/-- The second comparison, against `THR`. -/
theorem fgt32_threshold_iff {a : Word} (h : isNaN32 a = false) :
    fgt32 a threshold = true ↔ ((val32 threshold : ℝ) : EReal) < extended32 a := by
  rw [← extended32_of_isFinite32 threshold_finite]
  exact flt32_iff_extended32_lt (by decide) h

theorem neg_threshold_lt_threshold : ((-(val32 threshold) : ℝ) : EReal) < ((val32 threshold : ℝ) : EReal) := by
  rw [EReal.coe_lt_coe_iff, val32_threshold]
  norm_num

/-- A NaN fails both comparisons. -/
theorem expOp_of_isNaN32 (k : Coeffs) (d : Draw) {a : Word} (h : isNaN32 a = true) : expOp k d a = expTable k.expC d a := by
  rw [expOp, flt32_of_isNaN32 (.inl h), fgt32, flt32_of_isNaN32 (.inr h)]
  rfl

/-- The three outcomes on an operand that is no NaN. -/
theorem expOp_of_not_isNaN32 (k : Coeffs) (d : Draw) {a : Word} (h : isNaN32 a = false) :
    expOp k d a = if extended32 a < ((-(val32 threshold) : ℝ) : EReal) then 0x00000000#32
      else if ((val32 threshold : ℝ) : EReal) < extended32 a then 0x7F800000#32 else expTable k.expC d a := by
  simp only [expOp, flt32_neg_threshold_iff h, fgt32_threshold_iff h]

end Sys2Proof.Machine

namespace Sys2Proof

open Sys2Proof.Machine Sys2Proof.Claims

/-- `EXP` answers with `expOp` on the transaction's draw (44_exp_engine.md R178). -/
theorem answers_exp (a : Word) (s : State) : Answers (.exp a) s (expOp Config.coeffs s.draw a) := exec_eq (.exp a) s

/-- Settles O38: the two comparisons are comparisons of extended reals, and a NaN fails both. -/
theorem expSaturates : Obligations.ExpSaturates := by
  refine ⟨rfl, val32_threshold, fun a s => ⟨fun hn hlt => ?below, fun hn hgt => ?above, fun h => ?table⟩⟩
  all_goals have hans := answers_exp a s
  case below => rwa [expOp_of_not_isNaN32 _ _ hn, if_pos hlt] at hans
  case above => rwa [expOp_of_not_isNaN32 _ _ hn, if_neg (neg_threshold_lt_threshold.trans hgt).not_gt, if_pos hgt] at hans
  case table =>
    cases hn : isNaN32 a
    · obtain ⟨hlo, hhi⟩ := h.resolve_left (by simp [hn])
      rwa [expOp_of_not_isNaN32 _ _ hn, if_neg hlo.not_gt, if_neg hhi.not_gt] at hans
    · rwa [expOp_of_isNaN32 _ _ hn] at hans

end Sys2Proof
end

section
/-! PROOFS. The scaling and the magic rounding of `EXP` (44_exp_engine.md R172 to R175): the sum with `SHIFT` lies in the binade of the
integers, so it is `SHIFT` plus the nearest integer, and both subtractions are exact. -/

namespace Sys2Proof.Machine

open Sys2Proof.Claims

/-! ### Exact differences -/

/-- A difference that binary64 has is not rounded, two zeros included (R77). -/
theorem fsub64_exact (d : Draw) {a b w : DWord} (ha : isFinite64 a = true) (hb : isFinite64 b = true) (hw : isFinite64 w = true)
    (h : val64 a - val64 b = val64 w) :
    isFinite64 (fsub64 d a b) = true ∧ val64 (fsub64 d a b) = val64 a - val64 b := by
  have hzero : isFinite64 0#64 = true ∧ val64 0#64 = 0 := ⟨by decide, val64_of_isZero64 (by decide)⟩
  have hb' : isFinite64 (flipSign64 b) = true := by simpa using hb
  have hsum : val64 a + val64 (flipSign64 b) = val64 w := by rw [val64_flipSign64, ← h, sub_eq_add_neg]
  rw [fsub64, h]
  by_cases hz : isZero64 a = true ∧ isZero64 (flipSign64 b) = true
  · rw [fadd64_of_zeros d hz.1 hz.2, ← hsum, val64_of_isZero64 hz.1, val64_of_isZero64 hz.2, add_zero]
    split
    · exact ⟨ha, val64_of_isZero64 hz.1⟩
    · exact hzero
  · obtain ⟨h0, hr⟩ := fadd64_of_finite d ha hb' hz
    by_cases hs : val64 a + val64 (flipSign64 b) = 0
    · rw [h0 hs, ← hsum, hs]
      exact hzero
    · have hround := hr hs
      rw [← Rat.cast_add, hsum] at hround
      exact val64_eq_of_roundsTo64 hw hround

/-- The difference of equal values is `+0` but for two zeros (R77). -/
theorem fsub64_eq_zero (d : Draw) {a b : DWord} (ha : isFinite64 a = true) (hb : isFinite64 b = true)
    (hz : ¬(isZero64 a = true ∧ isZero64 b = true)) (h : val64 a = val64 b) : fsub64 d a b = 0#64 :=
  (fadd64_of_finite d ha (by simpa using hb) (by simpa using hz)).1 (by simp [h])

/-- A value of binary64 that is at least a half is an integer multiple of `2^y` for some `y` from -53 to 0. -/
theorem exists_val64_eq_int_mul_zpow_of_half_le {z : DWord} (h : 1 / 2 ≤ |val64 z|) :
    ∃ n y : Int, -53 ≤ y ∧ y ≤ 0 ∧ val64 z = n * 2 ^ y := by
  have hz := isFinite64_of_val64_ne_zero (w := z) fun h0 => by norm_num [h0] at h
  obtain ⟨n, x, hd, hx, -⟩ := datum64_of_isFinite64 hz
  have hval : (val64 z : ℝ) = (Datum.fin (sign64 z) n x).val := by rw [val64, hd]
  have hlo : -54 < x := by
    have hn : (n : ℝ) < 2 ^ 53 := by exact_mod_cast hx.lt_pow
    have hhalf := (Rat.cast_le (K := ℝ)).2 h
    push_cast at hhalf
    rw [hval, Datum.val_fin, abs_signFactor_mul, abs_of_nonneg (by positivity)] at hhalf
    have hlt : (2 : ℝ) ^ (-54 : Int) < 2 ^ x := by
      have hpos : (0 : ℝ) < 2 ^ x := by positivity
      norm_num
      nlinarith
    exact (zpow_lt_zpow_iff_right₀ one_lt_two).1 hlt
  refine ⟨alignedInt (sign64 z) n x (min x 0), min x 0, by omega, min_le_right x 0, ?_⟩
  have halign := alignedInt_mul_zpow (sign64 z) n (min_le_left x 0)
  rw [← hval] at halign
  apply Rat.cast_injective (α := ℝ)
  push_cast
  exact halign.symm

/-- The remainder of a binary64 value at an integer no further than a half is one too: in units of the value's last place it is no
longer than the value, and at the integer 0 it is the value. -/
theorem exists_val64_eq_sub_int {z : DWord} (hz : isFinite64 z = true) {K : Int} (h : |val64 z - K| ≤ 1 / 2) :
    ∃ w, isFinite64 w = true ∧ val64 w = val64 z - K := by
  rcases eq_or_ne K 0 with rfl | hK
  · exact ⟨z, hz, by simp⟩
  · have hhalf : 1 / 2 ≤ |val64 z| := by
      have h1 : (1 : ℚ) ≤ |(K : ℚ)| := by exact_mod_cast Int.one_le_abs hK
      have h2 := abs_sub_abs_le_abs_sub (K : ℚ) (val64 z)
      rw [abs_sub_comm] at h2
      linarith
    obtain ⟨n, y, hlo, hhi, hval⟩ := exists_val64_eq_int_mul_zpow_of_half_le hhalf
    obtain ⟨j, rfl⟩ : ∃ j : Nat, y = -j := ⟨y.natAbs, by omega⟩
    have hdiff : val64 z - K = ((n - K * 2 ^ j : Int) : ℚ) * 2 ^ (-j : Int) := by
      rw [hval, zpow_neg, zpow_natCast]
      push_cast
      field_simp
    rw [hdiff]
    refine exists_val64_eq_int_mul_zpow ?_ (by omega) (by omega)
    have hpow : (2 : ℚ) ^ j ≤ 2 ^ 53 := pow_le_pow_right₀ one_le_two (by omega)
    have hlt : |((n - K * 2 ^ j : Int) : ℚ)| < 2 ^ 53 := by
      rw [hdiff, abs_mul, abs_of_pos (by positivity : (0 : ℚ) < 2 ^ (-j : Int)), zpow_neg, zpow_natCast, ← div_eq_mul_inv,
        div_le_iff₀ (by positivity)] at h
      linarith
    exact_mod_cast hlt

/-- The integer `val64(k)` of R174. -/
theorem int64_eq_of_val64_eq {k : DWord} {K : Int} (h : val64 k = K) : int64 k = K := by
  rw [val64] at h
  rw [int64]
  cases hd : datum64 k with rw [hd] at h
  | nan => exact_mod_cast (show (0 : ℚ) = K from h)
  | inf s => exact_mod_cast (show (0 : ℚ) = K from h)
  | fin s m x =>
    show truncInt s m x = K
    rw [truncInt_eq, h, Int.ceil_intCast, Int.floor_intCast, ite_self]

/-! ### The magic rounding -/

/-- What R173 (a) and (b) say of the sum `kd` with `SHIFT` and of the integer `K` that `k = kd - SHIFT` holds. -/
structure MagicRounding (d : Draw) (z : DWord) (K : Int) : Prop where
  kd_finite : isFinite64 (expShifted d z) = true
  kd_val : val64 (expShifted d z) = 3 * 2 ^ 51 + K
  kd_frac : ((frac64 (expShifted d z)).toNat : Int) = 2 ^ 51 + K
  near : |val64 z - K| ≤ 1 / 2
  even : |val64 z - K| = 1 / 2 → K % 2 = 0
  k_finite : isFinite64 (expRounded d (expShifted d z)) = true
  k_val : val64 (expRounded d (expShifted d z)) = K
  k_zero : K = 0 → expRounded d (expShifted d z) = 0#64

theorem shiftConst_value : isFinite64 shiftConst = true ∧ isZero64 shiftConst = false ∧ val64 shiftConst = 3 * 2 ^ 51 := by
  decide +kernel

/-- The sum with `SHIFT` is rounded inside the binade from `2^52` to `2^53` (R172). -/
theorem expShifted_roundsTo64 (d : Draw) {z : DWord} (hz : isFinite64 z = true) (hle : |val64 z| ≤ 4096) :
    RoundsTo64 ((val64 z + 3 * 2 ^ 51 : ℚ) : ℝ) (expShifted d z) := by
  obtain ⟨hfin, hnz, hval⟩ := shiftConst_value
  obtain ⟨hlo, hhi⟩ := abs_le.1 hle
  have hne : val64 z + val64 shiftConst ≠ 0 := by
    rw [hval]
    linarith
  have hr := (fadd64_of_finite d hz hfin (by simp [hnz])).2 hne
  rwa [hval, ← Rat.cast_add] at hr

theorem exists_magicRounding (d : Draw) {z : DWord} (hz : isFinite64 z = true) (hle : |val64 z| ≤ 4096) :
    ∃ K, MagicRounding d z K := by
  obtain ⟨hlo, hhi⟩ := abs_le.1 hle
  obtain ⟨hfin, hfrac, hnear, htie⟩ :=
    val64_sub_le_half_of_roundsTo64 (expShifted_roundsTo64 d hz hle) (by linarith) (by linarith)
  obtain ⟨hsfin, hsnz, hsval⟩ := shiftConst_value
  obtain ⟨K, hK⟩ : ∃ K : Int, ((frac64 (expShifted d z)).toNat : Int) = 2 ^ 51 + K := ⟨_ - 2 ^ 51, by ring⟩
  have hKq : ((frac64 (expShifted d z)).toNat : ℚ) = 2 ^ 51 + K := by exact_mod_cast hK
  have hkd : val64 (expShifted d z) = 3 * 2 ^ 51 + K := by rw [hfrac, hKq]; ring
  have hdist : val64 z + 3 * 2 ^ 51 - val64 (expShifted d z) = val64 z - K := by rw [hkd]; ring
  rw [hdist] at hnear htie
  obtain ⟨w, hw, hwval⟩ : ∃ w, isFinite64 w = true ∧ val64 w = K := by
    obtain ⟨h1, h2⟩ := abs_le.1 hnear
    have hKlo : (-2 ^ 53 : ℚ) < K := by linarith
    have hKhi : (K : ℚ) < 2 ^ 53 := by linarith
    exact exists_val64_eq_intCast (abs_lt.2 ⟨by exact_mod_cast hKlo, by exact_mod_cast hKhi⟩)
  have hsub : val64 (expShifted d z) - val64 shiftConst = K := by rw [hkd, hsval]; ring
  obtain ⟨hkfin, hkval⟩ := fsub64_exact d hfin hsfin hw (hsub.trans hwval.symm)
  exact ⟨K, hfin, hkd, hK, hnear, fun h => by have := htie h; omega, hkfin, hkval.trans hsub,
    fun h0 => fsub64_eq_zero d hfin hsfin (by simp [hsnz]) (by rw [hkd, hsval, h0]; simp)⟩

/-- The integer is the one that `int64` reads from `k` (R174). -/
theorem magicRounding_int64 (d : Draw) {z : DWord} (hz : isFinite64 z = true) (hle : |val64 z| ≤ 4096) :
    MagicRounding d z (int64 (expRounded d (expShifted d z))) := by
  obtain ⟨K, hK⟩ := exists_magicRounding d hz hle
  rwa [int64_eq_of_val64_eq hK.k_val]

end Sys2Proof.Machine
end

section
/-! PROOFS. What the scaling and the magic rounding guarantee on every operand that is not saturated (44_exp_engine.md R173), and the
bits of `kd` that steps 4 and 5 read (R175). -/

namespace Sys2Proof.Machine

open Sys2Proof.Claims

/-! ### The scaling (R172) -/

theorem invLn2N_value : isFinite64 invLn2N = true ∧ isZero64 invLn2N = false ∧ sign64 invLn2N = false ∧
    46 < val64 invLn2N ∧ val64 invLn2N < 46166241308446830 / 10 ^ 15 := by
  decide +kernel

theorem isZero64_widen (d : Draw) {a : Word} (h : isZero32 a = true) : isZero64 (widen d a) = true := by
  simp [widen_of_isZero32 d h, isZero64]

/-- Widening is exact on every finite operand (R82). -/
theorem widen_exact (d : Draw) {a : Word} (ha : isFinite32 a = true) :
    isFinite64 (widen d a) = true ∧ val64 (widen d a) = val32 a := by
  cases hz : isZero32 a
  · obtain ⟨hnormal, hval⟩ := widen_of_finite d ha hz
    simp only [isNormal64, Bool.and_eq_true] at hnormal
    exact ⟨hnormal.2, hval⟩
  · have hzero := isZero64_widen d hz
    exact ⟨isFinite64_of_isZero64 hzero, by rw [val64_of_isZero64 hzero, (val32_eq_zero_iff ha).2 hz]⟩

/-- A zero operand is scaled to the zero of its sign. -/
theorem expScaled_of_isZero32 (d : Draw) {a : Word} (h : isZero32 a = true) :
    expScaled d a = pack64 (sign32 a) 0#11 0#52 := by
  obtain ⟨hfin, -, hsign, -⟩ := invLn2N_value
  have hzero := isZero64_widen d h
  rw [expScaled, fmul64_of_zero d (isFinite64_of_isZero64 hzero) hfin (.inl hzero), hsign, widen_of_isZero32 d h, sign64_pack64,
    Bool.xor_false]

theorem isZero64_expScaled (d : Draw) {a : Word} (h : isZero32 a = true) : isZero64 (expScaled d a) = true := by
  simp [expScaled_of_isZero32 d h, isZero64]

/-- Any other finite operand is scaled to the product rounded once (R78). -/
theorem expScaled_roundsTo64 (d : Draw) {a : Word} (ha : isFinite32 a = true) (hz : isZero32 a = false) :
    RoundsTo64 ((val32 a * val64 invLn2N : ℚ) : ℝ) (expScaled d a) := by
  obtain ⟨hfin, hnz, -⟩ := invLn2N_value
  obtain ⟨hwfin, hwval⟩ := widen_exact d ha
  have hwz : isZero64 (widen d a) = false := Bool.eq_false_iff.2 fun h0 => by
    simp [(val32_eq_zero_iff ha).1 (hwval ▸ val64_of_isZero64 h0)] at hz
  rw [Rat.cast_mul, ← hwval]
  exact (fmul64_of_finite d hwfin hfin hwz hnz).1

/-- The product with `32/ln 2` stays below 268435411/65536, which binary64 has (R173 (a)). -/
theorem abs_mul_invLn2N_le {a : Word} (hle : |val32 a| ≤ val32 threshold) :
    |val32 a * val64 invLn2N| ≤ 268435411 / 65536 := by
  obtain ⟨-, -, -, hlo, hhi⟩ := invLn2N_value
  rw [val32_threshold] at hle
  rw [abs_mul, abs_of_pos (by linarith : 0 < val64 invLn2N)]
  calc |val32 a| * val64 invLn2N ≤ 11629078 / 131072 * (46166241308446830 / 10 ^ 15) := by gcongr
    _ ≤ 268435411 / 65536 := by norm_num

section
variable (d : Draw) {a : Word} (ha : isFinite32 a = true) (hle : |val32 a| ≤ val32 threshold)
include ha hle

/-- So does the product rounded. -/
theorem expScaled_bound : isFinite64 (expScaled d a) = true ∧ |val64 (expScaled d a)| ≤ 268435411 / 65536 := by
  cases hz : isZero32 a
  · obtain ⟨w, hw, hwval⟩ := exists_val64_eq_int_mul_zpow (n := 268435411) (x := -16) (by norm_num) (by norm_num) (by norm_num)
    have hbound : val64 w = 268435411 / 65536 := by rw [hwval]; norm_num
    rw [← hbound]
    exact abs_val64_le_of_roundsTo64 (expScaled_roundsTo64 d ha hz) hw (hbound ▸ abs_mul_invLn2N_le hle)
  · have hzero := isZero64_expScaled d hz
    exact ⟨isFinite64_of_isZero64 hzero, by rw [val64_of_isZero64 hzero]; norm_num⟩

/-- Only a zero is scaled to a zero: otherwise the operand would be nearer to the product. -/
theorem isZero32_of_isZero64_expScaled (hzero : isZero64 (expScaled d a) = true) : isZero32 a = true := by
  rw [← val32_eq_zero_iff ha]
  by_contra hne
  have hz : isZero32 a = false := Bool.eq_false_iff.2 fun h => hne ((val32_eq_zero_iff ha).2 h)
  obtain ⟨hwfin, hwval⟩ := widen_exact d ha
  obtain ⟨-, -, -, hlo, -⟩ := invLn2N_value
  have hsmall : |val32 a * val64 invLn2N| < 2 ^ 1024 - 2 ^ 970 := (abs_mul_invLn2N_le hle).trans_lt (by decide +kernel)
  have hnear := ((nearest_of_roundsTo64 (expScaled_roundsTo64 d ha hz) hsmall).2 _ hwfin).1
  rw [val64_of_isZero64 hzero, hwval, sub_zero, ← mul_sub_one, abs_mul, abs_mul, abs_of_pos (by linarith : 0 < val64 invLn2N),
    abs_of_pos (by linarith : 0 < val64 invLn2N - 1)] at hnear
  nlinarith [abs_pos.2 hne]

theorem expScaled_magicRounding :
    MagicRounding d (expScaled d a) (int64 (expRounded d (expShifted d (expScaled d a)))) := by
  obtain ⟨hfin, hbound⟩ := expScaled_bound d ha hle
  exact magicRounding_int64 d hfin (hbound.trans (by norm_num))

end

/-! ### The integer and the remainder (R173) -/

/-- A value less than a half away from an integer is rounded to it. -/
theorem MagicRounding.eq_of_near {d : Draw} {z : DWord} {K n : Int} (h : MagicRounding d z K) (hn : |val64 z - n| < 1 / 2) :
    K = n := by
  have hdist : |((K - n : Int) : ℚ)| < 1 := by
    have htri := abs_sub_le (K : ℚ) (val64 z) n
    rw [abs_sub_comm (K : ℚ) (val64 z)] at htri
    push_cast
    linarith [h.near]
  have : |K - n| < 1 := by exact_mod_cast hdist
  rw [Int.abs_lt_one_iff] at this
  omega

/-- A value within 4096 is rounded to an integer within 4096. -/
theorem MagicRounding.abs_int_le {d : Draw} {z : DWord} {K : Int} (h : MagicRounding d z K) (hle : |val64 z| ≤ 4096) :
    |K| ≤ 4096 := by
  have hlt : |(K : ℚ)| < 4097 := by
    have htri := abs_sub_abs_le_abs_sub (K : ℚ) (val64 z)
    rw [abs_sub_comm (K : ℚ)] at htri
    linarith [h.near]
  have : |K| < 4097 := by exact_mod_cast hlt
  omega

/-- The remainder is exact (R173 (c)). -/
theorem MagicRounding.remainder {d : Draw} {z : DWord} {K : Int} (h : MagicRounding d z K) (hz : isFinite64 z = true) :
    isFinite64 (fsub64 d z (expRounded d (expShifted d z))) = true ∧
      val64 (fsub64 d z (expRounded d (expShifted d z))) = val64 z - K := by
  obtain ⟨w, hw, hval⟩ := exists_val64_eq_sub_int hz h.near
  have hexact := fsub64_exact d hz h.k_finite hw (by rw [h.k_val, hval])
  rwa [h.k_val] at hexact

/-- Off the zeros the remainder of an integer is `+0`. -/
theorem MagicRounding.remainder_of_int {d : Draw} {z : DWord} {K : Int} (h : MagicRounding d z K) (hz : isFinite64 z = true)
    (hnz : isZero64 z = false) (hint : val64 z = K) : fsub64 d z (expRounded d (expShifted d z)) = 0#64 :=
  fsub64_eq_zero d hz h.k_finite (by simp [hnz]) (by rw [h.k_val, hint])

/-- Subtracting `+0` from a zero keeps it (R77). -/
theorem fsub64_zero_of_isZero64 (d : Draw) {z : DWord} (hz : isZero64 z = true) : fsub64 d z 0#64 = z := by
  have hflip : isZero64 (flipSign64 0#64) = true ∧ sign64 (flipSign64 0#64) = true := by decide
  rw [fsub64, fadd64_of_zeros d hz hflip.1, hflip.2]
  cases hs : sign64 z
  · rw [eq_pack64_of_isZero64 hz, hs]
    decide
  · simp

/-- At a zero the integer is `+0` and the remainder is the zero (R173 (b), (c)). -/
theorem MagicRounding.of_isZero64 {d : Draw} {z : DWord} {K : Int} (h : MagicRounding d z K) (hz : isZero64 z = true) :
    expRounded d (expShifted d z) = 0#64 ∧ fsub64 d z (expRounded d (expShifted d z)) = z := by
  have hk := h.k_zero (h.eq_of_near (by rw [val64_of_isZero64 hz]; norm_num))
  exact ⟨hk, by rw [hk, fsub64_zero_of_isZero64 d hz]⟩

/-- At a zero operand `z`, and with it `r`, is the zero of the operand's sign (R173 (c)). -/
theorem expScaled_remainder_of_isZero32 (d : Draw) {a : Word} (ha : isZero32 a = true) :
    expRounded d (expShifted d (expScaled d a)) = 0#64 ∧
      fsub64 d (expScaled d a) (expRounded d (expShifted d (expScaled d a))) = pack64 (sign32 a) 0#11 0#52 := by
  have hzero := isZero64_expScaled d ha
  obtain ⟨K, h⟩ := exists_magicRounding d (isFinite64_of_isZero64 hzero) (by rw [val64_of_isZero64 hzero]; norm_num)
  obtain ⟨hk, hr⟩ := h.of_isZero64 hzero
  exact ⟨hk, hr.trans (expScaled_of_isZero32 d ha)⟩

/-- On every operand but `-0` the remainder of an integer is `+0`. -/
theorem expScaled_remainder_of_int (d : Draw) {a : Word} (ha : isFinite32 a = true) (hle : |val32 a| ≤ val32 threshold)
    (hint : val64 (expScaled d a) = int64 (expRounded d (expShifted d (expScaled d a)))) (hne : a ≠ 0x80000000#32) :
    fsub64 d (expScaled d a) (expRounded d (expShifted d (expScaled d a))) = 0#64 := by
  cases hz : isZero64 (expScaled d a)
  · exact (expScaled_magicRounding d ha hle).remainder_of_int (expScaled_bound d ha hle).1 hz hint
  · have hzero := isZero32_of_isZero64_expScaled d ha hle hz
    rw [(expScaled_remainder_of_isZero32 d hzero).2, eq_zero_of_val32_eq_zero ha ((val32_eq_zero_iff ha).2 hzero) hne]
    decide

/-! ### The thresholds (R173 (d)) -/

/-- Without a NaN the draw plays no part in the scaling (R86). -/
theorem expScaled_draw (d d' : Draw) {a : Word} (ha : isFinite32 a = true) (hle : |val32 a| ≤ val32 threshold) :
    expScaled d' a = expScaled d a := by
  have notNaN {w : DWord} (hw : isFinite64 w = true) : isNaN64 w = false := by
    simp only [isFinite64, bne_iff_ne] at hw
    simp [isNaN64, hw]
  have hwiden : widen d' a = widen d a := word64_draw (notNaN (widen_exact d ha).1) d'
  rw [expScaled, hwiden]
  exact fmul64_draw (notNaN (expScaled_bound d ha hle).1) d'

theorem int64_expRounded_of_near (d : Draw) {a : Word} {n : Int} (ha : isFinite32 a = true) (hle : |val32 a| ≤ val32 threshold)
    (hn : |val64 (expScaled trialDraw a) - n| < 1 / 2) : int64 (expRounded d (expShifted d (expScaled d a))) = n := by
  rw [expScaled_draw d trialDraw ha hle] at hn
  exact (expScaled_magicRounding d ha hle).eq_of_near hn

/-! ### The bits of `kd` (R175) -/

/-- The low bits of a word are those of its fraction. -/
theorem expIndexBits_val (kd : DWord) : (expIndexBits kd).val = (frac64 kd).toNat % 32 := by
  have hfields := toNat_eq_fields64 kd
  have hval : (expIndexBits kd).val = (kd.extractLsb' 0 5).toNat := rfl
  rw [hval, BitVec.extractLsb'_toNat, Nat.shiftRight_zero]
  omega

theorem toNat_quotientBits (kd : DWord) : (kd.extractLsb' 5 12).toNat = (frac64 kd).toNat / 32 % 4096 := by
  have hfields := toNat_eq_fields64 kd
  have hfrac := (frac64 kd).isLt
  simp only [BitVec.extractLsb'_toNat, Nat.shiftRight_eq_div_pow]
  omega

theorem expIndex_eq_expIndexBits {kd : DWord} {K : Int} (h : ((frac64 kd).toNat : Int) = 2 ^ 51 + K) :
    expIndex K = expIndexBits kd := by
  apply Fin.ext
  rw [expIndexBits_val]
  simp only [expIndex]
  omega

/-- Twelve bits of the quotient are enough: the shift drops the others. -/
theorem expScale_eq_expScaleBits {kd : DWord} {K : Int} (h : ((frac64 kd).toNat : Int) = 2 ^ 51 + K) :
    expScale K = expScaleBits kd := by
  rw [expScale, expScaleBits, expIndex_eq_expIndexBits h]
  refine congrArg (tbl (expIndexBits kd) + ·) ?_
  apply BitVec.eq_of_toNat_eq
  have hbits : ((kd.extractLsb' 5 12).zeroExtend 64).toNat = (frac64 kd).toNat / 32 % 4096 % 2 ^ 64 := by
    rw [BitVec.zeroExtend, BitVec.toNat_setWidth, toNat_quotientBits]
  rw [BitVec.toNat_shiftLeft, BitVec.toNat_shiftLeft, hbits, BitVec.toNat_ofInt, expQuotient]
  simp only [Nat.shiftLeft_eq]
  omega

end Sys2Proof.Machine

namespace Sys2Proof

open Sys2Proof.Machine Sys2Proof.Claims

/-- Settles O42: the fraction of `kd` is `2^51 + K`, and `2^51` is a multiple of 32 and of `2^17`. -/
theorem scaleReadFromBits : Obligations.ScaleReadFromBits := by
  intro d a ha hle kd K
  have hfrac : ((frac64 kd).toNat : Int) = 2 ^ 51 + K := (expScaled_magicRounding d ha hle).kd_frac
  exact ⟨hfrac, expIndex_eq_expIndexBits hfrac, by rw [hfrac]; ring, expScale_eq_expScaleBits hfrac⟩

/-- Settles O41: the sum with `SHIFT` is rounded where the unit in the last place is 1, so `K` is the nearest integer, and the
differences that give `k` and `r` are values of binary64. -/
theorem magicRoundingExact : Obligations.MagicRoundingExact := by
  refine ⟨fun d a ha hle => ?general, fun d => ⟨?atThr, ?atNegThr⟩⟩
  case general =>
    intro z kd k r K
    obtain ⟨hzfin, hzle⟩ := expScaled_bound d ha hle
    have h : MagicRounding d z K := expScaled_magicRounding d ha hle
    obtain ⟨hrfin, hrval⟩ := h.remainder hzfin
    obtain ⟨hKlo, hKhi⟩ := abs_le.1 (h.abs_int_le (hzle.trans (by norm_num)))
    have hlo : (-4096 : ℚ) ≤ K := by exact_mod_cast hKlo
    have hhi : (K : ℚ) ≤ 4096 := by exact_mod_cast hKhi
    have hkd := h.kd_val
    refine ⟨hzle.trans (by norm_num), h.kd_finite, hkd, by linarith, by linarith, h.near, h.even, h.k_finite, h.k_val, h.k_zero,
      hrfin, hrval, hrval ▸ h.near, expScaled_remainder_of_int d ha hle, ?_, hKlo, hKhi⟩
    intro hneg
    have hzero : isZero32 a = true := by rw [hneg]; decide
    have hword : pack64 (sign32 a) 0#11 0#52 = 0x8000000000000000#64 := by rw [hneg]; decide
    rw [← hword]
    exact ⟨expScaled_of_isZero32 d hzero, expScaled_remainder_of_isZero32 d hzero⟩
  case atThr => exact int64_expRounded_of_near d (by decide) (by decide +kernel) (by decide +kernel)
  case atNegThr => exact int64_expRounded_of_near d (by decide) (by decide +kernel) (by decide +kernel)

end Sys2Proof
end

section
/-! PROOFS. The report of an illegal command word is the answer to its own request and touches nothing else
(60_exceptions.md R201). -/

namespace Sys2Proof

open Sys2Proof.Machine Sys2Proof.Claims

/-- The decoder rejects the word, and its transaction is the answer of State.answerIllegal. -/
theorem unitExec_of_notMem_legalWords {s : State} {q : Request} {rest : List Request} (hc : q.cmd ∉ legalWords)
    (hq : s.reqq = q :: rest) : unitExec s = .next (s.withReqq rest).answerIllegal := by
  rw [unitExec_cons hq, transaction_of_notMem_legalWords hc]
  rfl

/-- Settles O10: both turns are the unit's, and the unit takes the request and answers it by State.answerIllegal, which writes
only `RSPQ` and the draw index. -/
theorem illegalCommandReported : Obligations.IllegalCommandReported := by
  refine fun s c a b rest hc hq => ⟨fun hs => ?unscheduled, fun ts hs => ?scheduled⟩
  case unscheduled => exact (step_unscheduled hs).trans (unitExec_of_notMem_legalWords hc hq)
  case scheduled => exact (step_unit hs).trans (unitExec_of_notMem_legalWords (s := s.withSchedule ts) hc hq)

end Sys2Proof
end

section
/-! PROOFS. The encoder and the decoder undo each other (30_encoding.md R50, R53, R55, R60), and the illegal command words are
rejected by R55's three checks in turn (R57). -/

namespace Sys2Proof

open Sys2Proof.Machine Sys2Proof.Claims

/-! ### From command to request and back -/

theorem wellFormed_instr (i : Instr) : i.wellFormed = true := by cases i <;> rfl

/-- The command map reads each command from its own fields and operands (R53). -/
theorem commandOf_fields_operands (i : Instr) :
    commandOf i.fields.m i.fields.op i.operands.1 i.operands.2 = some i := by
  cases i <;> rfl

theorem decode_encode (i : Instr) : decode (encode i) = .ok i := by
  have hfields : splitCommand (encode i).cmd = i.fields := splitCommand_joinCommand _
  refine decode_of_commandOf (by rw [hfields]; exact wellFormed_instr i) ?_
  rw [hfields]
  exact commandOf_fields_operands i

/-- Settles O5: the command word splits into the fields it was joined from, they pass the three checks, and the command map
reads the command from them. -/
theorem decodeOfEncodeIsIdentity : Obligations.DecodeOfEncodeIsIdentity :=
  fun i => ⟨wellFormed_instr i, decode_encode i⟩

/-! ### From request to command and back -/

theorem fields_of_mem_commandTable : ∀ r ∈ commandTable, ∀ a b : Word, (r.2.2 a b).fields = r.2.1 := by
  simp only [commandTable, List.forall_mem_cons]
  exact ⟨fun _ _ => rfl, fun _ _ => rfl, fun _ _ => rfl, fun _ _ => rfl, fun _ _ => rfl, fun _ _ => rfl,
    fun _ _ => rfl, fun _ _ => rfl, fun _ _ => rfl, fun _ _ => rfl, fun _ _ => rfl, List.forall_mem_nil _⟩

/-- Only CSGN and HYPOT carry `b` (R54, R60). -/
theorem operands_of_mem_commandTable : ∀ r ∈ commandTable, ∀ a b : Word,
    (r.2.2 a b).operands = (a, if r.1 = 0x06#8 ∨ r.1 = 0x08#8 then b else 0) := by
  simp only [commandTable, List.forall_mem_cons]
  exact ⟨fun _ _ => rfl, fun _ _ => rfl, fun _ _ => rfl, fun _ _ => rfl, fun _ _ => rfl, fun _ _ => rfl,
    fun _ _ => rfl, fun _ _ => rfl, fun _ _ => rfl, fun _ _ => rfl, fun _ _ => rfl, List.forall_mem_nil _⟩

/-- Whatever the decoder reads is the command of a row of the table. -/
theorem exists_row_of_decode_ok {q : Request} {i : Instr} (h : decode q = .ok i) :
    ∃ r ∈ commandTable, r.1 = q.cmd ∧ i = r.2.2 q.a q.b := by
  obtain ⟨r, hr, hcmd⟩ := List.mem_map.mp ((exists_decode_ok_iff_mem_legalWords q).mp ⟨i, h⟩)
  have hrow := decode_of_mem_commandTable hr q.a q.b
  rw [hcmd, h] at hrow
  exact ⟨r, hr, hcmd, Except.ok.inj hrow⟩

theorem encode_of_decode_ok {q : Request} {i : Instr} (h : decode q = .ok i) :
    encode i = ⟨q.cmd, q.a, if q.cmd = 0x06#8 ∨ q.cmd = 0x08#8 then q.b else 0⟩ := by
  obtain ⟨r, hr, hcmd, rfl⟩ := exists_row_of_decode_ok h
  rw [encode, fields_of_mem_commandTable r hr, operands_of_mem_commandTable r hr, ← splitCommand_of_mem_commandTable r hr,
    joinCommand_splitCommand, hcmd]

/-- Settles O6: the command is that of a row of the table, and each row's encoding is known. -/
theorem encodeOfDecodeIsIdentity : Obligations.EncodeOfDecodeIsIdentity := by
  intro q i h
  rw [encode_of_decode_ok h]
  exact ⟨rfl, rfl, fun hb => if_pos hb, fun hcsgn hhypot => if_neg (not_or.mpr ⟨hcsgn, hhypot⟩)⟩

/-! ### Sample words and illegal words -/

/-- Settles O2: the decoder evaluated on each word. -/
theorem sampleWordsDecode : Obligations.SampleWordsDecode := by
  unfold Obligations.SampleWordsDecode
  decide

/-- The third check (R57): a word that passes the first two with an unassigned `OP`. -/
theorem decode_reservedOp {q : Request} (h : q.cmd ∈ [0x0A#8, 0x0B#8, 0x0C#8, 0x0D#8, 0x0E#8, 0x0F#8]) :
    decode q = .error .reservedOp := by
  have hwords : ∀ c ∈ [0x0A#8, 0x0B#8, 0x0C#8, 0x0D#8, 0x0E#8, 0x0F#8], (splitCommand c).reservedZero = true ∧
      (splitCommand c).modeAllowed = true ∧ ¬ (splitCommand c).op ≤ 0x9 := by decide
  obtain ⟨hr, hm, hop⟩ := hwords _ h
  have hnone : commandOf (splitCommand q.cmd).m (splitCommand q.cmd).op q.a q.b = none := by
    rw [← Option.not_isSome_iff_eq_none, isSome_commandOf]
    simpa using hop
  rw [decode_op hr hm, hnone]

/-- Settles O3: each group fails its own check and passes those before it; the groups are counted over the 256 words. -/
theorem illegalWordsRejectedByName : Obligations.IllegalWordsRejectedByName := by
  refine ⟨fun q => ⟨fun hrsv => ?reservedBits, fun hrsv hm hop => ?modeBit, decode_reservedOp⟩, ?counts⟩
  case reservedBits => exact decode_reserved (by simpa [CommandFields.reservedZero] using hrsv)
  case modeBit =>
    exact decode_mode (by simp [CommandFields.reservedZero, hrsv]) (by simp_all [CommandFields.modeAllowed])
  case counts => decide +kernel

end Sys2Proof
end

section
/-! PROOFS. The machine's step: it always leads to a next state, the unit's turn runs the decoded head of `REQQ`, and as many unit
turns as there are requests drain the queue in order (10_state.md R16, R18; 20_memory.md R38; 60_exceptions.md R200;
70_reset_and_hazards.md R235). -/

namespace Sys2Proof

open Sys2Proof.Machine Sys2Proof.Claims

/-! ### What a step can do -/

/-- Every step is the unit's, on the state without the turn it takes if there was one, or a host's (R10). -/
theorem step_cases (s : State) :
    (∃ ts, step s = unitExec (s.withSchedule ts)) ∨
      ∃ p ts, s.schedule = .host p :: ts ∧ step s = .next (hostTurn Config.qdepth p (s.withSchedule ts)) := by
  match hs : s.schedule with
  | [] => exact .inl ⟨[], by rw [step_unscheduled hs, ← hs]; rfl⟩
  | .unit :: ts => exact .inl ⟨ts, step_unit hs⟩
  | .host p :: ts => exact .inr ⟨p, ts, rfl, step_host hs⟩

theorem exists_unitExec_next (s : State) : ∃ t, unitExec s = .next t := by
  obtain ⟨-, h⟩ | ⟨q, rest, -, h⟩ := unitExec_cases s
  · exact ⟨_, h⟩
  · exact ⟨_, h⟩

/-- Settles O12: a unit's turn idles or answers the head of `REQQ`, and a host's turn has a next state. -/
theorem stepNeverStops : Obligations.StepNeverStops := by
  intro s
  obtain ⟨ts, h⟩ | ⟨p, ts, -, h⟩ := step_cases s
  · rw [h]
    exact exists_unitExec_next _
  · exact ⟨_, h⟩

/-! ### The queues' invariant -/

/-- Settles O15: a unit's turn keeps the occupancy, and a host's turn issues a request only when it fits. -/
theorem queuesFitKeptByStep : Obligations.QueuesFitKeptByStep := by
  intro s t hfit hstep
  obtain ⟨ts, h⟩ | ⟨p, ts, -, h⟩ := step_cases s
  · rw [h] at hstep
    exact (unitExec_occupancy hstep).trans_le hfit
  · rw [h] at hstep
    cases hstep
    exact hostTurn_occupancy_le p hfit

/-- Settles O16: both queues are empty after reset. -/
theorem queuesFitAtReset : Obligations.QueuesFitAtReset := Nat.zero_le _

/-! ### The unit's turn -/

/-- The unit runs the command that the head of `REQQ` decodes to (R16). -/
theorem unitExec_of_decode_ok {s : State} {q : Request} {rest : List Request} {i : Instr} (hq : s.reqq = q :: rest)
    (hd : decode q = .ok i) : unitExec s = exec i (s.withReqq rest) := by
  simp only [unitExec, hq, hd]

/-- Settles O7: both turns are the unit's. -/
theorem stepRunsDecodedCommand : Obligations.StepRunsDecodedCommand := by
  refine fun s q rest i hq hd => ⟨fun hs => ?unscheduled, fun ts hs => ?scheduled⟩
  case unscheduled => exact (step_unscheduled hs).trans (unitExec_of_decode_ok hq hd)
  case scheduled => exact (step_unit hs).trans (unitExec_of_decode_ok (s := s.withSchedule ts) hq hd)

theorem decode_of_decodeTableWord {nbits w : Nat} {i : Instr} (h : decodeTableWord nbits w = some i) :
    decode (requestOfNat nbits w) = .ok i := by
  unfold decodeTableWord at h
  cases hd : decode (requestOfNat nbits w) with
  | error e => simp [hd] at h
  | ok j => simpa [hd] using h

/-- Settles O8: placing puts the request at the head of `REQQ` and gives the unit the next turn. -/
theorem placedWordRunsNext : Obligations.PlacedWordRunsNext := by
  intro s nbits w i h
  exact (step_unit (withFetchWord_schedule s nbits w)).trans
    (unitExec_of_decode_ok (s := (s.withFetchWord nbits w).withSchedule s.schedule.tail) rfl (decode_of_decodeTableWord h))

/-- Settles O11: every command answers with the result word of `OP_c`. -/
theorem everyCommandAnswersOnce : Obligations.EveryCommandAnswersOnce :=
  fun i s => ⟨opResult Config.coeffs s.draw i, exec_eq i s⟩

/-- Settles O13: the response is the transaction of the request with the draw of the index, in both states. -/
theorem responseDependsOnRequestAndDraw : Obligations.ResponseDependsOnRequestAndDraw := by
  intro s t q rest rest' hs ht hqs hqt hdraws
  have hdraw : s.draw = t.draw := congrArg Config.drawAt hdraws
  refine ⟨transaction Config.coeffs s.draw q, _, _, step_unscheduled_cons hs hqs, step_unscheduled_cons ht hqt, rfl, ?_⟩
  rw [hdraw]
  rfl

/-! ### Draining the queue -/

theorem run_succ_of_step {M : Host.Core} {s t : M.State} (h : M.step s = .next t) (n : Nat) :
    M.run (n + 1) s = M.run n t := by
  rw [Host.Core.run, h]

/-- The responses to requests answered one after another, the first with draw index `n` (R16, R18). -/
def transactionsFrom (n : Nat) (qs : List Request) : List Response :=
  qs.mapIdx fun j q => transaction Config.coeffs (Config.drawAt (n + j)) q

theorem transactionsFrom_cons (n : Nat) (q : Request) (qs : List Request) :
    transactionsFrom n (q :: qs) = transaction Config.coeffs (Config.drawAt n) q :: transactionsFrom (n + 1) qs := by
  simp only [transactionsFrom, List.mapIdx_cons, Nat.add_zero, Nat.add_assoc, Nat.add_comm 1]

theorem run_core_drains {qs : List Request} : ∀ {s : State}, s.schedule = [] → s.reqq = qs →
    Host.Core.run core qs.length s = .next { s with
      reqq := []
      rspq := s.rspq ++ transactionsFrom s.draws qs
      draws := s.draws + qs.length } := by
  induction qs with
  | nil =>
    intro s _ hq
    obtain ⟨_, r, n, t, c⟩ := s
    cases hq
    simp only [transactionsFrom, List.mapIdx_nil, List.append_nil, List.length_nil, Nat.add_zero]
    rfl
  | cons q qs ih =>
    intro s hs hq
    have hstep : core.step s = .next ((s.withReqq qs).respond (transaction Config.coeffs s.draw q)) :=
      step_unscheduled_cons hs hq
    have hrest := ih (s := (s.withReqq qs).respond (transaction Config.coeffs s.draw q)) hs rfl
    refine (run_succ_of_step hstep _).trans (hrest.trans ?_)
    rw [transactionsFrom_cons]
    simp [State.draw, State.respond, State.withRspq, State.withReqq, State.withDraws, Nat.add_assoc, Nat.add_comm 1]

/-- Settles O14, by induction on the requests: each step answers the head with the next draw and leaves the rest. -/
theorem unitDrainsInOrder : Obligations.UnitDrainsInOrder := fun _ hs => run_core_drains hs rfl

/-! ### Reset and the host's turns -/

theorem one_le_qdepth : 1 ≤ Config.qdepth := Nat.succ_pos _

/-- A unit with both queues empty is ready and offers no response (R21). -/
theorem ports_of_empty {s : State} (hq : s.reqq = []) (hr : s.rspq = []) :
    reqReady Config.qdepth s = true ∧ rspValid s = false ∧ rspPort s = none := by
  have hdepth : 0 < Config.qdepth := one_le_qdepth
  simp [reqReady, rspValid, rspPort, State.occupancy, hq, hr, hdepth]

theorem hostTurn_of_rst {p : HostPorts} (h : p.rst = true) (n : Nat) (s : State) : hostTurn n p s = resetUnit s :=
  if_pos h

/-- Settles O17: `rst` takes the reset step whatever else the host drives, and it empties both queues. -/
theorem resetEmptiesQueues : Obligations.ResetEmptiesQueues := by
  obtain ⟨hready, hvalid, hport⟩ := ports_of_empty (s := State.reset) rfl rfl
  refine ⟨rfl, rfl, hready, hvalid, hport, fun s p ts hs hrst => ?_⟩
  obtain ⟨hready, hvalid, -⟩ := ports_of_empty (s := resetUnit (s.withSchedule ts)) rfl rfl
  exact ⟨_, (step_host hs).trans (congrArg _ (hostTurn_of_rst hrst _ _)), rfl, hready, hvalid⟩

/-- A response is offered exactly when there is one (R19). -/
theorem rspValid_eq_false_iff (s : State) : rspValid s = false ↔ s.rspq = [] := by simp [rspValid]

/-- A host's turn without `rst`, field by field: each handshake with its own two port values (R19). -/
theorem hostTurn_handshakes {p : HostPorts} (h : p.rst = false) (n : Nat) (s : State) :
    (hostTurn n p s).schedule = s.schedule ∧ (hostTurn n p s).draws = s.draws ∧
      (hostTurn n p s).reqq = (if p.reqValid && reqReady n s then s.reqq ++ [p.request] else s.reqq) ∧
      (hostTurn n p s).rspq = (if p.rspReady && rspValid s then s.rspq.tail else s.rspq) ∧
      (hostTurn n p s).collected =
        (if p.rspReady && rspValid s then s.collected ++ (rspPort s).toList else s.collected) := by
  obtain ⟨hrst, -⟩ | ⟨-, ht⟩ := hostTurn_cases n p s
  · simp [h] at hrst
  · rw [ht]
    cases p.reqValid <;> cases p.rspReady <;> simp +contextual [hostIssue_reqq, reqReady, rspPort, rspValid_eq_false_iff]

/-- Settles O19: the request handshake appends the request, and the response handshake takes the head, which is there when a
response is offered. -/
theorem portHandshakes : Obligations.PortHandshakes :=
  fun s _ ts hs hrst => ⟨_, step_host hs, hostTurn_handshakes hrst Config.qdepth (s.withSchedule ts)⟩

/-! ### The tabled steps (R16) -/

theorem hostTurn_issue (n : Nat) (q : Request) (s : State) : hostTurn n (HostPorts.issue q) s = hostIssue n q s := rfl

theorem hostTurn_collect (n : Nat) (s : State) : hostTurn n HostPorts.collect s = hostCollect s := rfl

theorem hostTurn_reset (n : Nat) (s : State) : hostTurn n HostPorts.reset s = resetUnit s := rfl

theorem hostIssue_of_lt {n : Nat} {s : State} (h : s.occupancy < n) (q : Request) :
    hostIssue n q s = s.withReqq (s.reqq ++ [q]) := if_pos (decide_eq_true h)

theorem hostIssue_of_le {n : Nat} {s : State} (h : n ≤ s.occupancy) (q : Request) : hostIssue n q s = s :=
  if_neg (by simpa [reqReady] using h)

theorem hostCollect_nil {s : State} (h : s.rspq = []) : hostCollect s = s := by simp [hostCollect, h]

theorem hostCollect_cons {s : State} {p : Response} {rest : List Response} (h : s.rspq = p :: rest) :
    hostCollect s = (s.withRspq rest).withCollected (s.collected ++ [p]) := by
  simp [hostCollect, h]

/-- Settles O18: the turn on the schedule says which of R16's steps is taken, and each is taken where it is enabled. -/
theorem machineStepsAsTabled : Obligations.MachineStepsAsTabled := by
  refine ⟨one_le_qdepth, fun s ts => ⟨fun q hs => ?issue, fun hs => ?unit, fun hs => ?collect, fun hs => ?reset⟩⟩
  case issue =>
    rw [step_host hs, hostTurn_issue]
    exact ⟨fun h => congrArg _ (hostIssue_of_lt (s := s.withSchedule ts) h q),
      fun h => congrArg _ (hostIssue_of_le (s := s.withSchedule ts) h q)⟩
  case unit =>
    rw [step_unit hs]
    exact ⟨fun h => unitExec_nil (s := s.withSchedule ts) h, fun q rest h => unitExec_cons (s := s.withSchedule ts) h⟩
  case collect =>
    rw [step_host hs, hostTurn_collect]
    exact ⟨fun h => congrArg _ (hostCollect_nil (s := s.withSchedule ts) h),
      fun p rest h => congrArg _ (hostCollect_cons (s := s.withSchedule ts) h)⟩
  case reset => rw [step_host hs, hostTurn_reset]; rfl

end Sys2Proof
end

section
/-! PROOFS. Division (40_fp_numerics.md R79) and the domain and value of the conversion to an integer (R84). -/

namespace Sys2Proof.Machine

open Sys2Proof.Claims

/-! ### Division case by case (R79) -/

/-- The quotient of two finite non-zero values is rounded once. -/
theorem divDatum_fin_roundsTo {f : Fmt} (hf : f.Valid) (s t : Bool) {m n : Nat} (x y : Int) (hm : m ≠ 0) (hn : n ≠ 0) :
    (divDatum f (.fin s m x) (.fin t n y)).RoundsTo f ((Datum.fin s m x).val / (Datum.fin t n y).val) := by
  have hsign : signFactor s / signFactor t = signFactor (s ^^ t) := by
    rw [signFactor_xor, div_eq_iff (left_ne_zero_of_mul_eq_one (signFactor_mul_self t)), mul_assoc, signFactor_mul_self, mul_one]
  have hval : ((Datum.fin s m x).val : ℝ) / (Datum.fin t n y).val = signFactor (s ^^ t) * (m / n * 2 ^ (x - y)) := by
    rw [Datum.val_fin, Datum.val_fin, mul_div_mul_comm, mul_div_mul_comm, hsign, zpow_sub₀ (by norm_num)]
  rw [hval, divDatum, if_neg hn, if_neg hm]
  exact roundRat_roundsTo hf _ (Nat.pos_of_ne_zero hm) (Nat.pos_of_ne_zero hn) _

theorem fdiv32_of_zeros_or_infs (d : Draw) {a b : Word}
    (h : isZero32 a = true ∧ isZero32 b = true ∨ isInf32 a = true ∧ isInf32 b = true) : isNaN32 (fdiv32 d a b) = true := by
  rcases h with ⟨ha, hb⟩ | ⟨ha, hb⟩
  · obtain ⟨x, ha⟩ := datum32_of_isZero32 ha
    obtain ⟨y, hb⟩ := datum32_of_isZero32 hb
    rw [fdiv32, ha, hb, divDatum, if_pos rfl, if_pos rfl]
    exact isNaN32_word32_anyNaN d
  · rw [fdiv32, (isInf32_iff a).1 ha, (isInf32_iff b).1 hb, divDatum]
    exact isNaN32_word32_anyNaN d

theorem fdiv32_eq_inf (d : Draw) {a b : Word}
    (h : isInf32 a = true ∧ isFinite32 b = true ∨ isZero32 b = true ∧ isFinite32 a = true ∧ isZero32 a = false) :
    fdiv32 d a b = pack32 (sign32 a ^^ sign32 b) 255#8 0#23 := by
  rcases h with ⟨ha, hb⟩ | ⟨hb, ha, hz⟩
  · obtain ⟨n, y, hb, -⟩ := datum32_of_isFinite32 hb
    rw [fdiv32, (isInf32_iff a).1 ha, hb, divDatum]
    rfl
  · obtain ⟨m, x, ha, -, hm0⟩ := datum32_of_nonzero ha hz
    obtain ⟨y, hb⟩ := datum32_of_isZero32 hb
    rw [fdiv32, ha, hb, divDatum, if_pos rfl, if_neg hm0]
    rfl

theorem fdiv32_eq_zero (d : Draw) {a b : Word}
    (h : isInf32 b = true ∧ isFinite32 a = true ∨ isZero32 a = true ∧ isFinite32 b = true ∧ isZero32 b = false) :
    fdiv32 d a b = pack32 (sign32 a ^^ sign32 b) 0#8 0#23 := by
  rcases h with ⟨hb, ha⟩ | ⟨ha, hb, hz⟩
  · obtain ⟨m, x, ha, -⟩ := datum32_of_isFinite32 ha
    rw [fdiv32, ha, (isInf32_iff b).1 hb, divDatum]
    rfl
  · obtain ⟨x, ha⟩ := datum32_of_isZero32 ha
    obtain ⟨n, y, hb, -, hn0⟩ := datum32_of_nonzero hb hz
    rw [fdiv32, ha, hb, divDatum, if_neg hn0, if_pos rfl]
    rfl

theorem fdiv32_of_finite (d : Draw) {a b : Word} (ha : isFinite32 a = true) (hb : isFinite32 b = true)
    (hza : isZero32 a = false) (hzb : isZero32 b = false) : RoundsTo32 ((val32 a : ℝ) / val32 b) (fdiv32 d a b) := by
  obtain ⟨m, x, hda, -, hm0⟩ := datum32_of_nonzero ha hza
  obtain ⟨n, y, hdb, -, hn0⟩ := datum32_of_nonzero hb hzb
  rw [fdiv32, val32, val32, hda, hdb]
  exact (divDatum_fin_roundsTo binary32_valid _ _ x y hm0 hn0).word32 d

/-! ### The conversion to an integer (R84) -/

theorem isSome_f2i_iff (a : Word) : (f2i a).isSome = true ↔ F2iDomain a := by
  by_cases h : F2iDomain a
  · simp [f2i_of_domain h, h]
  · simp [f2i_of_not_domain h, h]

/-- A non-negative value is truncated to its floor: truncation raises negative fractions only. -/
theorem truncated32_of_nonneg {a : Word} (h : 0 ≤ val32 a) : truncated32 a = ⌊val32 a⌋ := by
  refine truncated32_of_le_val32 (not_lt.1 fun hlt => ?_)
  have hle : (truncated32 a : ℚ) ≤ 0 := by exact_mod_cast (truncated32_of_val32_lt hlt).2
  linarith

theorem truncated32_of_neg {a : Word} (h : val32 a < 0) : truncated32 a = ⌈val32 a⌉ :=
  truncated32_of_sign_true ((val32_neg_iff h.ne).1 h)

end Sys2Proof.Machine

namespace Sys2Proof

open Sys2Proof.Machine Sys2Proof.Claims

/-- Settles O47, case by case of R79: the exact quotient is a rational times a power of two, rounded once. -/
theorem divisionRoundsOnce : Obligations.DivisionRoundsOnce :=
  fun d _ _ => ⟨fdiv32_isNaN d, fdiv32_of_zeros_or_infs d, fdiv32_eq_inf d, fdiv32_eq_zero d, fdiv32_of_finite d⟩

/-- Settles O51: what `f2i` gives is the truncated value, which fits 32 bits exactly on the domain. -/
theorem floatToIntegerTruncates : Obligations.FloatToIntegerTruncates := by
  refine ⟨fun a => ⟨(isSome_f2i_iff a).trans ?domain, fun t ht => ?value⟩, by decide, by decide, by decide, by decide⟩
  case domain => exact ⟨fun ⟨hfin, hlo, hhi⟩ => ⟨hfin, hlo, hhi⟩, fun ⟨hfin, hlo, hhi⟩ => ⟨hfin, hlo, hhi⟩⟩
  case value =>
    have hdom : F2iDomain a := (isSome_f2i_iff a).1 (by rw [ht]; rfl)
    obtain rfl : truncated32 a = t := by simpa [f2i_of_domain hdom] using ht
    exact ⟨truncated32_of_nonneg, truncated32_of_neg, (truncated32_fits_iff hdom.finite).2 ⟨hdom.lower, hdom.upper⟩⟩

end Sys2Proof
end

section
/-! PROOFS. `HYPOT` (41_bitops.md R115): squares and sums of non-negative words are non-negative words, so the square root is
never taken of a negative one. -/

namespace Sys2Proof.Machine

open Sys2Proof.Claims

/-- A word that is no NaN and has its sign bit clear. -/
structure NonNegative32 (w : Word) : Prop where
  notNaN : isNaN32 w = false
  sign : sign32 w = false

theorem isNaN32_eq_false_of_isFinite32 {w : Word} (h : isFinite32 w = true) : isNaN32 w = false :=
  Bool.eq_false_iff.2 fun hn => by simp [isFinite32_eq_false_of_isNaN32 hn] at h

theorem isNaN32_eq_false_of_isInf32 {w : Word} (h : isInf32 w = true) : isNaN32 w = false := by
  rw [eq_pack32_of_isInf32 h]
  simp [isNaN32]

/-- A rounded value is finite or an infinity (R76). -/
theorem isNaN32_eq_false_of_roundsTo32 {v : ℝ} {r : Word} (h : RoundsTo32 v r) : isNaN32 r = false := by
  obtain ⟨-, hfin, hinf⟩ := h
  rcases lt_or_ge |v| (2 ^ 128 - 2 ^ 103) with hv | hv
  · exact isNaN32_eq_false_of_isFinite32 (hfin hv).1
  · exact isNaN32_eq_false_of_isInf32 (hinf hv)

theorem nonNegative32_of_roundsTo32 {v : ℝ} {r : Word} (hv : 0 ≤ v) (h : RoundsTo32 v r) : NonNegative32 r :=
  ⟨isNaN32_eq_false_of_roundsTo32 h, Bool.eq_false_iff.2 fun hs => hv.not_gt (h.1.1 hs)⟩

theorem nonNegative32_infinity : NonNegative32 0x7F800000#32 := ⟨by decide, by decide⟩

theorem NonNegative32.eq_infinity {w : Word} (h : NonNegative32 w) (hinf : isInf32 w = true) : w = 0x7F800000#32 := by
  rw [eq_pack32_of_isInf32 hinf, h.sign]
  decide

theorem NonNegative32.val32_nonneg {w : Word} (h : NonNegative32 w) : 0 ≤ val32 w := by
  rw [val32_of_sign_false h.sign]
  exact abs_nonneg _

/-! ### The operations on non-negative words -/

theorem fmul32_self_nonNegative32 (d : Draw) {a : Word} (hn : isNaN32 a = false) : NonNegative32 (fmul32 d a a) := by
  refine ⟨?_, sign32_fmul32_self d hn⟩
  rcases isInf32_or_isFinite32 hn with h | h
  · rw [fmul32_self_of_isInf32 d hn h]
    decide
  · cases hz : isZero32 a
    · exact isNaN32_eq_false_of_roundsTo32 (fmul32_of_finite d h h hz hz).1
    · rw [fmul32_self_of_isZero32 d hz]
      decide

/-- The signs agree, so `+inf` absorbs the other word (R77). -/
theorem fadd32_of_infinity (d : Draw) {a b : Word} (ha : NonNegative32 a) (hb : NonNegative32 b)
    (h : isInf32 a = true ∨ isInf32 b = true) : fadd32 d a b = 0x7F800000#32 := by
  rcases isInf32_or_isFinite32 ha.notNaN with hinf | hfin
  · rw [fadd32_of_inf_left d hinf hb.notNaN fun _ => ha.sign.trans hb.sign.symm, ha.eq_infinity hinf]
  · have hinf := h.resolve_left (by simp [isInf32_eq_false_of_isFinite32 hfin])
    rw [fadd32_of_inf_right d hinf hfin, hb.eq_infinity hinf]

theorem fadd32_nonNegative32 (d : Draw) {a b : Word} (ha : NonNegative32 a) (hb : NonNegative32 b) :
    NonNegative32 (fadd32 d a b) := by
  by_cases hinf : isInf32 a = true ∨ isInf32 b = true
  · rw [fadd32_of_infinity d ha hb hinf]
    exact nonNegative32_infinity
  · obtain ⟨hia, hib⟩ := not_or.1 hinf
    have hfa := (isInf32_or_isFinite32 ha.notNaN).resolve_left hia
    have hfb := (isInf32_or_isFinite32 hb.notNaN).resolve_left hib
    by_cases hz : isZero32 a = true ∧ isZero32 b = true
    · rw [fadd32_of_zeros d hz.1 hz.2, if_pos (ha.sign.trans hb.sign.symm)]
      exact ha
    · obtain ⟨hzero, hround⟩ := fadd32_of_finite d hfa hfb hz
      by_cases hs : val32 a + val32 b = 0
      · rw [hzero hs]
        exact ⟨by decide, by decide⟩
      · exact nonNegative32_of_roundsTo32 (by exact_mod_cast add_nonneg ha.val32_nonneg hb.val32_nonneg) (hround hs)

theorem fsqrt32_nonNegative32 (d : Draw) {a : Word} (ha : NonNegative32 a) : NonNegative32 (fsqrt32 d a) := by
  rcases isInf32_or_isFinite32 ha.notNaN with hinf | hfin
  · rw [ha.eq_infinity hinf, fsqrt32_infinity]
    exact nonNegative32_infinity
  · cases hz : isZero32 a
    · obtain ⟨-, hs, hr⟩ := fsqrt32_of_positive d hfin ha.sign hz
      exact ⟨isNaN32_eq_false_of_roundsTo32 hr, hs⟩
    · rwa [fsqrt32_of_isZero32 d hz]

/-! ### The signs of the operands -/

/-- A square does not depend on the sign: it is the exclusive-or of the sign with itself (R78). -/
theorem fmul32_flipSign32_self (d : Draw) (a : Word) : fmul32 d (flipSign32 a) (flipSign32 a) = fmul32 d a a := by
  simp only [fmul32, datum32, sign32_flipSign32, exp32_flipSign32, frac32_flipSign32, datumOf]
  split_ifs <;> simp [mulDatum]

theorem hypotOp_eq (d : Draw) (a b : Word) :
    hypotOp d a b = fsqrt32 d (fadd32 d (fmul32 d a a) (fmul32 d b b)) := rfl

theorem hypotOp_flipSign32_left (d : Draw) (a b : Word) : hypotOp d (flipSign32 a) b = hypotOp d a b := by
  rw [hypotOp_eq, fmul32_flipSign32_self, ← hypotOp_eq]

theorem hypotOp_flipSign32_right (d : Draw) (a b : Word) : hypotOp d a (flipSign32 b) = hypotOp d a b := by
  rw [hypotOp_eq, fmul32_flipSign32_self, ← hypotOp_eq]

/-! ### `HYPOT` class by class -/

theorem hypotOp_isNaN (d : Draw) {a b : Word} (h : isNaN32 a = true ∨ isNaN32 b = true) : isNaN32 (hypotOp d a b) = true :=
  fsqrt32_isNaN d (fadd32_isNaN d (h.imp (fun h => fmul32_isNaN d (.inl h)) fun h => fmul32_isNaN d (.inl h)))

theorem hypotOp_of_isInf32 (d : Draw) {a b : Word} (ha : isNaN32 a = false) (hb : isNaN32 b = false)
    (h : isInf32 a = true ∨ isInf32 b = true) : hypotOp d a b = 0x7F800000#32 := by
  have hsquare {w : Word} (hw : isInf32 w = true) : isInf32 (fmul32 d w w) = true := by
    rw [fmul32_self_of_isInf32 d (isNaN32_eq_false_of_isInf32 hw) hw]
    decide
  rw [hypotOp_eq, fadd32_of_infinity d (fmul32_self_nonNegative32 d ha) (fmul32_self_nonNegative32 d hb) (h.imp hsquare hsquare),
    fsqrt32_infinity]

theorem hypotOp_nonNegative32 (d : Draw) {a b : Word} (ha : isNaN32 a = false) (hb : isNaN32 b = false) :
    NonNegative32 (hypotOp d a b) :=
  fsqrt32_nonNegative32 d (fadd32_nonNegative32 d (fmul32_self_nonNegative32 d ha) (fmul32_self_nonNegative32 d hb))

end Sys2Proof.Machine

namespace Sys2Proof

open Sys2Proof.Machine Sys2Proof.Claims

theorem decode_hypot (a b : Word) : decode ⟨0x08#8, a, b⟩ = .ok (.hypot a b) :=
  decode_of_mem_commandTable (r := (0x08#8, ⟨0b000#3, 0#1, 0x8#4⟩, fun a b => .hypot a b)) (by simp [commandTable]) a b

/-- Settles O26: the signs cancel in the squares, and from there on every word is non-negative. -/
theorem hypotFourRoundings : Obligations.HypotFourRoundings :=
  fun a b s => ⟨decode_hypot a b, exec_eq (.hypot a b) s, fun d => ⟨hypotOp_flipSign32_left d a b,
    hypotOp_flipSign32_right d a b, hypotOp_isNaN d, hypotOp_of_isInf32 d,
    fun ha hb => ⟨(hypotOp_nonNegative32 d ha hb).notNaN, (hypotOp_nonNegative32 d ha hb).sign⟩⟩⟩

end Sys2Proof
end

section
/-! PROOFS. The Horner evaluator in both formats (40_fp_numerics.md R90) and the free NaN pattern (R86). -/

namespace Sys2Proof.Machine

open Sys2Proof.Claims

/-- At a NaN argument the first stage gives a NaN, and the later ones keep it. -/
theorem horner32_isNaN (d : Draw) (lead c : Word) (rest : List Word) {u : Word} (hu : isNaN32 u = true) :
    isNaN32 (horner32 d lead (c :: rest) u) = true :=
  horner32_isNaN_lead d rest u (fadd32_isNaN d (.inl (fmul32_isNaN d (.inr hu))))

/-! ### binary64 words of one value -/

/-- A value that is not 0 is negative exactly when the sign bit is set. -/
theorem val64_neg_iff {w : DWord} (h : val64 w ≠ 0) : val64 w < 0 ↔ sign64 w = true := by
  obtain ⟨n, x, hd, -, hn⟩ := datum64_of_isFinite64 (isFinite64_of_val64_ne_zero h)
  have hn0 : n ≠ 0 := fun h0 => h (val64_of_isZero64 (hn.1 h0))
  rw [← Rat.cast_lt_zero (K := ℝ), val64, hd, Datum.val_fin]
  exact signFactor_mul_neg_iff _ (by positivity)

/-- Finite words of one magnitude have the same exponent and fraction. -/
theorem fields64_eq_of_abs_val64_eq {a b : DWord} (ha : isFinite64 a = true) (hb : isFinite64 b = true)
    (h : |val64 a| = |val64 b|) : exp64 a = exp64 b ∧ frac64 a = frac64 b := by
  have hEa := (isFinite64_iff_exp_lt a).1 ha
  have hEb := (isFinite64_iff_exp_lt b).1 hb
  have hreal : |((datum64 a).val : ℝ)| = |((datum64 b).val : ℝ)| := by exact_mod_cast congrArg (Rat.cast (K := ℝ)) h
  have hab := (abs_val_datumOf_lt_iff binary64_valid (sign64 a) (sign64 b) hEa hEb (frac64 a).isLt (frac64 b).isLt).not.1
    hreal.not_lt
  have hba := (abs_val_datumOf_lt_iff binary64_valid (sign64 b) (sign64 a) hEb hEa (frac64 b).isLt (frac64 a).isLt).not.1
    hreal.symm.not_lt
  simp only [← BitVec.toNat_inj]
  omega

/-- A value that is not 0 belongs to one word only. -/
theorem eq_of_val64_eq {a b : DWord} (h : val64 a = val64 b) (h0 : val64 a ≠ 0) : a = b := by
  have hb0 : val64 b ≠ 0 := h ▸ h0
  obtain ⟨hexp, hfrac⟩ :=
    fields64_eq_of_abs_val64_eq (isFinite64_of_val64_ne_zero h0) (isFinite64_of_val64_ne_zero hb0) (by rw [h])
  exact dword_ext (Bool.eq_iff_iff.2 (by rw [← val64_neg_iff h0, ← val64_neg_iff hb0, h])) hexp hfrac

/-! ### The evaluator in binary64 -/

theorem horner64_nil (d : Draw) (lead u : DWord) : horner64 d lead [] u = lead := rfl

theorem horner64_cons (d : Draw) (lead c : DWord) (rest : List DWord) (u : DWord) :
    horner64 d lead (c :: rest) u = horner64 d (fadd64 d (fmul64 d lead u) c) rest u := rfl

theorem horner64_append_singleton (d : Draw) (lead : DWord) (rest : List DWord) (c u : DWord) :
    horner64 d lead (rest ++ [c]) u = fadd64 d (fmul64 d (horner64 d lead rest u) u) c := List.foldl_concat ..

theorem horner64_isNaN_lead (d : Draw) (rest : List DWord) (u : DWord) {lead : DWord} (h : isNaN64 lead = true) :
    isNaN64 (horner64 d lead rest u) = true := by
  induction rest generalizing lead with
  | nil => exact h
  | cons c rest ih =>
    rw [horner64_cons]
    exact ih (fadd64_isNaN d (.inl (fmul64_isNaN d (.inl h))))

theorem horner64_isNaN (d : Draw) (lead c : DWord) (rest : List DWord) {u : DWord} (hu : isNaN64 u = true) :
    isNaN64 (horner64 d lead (c :: rest) u) = true :=
  horner64_isNaN_lead d rest u (fadd64_isNaN d (.inl (fmul64_isNaN d (.inr hu))))

theorem isZero64_fmul64_of_zero (d : Draw) {a u : DWord} (ha : isFinite64 a = true) (hu : isZero64 u = true) :
    isZero64 (fmul64 d a u) = true := by
  rw [fmul64_of_zero d ha (isFinite64_of_isZero64 hu) (.inr hu)]
  simp [isZero64]

/-- Adding a zero to a finite word that is no zero is exact (R77). -/
theorem fadd64_of_zero_left (d : Draw) {a c : DWord} (ha : isZero64 a = true) (hc : isFinite64 c = true) (hz : isZero64 c = false) :
    fadd64 d a c = c := by
  have hne : val64 c ≠ 0 := fun h => by simp [(val64_eq_zero_iff hc).1 h] at hz
  have hr := (fadd64_of_finite d (isFinite64_of_isZero64 ha) hc (by simp [hz])).2
  rw [val64_of_isZero64 ha, zero_add, Rat.cast_zero, zero_add] at hr
  have hval := (val64_eq_of_roundsTo64 hc (hr hne)).2
  exact eq_of_val64_eq hval (hval ▸ hne)

theorem isFinite64_fadd64_of_zero_left (d : Draw) {a c : DWord} (ha : isZero64 a = true) (hc : isFinite64 c = true) :
    isFinite64 (fadd64 d a c) = true := by
  cases hz : isZero64 c
  · rwa [fadd64_of_zero_left d ha hc hz]
  · rw [fadd64_of_zeros d ha hz]
    split
    · exact isFinite64_of_isZero64 ha
    · decide

theorem isFinite64_horner64_of_zero (d : Draw) {u : DWord} (hu : isZero64 u = true) {rest : List DWord}
    (hrest : ∀ c ∈ rest, isFinite64 c = true) {lead : DWord} (hlead : isFinite64 lead = true) :
    isFinite64 (horner64 d lead rest u) = true := by
  induction rest generalizing lead with
  | nil => exact hlead
  | cons c rest ih =>
    obtain ⟨hc, hrest⟩ := List.forall_mem_cons.1 hrest
    exact ih hrest (isFinite64_fadd64_of_zero_left d (isZero64_fmul64_of_zero d hlead hu) hc)

/-- At a zero the last product is a zero, so a constant term that is no zero is the result (90_conflicts.md C9). -/
theorem horner64_of_zero (d : Draw) {u lead c0 : DWord} {rest : List DWord} (hu : isZero64 u = true)
    (hlead : isFinite64 lead = true) (hrest : ∀ c ∈ rest, isFinite64 c = true) (hc : isFinite64 c0 = true)
    (hz : isZero64 c0 = false) : horner64 d lead (rest ++ [c0]) u = c0 := by
  rw [horner64_append_singleton]
  exact fadd64_of_zero_left d (isZero64_fmul64_of_zero d (isFinite64_horner64_of_zero d hu hrest hlead) hu) hc hz

/-! ### The free NaN pattern (R86) -/

/-- `SQRT` of -1 is the draw's NaN (R80). -/
theorem sqrtOp_neg_one (d : Draw) : sqrtOp d 0xBF800000#32 = d.anyNaN32 := by
  have hnan : sqrtDatum binary32 (datum32 0xBF800000#32) = .anyNaN := by decide
  rw [sqrtOp, fsqrt32, hnan, Enc.word32]

end Sys2Proof.Machine

namespace Sys2Proof

open Sys2Proof.Machine

/-- Settles O53: at a zero every accumulated value stays finite, so each product with it is a zero and the constant term comes
through; at a NaN the first product is a NaN. -/
theorem hornerEvaluates : Obligations.HornerEvaluates :=
  ⟨fun d u => ⟨fun lead => horner32_nil d lead u, fun lead c rest => horner32_cons d lead c rest u,
      fun _ _ _ hu hlead hrest => horner32_of_zero d hu hlead hrest, fun lead c rest hu => horner32_isNaN d lead c rest hu⟩,
    fun d u => ⟨fun lead => horner64_nil d lead u, fun lead c rest => horner64_cons d lead c rest u,
      fun _ _ _ hu hlead hrest => horner64_of_zero d hu hlead hrest, fun lead c rest hu => horner64_isNaN d lead c rest hu⟩⟩

/-- Settles O54: a NaN is the shape of its own bits, so the draw with those bits gives it. -/
theorem naNPatternIsFree : Obligations.NaNPatternIsFree := by
  refine ⟨fun d => ⟨isNaN32_anyNaN32 d, isNaN64_anyNaN64 d⟩, fun w hw => ?_, fun w hw => ?_⟩
  · exact ⟨{ trialDraw with nanBits32 := w }, (sqrtOp_neg_one _).trans (shapeNaN32_of_isNaN32 hw)⟩
  · exact ⟨{ trialDraw with nanBits64 := w }, shapeNaN64_of_isNaN64 hw⟩

end Sys2Proof
end

section
/-! PROOFS. `SIN` and `COS` (42_range_reducer.md R130, R132; 43_poly_kernels.md R142, R143): operation by operation, on the identity
range of `REDUCE`, and at the zeros. -/

namespace Sys2Proof.Machine

open Sys2Proof.Claims

/-! ### `REDUCE` by what `f2i` gives of its quotient (R130) -/

/-- `FLOORF` of a word that `f2i` truncates to `t` (41_bitops.md R112). -/
def floorWord (d : Draw) (a : Word) (t : Int) : Word :=
  if fgt32 (i2f d t) a then fsub32 d (i2f d t) one32 else i2f d t

theorem floorFn_of_f2i_some (d : Draw) {a : Word} {t : Int} (h : f2i a = some t) : floorFn d a = some (floorWord d a t) := by
  simp only [floorFn, h]
  rfl

theorem floorFn_of_f2i_none (d : Draw) {a : Word} (h : f2i a = none) : floorFn d a = none := by
  simp only [floorFn, h]

theorem reduce_of_floorFn_some {d : Draw} {x n : Word} (h : floorFn d (reduceQuotient d x) = some n) :
    reduce d x = some (fsub32 d x (fmul32 d n twoPi)) := by
  simp only [reduce, h]

theorem reduce_of_f2i_none {d : Draw} {x : Word} (h : f2i (reduceQuotient d x) = none) : reduce d x = none := by
  simp only [reduce, floorFn_of_f2i_none d h]

theorem sinOp_of_reduce_some (k : Coeffs) {d : Draw} {a x : Word} (h : reduce d a = some x) :
    sinOp k d a = sinReduced k.sinC d x := by
  rw [sinOp, h]

theorem cosOp_of_reduce_some (k : Coeffs) {d : Draw} {a x : Word} (h : reduce d a = some x) :
    cosOp k d a = cosReduced k.cosC d x := by
  rw [cosOp, h]

/-! ### The identity range (R132) -/

/-- Subtracting `+0` from a finite word keeps it, the sign of a zero included (R77). -/
theorem fsub32_zero (d : Draw) {x : Word} (hx : isFinite32 x = true) : fsub32 d x 0x00000000#32 = x := by
  have hneg : isFinite32 (flipSign32 0x00000000#32) = true ∧ isZero32 (flipSign32 0x00000000#32) = true ∧
      sign32 (flipSign32 0x00000000#32) = true := by decide
  obtain ⟨hfin, hzero, hsign⟩ := hneg
  rw [fsub32]
  cases hz : isZero32 x
  · have hne : val32 x ≠ 0 := fun h => by simp [(val32_eq_zero_iff hx).1 h] at hz
    have hr := (fadd32_of_finite d hx hfin (by simp [hz])).2
    rw [(val32_eq_zero_iff hfin).2 hzero, add_zero, Rat.cast_zero, add_zero] at hr
    exact eq_of_roundsTo32_val32 hne (hr hne)
  · rw [fadd32_of_zeros d hz hzero, hsign]
    cases hs : sign32 x
    · rw [eq_pack32_of_isZero32 hz, hs]
      decide
    · exact if_pos rfl

/-- `+0` times `2π` is `+0`. -/
theorem fmul32_zero_twoPi (d : Draw) : fmul32 d 0x00000000#32 twoPi = 0x00000000#32 := by
  rw [fmul32_of_zero d (by decide) (by decide) (.inl (by decide))]
  decide

/-- On the identity range the quotient is from 0 up to 1: it increases with the operand, and the two ends are evaluated. -/
theorem val32_reduceQuotient_of_identityRange (d : Draw) {x : Word} (hx : isFinite32 x = true)
    (hlo : val32 0xC0490FDB#32 ≤ val32 x) (hhi : val32 x ≤ val32 0x40490FD9#32) :
    0 ≤ val32 (reduceQuotient d x) ∧ val32 (reduceQuotient d x) < 1 := by
  have hfirst : 0 ≤ val32 (reduceQuotient trialDraw 0xC0490FDB#32) := by decide +kernel
  have hlast : val32 (reduceQuotient trialDraw 0x40490FD9#32) < 1 := by decide +kernel
  rw [reduceQuotient_draw trialDraw d hx]
  exact ⟨hfirst.trans (reduceQuotient_mono trialDraw (by decide) hx hlo),
    (reduceQuotient_mono trialDraw hx (by decide) hhi).trans_lt hlast⟩

/-- There the floor is 0, so nothing is subtracted. -/
theorem reduce_of_identityRange (d : Draw) {x : Word} (hx : isFinite32 x = true) (hlo : val32 0xC0490FDB#32 ≤ val32 x)
    (hhi : val32 x ≤ val32 0x40490FD9#32) : reduce d x = some x := by
  obtain ⟨hq0, hq1⟩ := val32_reduceQuotient_of_identityRange d hx hlo hhi
  have hdom : F2iDomain (reduceQuotient d x) :=
    ⟨(isFinite32_reduceQuotient d x).trans hx, by linarith, by linarith⟩
  have hfloor : ⌊val32 (reduceQuotient d x)⌋ = 0 := Int.floor_eq_zero_iff.2 ⟨hq0, hq1⟩
  have hfn := (floorFn_of_domain d hdom).1
  rw [hfloor, i2f_zero] at hfn
  rw [reduce_of_floorFn_some hfn, fmul32_zero_twoPi, fsub32_zero d hx]

/-! ### The zeros (R142, R143) -/

theorem reduce_of_isZero32 (d : Draw) {a : Word} (h : isZero32 a = true) : reduce d a = some a := by
  have hends : val32 0xC0490FDB#32 ≤ 0 ∧ 0 ≤ val32 0x40490FD9#32 := by decide +kernel
  have hfin := isFinite32_of_isZero32 h
  have hval := (val32_eq_zero_iff hfin).2 h
  exact reduce_of_identityRange d hfin (hends.1.trans_eq hval.symm) (hval.trans_le hends.2)

theorem Coeff6.finite_iff (k : Coeff6) :
    k.finite = true ↔ ∀ w ∈ [k.c0, k.c1, k.c2, k.c3, k.c4, k.c5], isFinite32 w = true := by
  simp [Coeff6.finite, and_assoc]

/-- The sine and cosine kernels are one evaluator; at a zero it gives a constant term that is no zero (R90). -/
theorem sinPoly_of_isZero32 {k : Coeff6} (hk : k.finite = true) (h0 : isZero32 k.c0 = false) (d : Draw) {u : Word}
    (hu : isZero32 u = true) : sinPoly k d u = k.c0 := by
  have hfin := k.finite_iff.1 hk
  exact horner32_of_zero (rest := [k.c4, k.c3, k.c2, k.c1]) d hu (hfin k.c5 (by simp)) (by simp [hfin])
    (hfin k.c0 (by simp)) h0

theorem cosPoly_eq_sinPoly (k : Coeff6) (d : Draw) (u : Word) : cosPoly k d u = sinPoly k d u := rfl

/-- R151 (a) to (c) for the sine and cosine vectors. -/
structure TrigConstraints (k : Coeffs) : Prop where
  sinFinite : k.sinC.finite = true
  cosFinite : k.cosC.finite = true
  sinConst : isZero32 k.sinC.c0 = false
  cosConst : k.cosC.c0 = 0x3F800000#32

theorem trigConstraints {k : Coeffs} (h : k.trigAdmissible = true) : TrigConstraints k := by
  simp only [Coeffs.trigAdmissible, Bool.and_eq_true, Bool.not_eq_true', beq_iff_eq] at h
  obtain ⟨⟨⟨hsin, hcos⟩, hsin0⟩, hcos0⟩ := h
  exact ⟨hsin, hcos, hsin0, hcos0⟩

theorem isZero32_fmul32_self (d : Draw) {a : Word} (h : isZero32 a = true) : isZero32 (fmul32 d a a) = true :=
  isZero32_fmul32_of_zero d (isFinite32_of_isZero32 h) h

theorem cosOp_of_isZero32 {k : Coeffs} (hk : TrigConstraints k) (d : Draw) {a : Word} (h : isZero32 a = true) :
    cosOp k d a = 0x3F800000#32 := by
  rw [cosOp_of_reduce_some k (reduce_of_isZero32 d h), cosReduced, cosPoly_eq_sinPoly,
    sinPoly_of_isZero32 hk.cosFinite (by rw [hk.cosConst]; decide) d (isZero32_fmul32_self d h), hk.cosConst]

theorem sinOp_of_isZero32 {k : Coeffs} (hk : TrigConstraints k) (d : Draw) {a : Word} (h : isZero32 a = true) :
    sinOp k d a = fmul32 d k.sinC.c0 a := by
  rw [sinOp_of_reduce_some k (reduce_of_isZero32 d h), sinReduced,
    sinPoly_of_isZero32 hk.sinFinite hk.sinConst d (isZero32_fmul32_self d h)]

theorem TrigConstraints.isFinite32_sinConst {k : Coeffs} (hk : TrigConstraints k) : isFinite32 k.sinC.c0 = true :=
  (Coeff6.finite_iff _).1 hk.sinFinite _ (by simp)

end Sys2Proof.Machine

namespace Sys2Proof

open Sys2Proof.Machine Sys2Proof.Claims

theorem decode_sin (a b : Word) : decode ⟨0x00#8, a, b⟩ = .ok (.sin a) :=
  decode_of_mem_commandTable (r := (0x00#8, ⟨0b000#3, 0#1, 0x0#4⟩, fun a _ => .sin a)) (by simp [commandTable]) a b

theorem decode_cos (a b : Word) : decode ⟨0x01#8, a, b⟩ = .ok (.cos a) :=
  decode_of_mem_commandTable (r := (0x01#8, ⟨0b000#3, 0#1, 0x1#4⟩, fun a _ => .cos a)) (by simp [commandTable]) a b

/-- Settles O27: `f2i` of the quotient is the only operation that can be undefined; where it is defined the operations are those of
the definitions. -/
theorem sinOperationByOperation : Obligations.SinOperationByOperation := by
  refine fun a b s => ⟨decode_sin a b, fun h => ?outside, fun t h => ?inside⟩
  all_goals have hans := answers_sin a s
  case outside => rwa [sinOp_of_reduce_none _ (reduce_of_f2i_none (d := s.draw) h)] at hans
  case inside => rwa [sinOp_of_reduce_some _ (reduce_of_floorFn_some (floorFn_of_f2i_some s.draw h))] at hans

/-- Settles O28, as for `SIN`. -/
theorem cosOperationByOperation : Obligations.CosOperationByOperation := by
  refine fun a b s => ⟨decode_cos a b, fun h => ?outside, fun t h => ?inside⟩
  all_goals have hans := answers_cos a s
  case outside => rwa [cosOp_of_reduce_none _ (reduce_of_f2i_none (d := s.draw) h)] at hans
  case inside => rwa [cosOp_of_reduce_some _ (reduce_of_floorFn_some (floorFn_of_f2i_some s.draw h))] at hans

/-- Settles O30: the quotient lies from 0 up to 1, its floor is 0, and `+0` is subtracted. -/
theorem reduceIdentityRange : Obligations.ReduceIdentityRange := fun d _ => reduce_of_identityRange d

/-- Settles O31: a zero is reduced to itself, and at its square each kernel gives its constant term. -/
theorem trigAtZero : Obligations.TrigAtZero := by
  intro a s h
  have hk := trigConstraints coeffs_trigAdmissible
  have hcos := answers_cos a s
  have hsin := answers_sin a s
  rw [cosOp_of_isZero32 hk _ h] at hcos
  rw [sinOp_of_isZero32 hk _ h] at hsin
  refine ⟨hcos, _, hsin, isZero32_fmul32_of_zero _ hk.isFinite32_sinConst h, ?_⟩
  rw [fmul32_of_zero _ hk.isFinite32_sinConst (isFinite32_of_isZero32 h) (.inr h), sign32_pack32]

end Sys2Proof
end

section
/-! PROOFS. The table path of `EXP` (44_exp_engine.md R172 to R179): operation by operation where the sum with `SHIFT` is no NaN,
and the special operands. -/

namespace Sys2Proof.Machine

open Sys2Proof.Claims

theorem isNaN64_eq_false_of_isFinite64 {w : DWord} (h : isFinite64 w = true) : isNaN64 w = false := by
  simp only [isFinite64, bne_iff_ne] at h
  simp [isNaN64, h]

/-- Steps 2 to 5 when the sum with `SHIFT` is no NaN. -/
theorem expTable_of_not_isNaN64 (c : Coeff4) {d : Draw} {a : Word} (h : isNaN64 (expShifted d (expScaled d a)) = false) :
    expTable c d a = narrow d (fmul64 d
      (expPoly c d (fsub64 d (expScaled d a) (expRounded d (expShifted d (expScaled d a)))))
      (expScale (int64 (expRounded d (expShifted d (expScaled d a)))))) := by
  simp only [expTable, h]
  rfl

/-- A NaN operand makes the sum with `SHIFT` a NaN (R179). -/
theorem isNaN64_expShifted (d : Draw) {a : Word} (h : isNaN32 a = true) : isNaN64 (expShifted d (expScaled d a)) = true :=
  fadd64_isNaN d (.inl (fmul64_isNaN d (.inl (widen_of_isNaN32 d h))))

theorem expTable_of_isNaN32 (c : Coeff4) (d : Draw) {a : Word} (h : isNaN32 a = true) : expTable c d a = d.anyNaN32 := by
  simp only [expTable, isNaN64_expShifted d h]
  rfl

/-! ### The zeros (R179) -/

/-- Multiplying a finite word that is no zero by 1 keeps it (R78). -/
theorem fmul64_one (d : Draw) {a : DWord} (ha : isFinite64 a = true) (hz : isZero64 a = false) :
    fmul64 d a 0x3FF0000000000000#64 = a := by
  have hone : isFinite64 0x3FF0000000000000#64 = true ∧ isZero64 0x3FF0000000000000#64 = false ∧
      val64 0x3FF0000000000000#64 = 1 := by decide +kernel
  obtain ⟨hfin, hnz, hval⟩ := hone
  have hr := (fmul64_of_finite d ha hfin hz hnz).1
  rw [hval, Rat.cast_one, mul_one] at hr
  have hsame := (val64_eq_of_roundsTo64 ha hr).2
  exact eq_of_val64_eq hsame fun h0 => by simp [(val64_eq_zero_iff ha).1 (hsame ▸ h0)] at hz

/-- The scale word of the integer 0 is 1. -/
theorem expScale_zero : expScale 0 = 0x3FF0000000000000#64 := by decide

theorem int64_zero : int64 0#64 = 0 := int64_eq_of_val64_eq (by rw [val64_of_isZero64 (by decide), Int.cast_zero])

theorem Coeff4.finite_iff (k : Coeff4) : k.finite = true ↔ ∀ w ∈ [k.c0, k.c1, k.c2, k.c3], isFinite64 w = true := by
  simp [Coeff4.finite, and_assoc]

/-- At a zero remainder the polynomial is its constant term when that is no zero (R90, R181). -/
theorem expPoly_of_isZero64 {c : Coeff4} (hc : c.finite = true) (h0 : isZero64 c.c0 = false) (d : Draw) {r : DWord}
    (hr : isZero64 r = true) : expPoly c d r = c.c0 := by
  have hfin := c.finite_iff.1 hc
  exact horner64_of_zero (rest := [c.c2, c.c1]) d hr (hfin c.c3 (by simp)) (by simp [hfin])
    (hfin c.c0 (by simp)) h0

/-- 44_exp_engine.md R181. -/
structure ExpConstraints (k : Coeffs) : Prop where
  finite : k.expC.finite = true
  const : isZero64 k.expC.c0 = false

theorem expConstraints {k : Coeffs} (h : k.expAdmissible = true) : ExpConstraints k := by
  simp only [Coeffs.expAdmissible, Bool.and_eq_true, Bool.not_eq_true'] at h
  exact ⟨h.1, h.2⟩

theorem ExpConstraints.isFinite64_const {k : Coeffs} (hk : ExpConstraints k) : isFinite64 k.expC.c0 = true :=
  (Coeff4.finite_iff _).1 hk.finite _ (by simp)

/-- The operands that are neither saturated nor NaNs have a magnitude of at most `THR`, and the sum with `SHIFT` is finite
(R173). -/
theorem isNaN64_expShifted_of_finite (d : Draw) {a : Word} (ha : isFinite32 a = true) (hle : |val32 a| ≤ val32 threshold) :
    isNaN64 (expShifted d (expScaled d a)) = false :=
  isNaN64_eq_false_of_isFinite64 (expScaled_magicRounding d ha hle).kd_finite

/-- A finite operand that is not saturated takes the table path (R171, R178). -/
theorem expOp_of_finite (k : Coeffs) (d : Draw) {a : Word} (ha : isFinite32 a = true) (hle : |val32 a| ≤ val32 threshold) :
    expOp k d a = expTable k.expC d a := by
  obtain ⟨hlo, hhi⟩ := abs_le.1 hle
  have hlo' : (-(val32 threshold) : ℝ) ≤ val32 a := by exact_mod_cast hlo
  have hhi' : (val32 a : ℝ) ≤ val32 threshold := by exact_mod_cast hhi
  rw [expOp_of_not_isNaN32 k d (isNaN32_eq_false_of_isFinite32 ha), extended32_of_isFinite32 ha,
    if_neg (EReal.coe_le_coe_iff.2 hlo').not_gt, if_neg (EReal.coe_le_coe_iff.2 hhi').not_gt]

theorem expOp_of_isZero32 {k : Coeffs} (hk : ExpConstraints k) (d : Draw) {a : Word} (h : isZero32 a = true) :
    expOp k d a = narrow d k.expC.c0 := by
  have hfin := isFinite32_of_isZero32 h
  have hle : |val32 a| ≤ val32 threshold := by
    rw [(val32_eq_zero_iff hfin).2 h, val32_threshold]
    norm_num
  obtain ⟨hk0, hr⟩ := expScaled_remainder_of_isZero32 d h
  have hrzero : isZero64 (pack64 (sign32 a) 0#11 0#52) = true := by simp [isZero64]
  rw [expOp_of_finite k d hfin hle, expTable_of_not_isNaN64 _ (isNaN64_expShifted_of_finite d hfin hle), hr, hk0, int64_zero,
    expScale_zero, expPoly_of_isZero64 hk.finite hk.const d hrzero, fmul64_one d hk.isFinite64_const hk.const]

end Sys2Proof.Machine

namespace Sys2Proof

open Sys2Proof.Machine Sys2Proof.Claims

theorem decode_exp (a b : Word) : decode ⟨0x02#8, a, b⟩ = .ok (.exp a) :=
  decode_of_mem_commandTable (r := (0x02#8, ⟨0b000#3, 0#1, 0x2#4⟩, fun a _ => .exp a)) (by simp [commandTable]) a b

/-- Settles O39: the operand takes the table path, and the sum with `SHIFT` is no NaN, so the path is the operations in order. -/
theorem expOperationByOperation : Obligations.ExpOperationByOperation := by
  refine fun a b s => ⟨decode_exp a b, fun ha hlo hhi => ?_⟩
  have hle : |val32 a| ≤ val32 threshold := abs_le.2 ⟨hlo, hhi⟩
  have hans := answers_exp a s
  rwa [expOp_of_finite _ _ ha hle, expTable_of_not_isNaN64 _ (isNaN64_expShifted_of_finite _ ha hle)] at hans

/-- Settles O40: a NaN goes through the scaling and the sum; at a zero the remainder is a zero and the scale word is 1. -/
theorem expSpecialOperands : Obligations.ExpSpecialOperands := by
  refine fun a s => ⟨fun h => ⟨_, answers_exp a s, ?nan⟩, fun h => ?zero⟩
  case nan =>
    rw [expOp_of_isNaN32 _ _ h, expTable_of_isNaN32 _ _ h]
    exact isNaN32_anyNaN32 _
  case zero =>
    have hans := answers_exp a s
    rwa [expOp_of_isZero32 (expConstraints coeffs_expAdmissible) _ h] at hans

end Sys2Proof
end

section
/-! PROOFS. The two error functions (43_poly_kernels.md R144 to R149): operation by operation, where they agree, and the constraints
on the configuration (R151) with 44_exp_engine.md R181. -/

namespace Sys2Proof.Machine

open Sys2Proof.Claims

/-! ### Signs and NaNs of `CSGN` -/

theorem isNaN32_csgnOp (m a : Word) : isNaN32 (csgnOp m a) = isNaN32 m := by simp [isNaN32]

theorem isNaN32_mag32 (a : Word) : isNaN32 (mag32 a) = isNaN32 a := by simp [isNaN32]

theorem csgnOp_eq_self_iff (m a : Word) : csgnOp m a = m ↔ sign32 m = sign32 a :=
  ⟨fun h => by rw [← h, sign32_csgnOp], fun h => by apply word_ext <;> simp [h]⟩

theorem csgnOp_eq_flipSign32_iff (m a : Word) : csgnOp m a = flipSign32 m ↔ sign32 m = !sign32 a := by
  constructor
  · intro h
    rw [← sign32_csgnOp m a, h, sign32_flipSign32, Bool.not_not]
  · intro h
    apply word_ext <;> simp [h]

theorem csgnOp_flipSign32 (m a : Word) : csgnOp m (flipSign32 a) = flipSign32 (csgnOp m a) := by
  apply word_ext <;> simp

theorem mag32_of_sign_false {a : Word} (h : sign32 a = false) : mag32 a = a := by
  apply word_ext <;> simp [h]

theorem mag32_of_sign_true {a : Word} (h : sign32 a = true) : mag32 a = flipSign32 a := by
  apply word_ext <;> simp [h]

/-! ### `ERFMAG` of a NaN (R145) -/

theorem erfMag_isNaN (k : Coeff7) (d : Draw) {u : Word} (h : isNaN32 u = true) : isNaN32 (erfMag k d u) = true := by
  have hy : isNaN32 (erfPoly k d u) = true := horner32_isNaN d k.c6 k.c5 [k.c4, k.c3, k.c2, k.c1, k.c0] h
  have hy2 := fmul32_isNaN d (.inl hy) (b := erfPoly k d u)
  have hy4 := fmul32_isNaN d (.inl hy2) (b := fmul32 d (erfPoly k d u) (erfPoly k d u))
  exact fsub32_isNaN d (.inr (fdiv32_isNaN d (.inr (fmul32_isNaN d (.inl hy4)))))

/-! ### `ERF.U` (R146) -/

theorem erfUOp_eq (k : Coeffs) (d : Draw) (a : Word) : erfUOp k d a = csgnOp (erfMag k.erfC d (mag32 a)) a := rfl

theorem erfUOp_flipSign32 (k : Coeffs) (d : Draw) (a : Word) : erfUOp k d (flipSign32 a) = flipSign32 (erfUOp k d a) := by
  rw [erfUOp, absOp_flipSign32, csgnOp_flipSign32, erfUOp]

theorem erfUOp_isNaN (k : Coeffs) (d : Draw) {a : Word} (h : isNaN32 a = true) : isNaN32 (erfUOp k d a) = true := by
  rw [erfUOp_eq, isNaN32_csgnOp]
  exact erfMag_isNaN k.erfC d ((isNaN32_mag32 a).trans h)

theorem erfSOp_isNaN (k : Coeffs) (d : Draw) {a : Word} (h : isNaN32 a = true) : isNaN32 (erfSOp k d a) = true := by
  rw [erfSOp_of_not_positive k d (.inl h), flipSign32_isNaN]
  exact erfMag_isNaN k.erfC d ((flipSign32_isNaN a).trans h)

/-! ### Where the two agree (R148) -/

/-- A word with sign bit 0 that is not `+0` is no zero. -/
theorem isZero32_eq_false_of_sign_false {a : Word} (hs : sign32 a = false) (h0 : a ≠ 0) : isZero32 a = false := by
  refine Bool.eq_false_iff.2 fun hz => h0 ?_
  rw [eq_pack32_of_isZero32 hz, hs]
  decide

/-- Both take `ERFMAG` of the operand's magnitude; `ERF.U` then sets the operand's sign, and `ERF.S` flips the sign when the operand
is negative. -/
theorem erfUOp_eq_erfSOp_iff (k : Coeffs) (d : Draw) {a : Word} (hn : isNaN32 a = false) (h0 : a ≠ 0) :
    erfUOp k d a = erfSOp k d a ↔ sign32 (erfMag k.erfC d (mag32 a)) = false := by
  rw [erfUOp_eq]
  cases hs : sign32 a
  · rw [erfSOp_of_positive k d hn (isZero32_eq_false_of_sign_false hs h0) hs, mag32_of_sign_false hs, csgnOp_eq_self_iff, hs]
  · rw [erfSOp_of_not_positive k d (.inr (.inr hs)), mag32_of_sign_true hs, csgnOp_eq_flipSign32_iff, hs, Bool.not_true]

/-- R151 (f) at the operand's magnitude makes them agree. -/
theorem erfUOp_eq_erfSOp_of_modesAgreeOn {k : Coeffs} {used : List Word} (hk : k.modesAgreeOn used = true) (d : Draw) {a : Word}
    (hused : mag32 a ∈ used) (hn : isNaN32 a = false) (h0 : a ≠ 0) : erfUOp k d a = erfSOp k d a :=
  (erfUOp_eq_erfSOp_iff k d hn h0).2
    ((modesAgreeOn_iff k used).1 hk _ hused ((isNaN32_mag32 a).trans hn) (sign32_mag32 a) d).2

/-! ### The fixed points (R151 (d), (e)) -/

theorem mag32_of_isZero32 {a : Word} (h : isZero32 a = true) : mag32 a = 0x00000000#32 := by
  rw [eq_pack32_of_isZero32 h]
  apply word_ext <;> simp <;> decide

/-- `ERF.U` gives the operand back at the zeros. -/
theorem erfUOp_of_isZero32 {k : Coeffs} (hk : k.erfAdmissible = true) (d : Draw) {a : Word} (h : isZero32 a = true) :
    erfUOp k d a = a := by
  rw [erfUOp_eq, mag32_of_isZero32 h, erfMag_zero hk, ← mag32_of_isZero32 h]
  exact (csgnOp_absOp a a).trans (csgnOp_self a)

theorem erfUOp_ten {k : Coeffs} (hk : k.erfAdmissible = true) (d : Draw) : erfUOp k d 0x41200000#32 = 0x3F800000#32 := by
  have hmag : mag32 0x41200000#32 = 0x41200000#32 := by decide
  rw [erfUOp_eq, hmag, erfMag_ten hk]
  decide

theorem erfSOp_ten {k : Coeffs} (hk : k.erfAdmissible = true) (d : Draw) : erfSOp k d 0x41200000#32 = 0x3F800000#32 := by
  rw [erfSOp_of_positive k d (by decide) (by decide) (by decide), erfMag_ten hk]
  rfl

theorem flipSign32_ten : flipSign32 0x41200000#32 = 0xC1200000#32 := by decide

theorem flipSign32_one : flipSign32 0x3F800000#32 = 0xBF800000#32 := by decide

theorem erfUOp_neg_ten {k : Coeffs} (hk : k.erfAdmissible = true) (d : Draw) : erfUOp k d 0xC1200000#32 = 0xBF800000#32 := by
  rw [← flipSign32_ten, erfUOp_flipSign32, erfUOp_ten hk, flipSign32_one]

theorem erfSOp_neg_ten {k : Coeffs} (hk : k.erfAdmissible = true) (d : Draw) : erfSOp k d 0xC1200000#32 = 0xBF800000#32 := by
  rw [← flipSign32_ten, erfSOp_flipSign32 k d (by decide) (by decide), erfSOp_ten hk, flipSign32_one]

/-! ### The constraints unfolded (R151) -/

theorem Coeff7.finite_iff (k : Coeff7) :
    k.finite = true ↔ ∀ w ∈ [k.c0, k.c1, k.c2, k.c3, k.c4, k.c5, k.c6], isFinite32 w = true := by
  simp [Coeff7.finite, and_assoc]

theorem erfC_finite {k : Coeffs} (h : k.erfAdmissible = true) : k.erfC.finite = true := by
  simp only [Coeffs.erfAdmissible, Bool.and_eq_true] at h
  exact h.1.1

/-- R151 (a) and R140: all nineteen binary32 coefficients are finite. -/
theorem finite_coefficients32 {k : Coeffs} (htrig : TrigConstraints k) (herf : k.erfAdmissible = true) :
    ∀ w ∈ [k.sinC.c0, k.sinC.c1, k.sinC.c2, k.sinC.c3, k.sinC.c4, k.sinC.c5, k.cosC.c0, k.cosC.c1, k.cosC.c2, k.cosC.c3,
        k.cosC.c4, k.cosC.c5, k.erfC.c0, k.erfC.c1, k.erfC.c2, k.erfC.c3, k.erfC.c4, k.erfC.c5, k.erfC.c6],
      isFinite32 w = true :=
  List.forall_mem_append.2 ⟨(Coeff6.finite_iff _).1 htrig.sinFinite,
    List.forall_mem_append.2 ⟨(Coeff6.finite_iff _).1 htrig.cosFinite, (Coeff7.finite_iff _).1 (erfC_finite herf)⟩⟩

end Sys2Proof.Machine

namespace Sys2Proof

open Sys2Proof.Machine Sys2Proof.Claims

theorem decode_erfU (a b : Word) : decode ⟨0x03#8, a, b⟩ = .ok (.erfU a) :=
  decode_of_mem_commandTable (r := (0x03#8, ⟨0b000#3, 0#1, 0x3#4⟩, fun a _ => .erfU a)) (by simp [commandTable]) a b

theorem decode_erfS (a b : Word) : decode ⟨0x13#8, a, b⟩ = .ok (.erfS a) :=
  decode_of_mem_commandTable (r := (0x13#8, ⟨0b000#3, 1#1, 0x3#4⟩, fun a _ => .erfS a)) (by simp [commandTable]) a b

/-- `ERF.U` answers with `erfUOp` on the transaction's draw (R146). -/
theorem answers_erfU (a : Word) (s : State) : Answers (.erfU a) s (erfUOp Config.coeffs s.draw a) := exec_eq (.erfU a) s

/-- `ERF.S` answers with `erfSOp` on the transaction's draw (R147). -/
theorem answers_erfS (a : Word) (s : State) : Answers (.erfS a) s (erfSOp Config.coeffs s.draw a) := exec_eq (.erfS a) s

/-- Settles O32: the operations are those of the definitions. -/
theorem erfUnsortedOperationByOperation : Obligations.ErfUnsortedOperationByOperation :=
  fun a b s => ⟨decode_erfU a b, answers_erfU a s⟩

/-- Settles O33: the comparison with 0 holds exactly on the words of the first arm. -/
theorem erfSortedTwoArms : Obligations.ErfSortedTwoArms := by
  refine fun a b s => ⟨decode_erfS a b, fun hn hz hs => ?positive, fun h => ?other⟩
  all_goals have hans := answers_erfS a s
  case positive => rwa [erfSOp_of_positive _ _ hn hz hs] at hans
  case other => rwa [erfSOp_of_not_positive _ _ h] at hans

/-- Settles O34: both take the magnitude's `ERFMAG`, and setting the operand's sign on it is keeping it or flipping it when its own
sign bit is 0. -/
theorem erfStrategiesAgreeIff : Obligations.ErfStrategiesAgreeIff := by
  refine fun k d a => ⟨erfUOp_eq_erfSOp_iff k d, fun hk => ?zero, fun h => ⟨erfUOp_isNaN k d h, erfSOp_isNaN k d h⟩⟩
  case zero =>
    simp only [Coeffs.fixedConstraints, Bool.and_eq_true] at hk
    obtain ⟨⟨-, herf⟩, -⟩ := hk
    exact ⟨erfUOp_of_isZero32 herf d (by decide), erfSOp_of_isZero32 herf d (by decide)⟩

/-- Settles O36: the magnitude does not depend on the operand's sign, which is set on it last. -/
theorem erfUnsortedOdd : Obligations.ErfUnsortedOdd :=
  fun k d a => ⟨sign32_csgnOp _ a, erfUOp_flipSign32 k d a⟩

/-- Settles O37: R151 (d) and (e) with the oddness of both functions. -/
theorem erfFixedPoints : Obligations.ErfFixedPoints := by
  intro s
  have hk := coeffs_erfAdmissible
  have hu {a r : Word} (h : erfUOp Config.coeffs s.draw a = r) : Answers (.erfU a) s r := h ▸ answers_erfU a s
  have hs {a r : Word} (h : erfSOp Config.coeffs s.draw a = r) : Answers (.erfS a) s r := h ▸ answers_erfS a s
  exact ⟨hu (erfUOp_of_isZero32 hk _ (by decide)), hu (erfUOp_of_isZero32 hk _ (by decide)),
    hs (erfSOp_of_isZero32 hk _ (by decide)), hs (erfSOp_of_isZero32 hk _ (by decide)),
    hu (erfUOp_ten hk _), hu (erfUOp_neg_ten hk _), hs (erfSOp_ten hk _), hs (erfSOp_neg_ten hk _)⟩

/-- Settles O55: (f) at the operand's magnitude is what the agreement needs, and this unit's configuration meets it. -/
theorem erfModesAgreeWhereUsed : Obligations.ErfModesAgreeWhereUsed := by
  refine ⟨fun k used hk d a => erfUOp_eq_erfSOp_of_modesAgreeOn hk d, fun a s hused hn h0 => ?_⟩
  have hagree := erfUOp_eq_erfSOp_of_modesAgreeOn coeffs_modesAgreeOn s.draw hused hn h0
  exact ⟨_, answers_erfU a s, hagree ▸ answers_erfS a s⟩

/-- Settles O56: each constraint is read off its test, which holds with every draw because the tested result is no NaN. -/
theorem configurationMeetsConstraints : Obligations.ConfigurationMeetsConstraints := by
  refine ⟨fun k used hk => ?constraints, coeffs_admissible, ?zeroUsed, ?tenUsed⟩
  case constraints =>
    obtain ⟨⟨htrig, herf, hexp⟩, hmodes⟩ := (admissible_iff k used).1 hk
    have ht := trigConstraints htrig
    have he := expConstraints hexp
    exact ⟨⟨finite_coefficients32 ht herf, ht.sinConst⟩, ht.cosConst,
      fun d => isZero32_fmul32_of_zero d ht.isFinite32_sinConst (by decide), fun d => ⟨erfMag_zero herf d, erfMag_ten herf d⟩,
      fun d u hu hn hs => ((modesAgreeOn_iff k used).1 hmodes u hu hn hs d).2, (Coeff4.finite_iff _).1 he.finite, he.const⟩
  case zeroUsed => exact List.mem_append_left _ (by decide)
  case tenUsed => exact List.mem_append_left _ (by decide)

end Sys2Proof
end
